-- ==== Sys2Proof/Word.lean ====
section
/-! DEFINITION. The words of the NTK: 32-bit words (R8, XLEN), wide-register names (R23), word indexes of the host port
(R61), and the number of bits of an integer (R10). -/

namespace Sys2Proof

/-- A CSR, a command word, a word of the host port, a random word: 32 bits (R8). -/
abbrev Word := BitVec 32

/-- The name of a wide register `w0`..`w7` (R23). -/
abbrev Reg := Fin 8

/-- The word index the host port carries: byte offset divided by 4, 11 bits (R61, R69). -/
abbrev PortIndex := BitVec 11

end Sys2Proof
end

