-- ==== Sys2Proof/Config.lean ====
section
/-! DEFINITION. What the spec fixes for every NTK, the width the model's reset state has, and the free values: constants
without a body, so that no proof can rest on what they are. -/

namespace Sys2Proof

/-- The identification word, ASCII "NTK1" (R2, R35). -/
def Config.idWord : Word := 0x4E544B31#32

/-- `NREG`, the number of wide registers (R8). -/
def Config.nreg : Nat := 8

/-- NWORD of `State.reset`: W = 256, the spec's reference value (R7). DESIGN CHOICE, log entry 1: W is open, every other
definition takes NWORD from the state. -/
def Config.referenceNword : Nat := 8

/-- Word `j` of the magnitude of wide register `i` after the reset numbered `draw`: unspecified by R26. Free value, log
entry 2. -/
opaque Config.resetWord : (draw i j : Nat) → Word

/-- The sign bit of wide register `i` after the reset numbered `draw`: unspecified by R26. Free value, log entry 2. -/
opaque Config.resetSign : (draw i : Nat) → Bool

/-- What a read of a wide-register word or of SIGN bits 7:0 returns while a command runs (R271). Free value, log
entry 10. -/
opaque Config.busyRead : (draw : Nat) → Word

/-- How many of the random words its rule would have consumed a discarded command did consume (R243, R260). Free value,
cut to what the rule would have consumed where it is used; log entry 9. -/
opaque Config.abortDraws : (draw : Nat) → Nat

end Sys2Proof
end

