-- ==== Sys2Proof/Syntax.lean ====
section
/-! DEFINITION. The twelve commands of the NTK (R3, R93, R95), one constructor per row of spec/opcode_table.json, operands
in the order of the assembler syntax (R107): destinations, then sources. -/

namespace Sys2Proof

/-- A command: the NTK's analogue of an instruction (R16). -/
inductive Instr where
  /-- No operation (R220). -/
  | nop
  /-- Modular exponentiation (R122). -/
  | powmod (rd ra rb rm : Reg)
  /-- Greatest common divisor with Bézout coefficients (R132). -/
  | xgcd (rd rd2 rd3 ra rb : Reg)
  /-- Modular inverse (R136). -/
  | modinv (rd ra rm : Reg)
  /-- Signed reduction (R146). -/
  | modred (rd ra rm : Reg)
  /-- Montgomery product (R150). -/
  | montmul (rd ra rb rm : Reg)
  /-- Conversion into Montgomery form (R153). -/
  | montin (rd ra rm : Reg)
  /-- Jacobi symbol (R166). -/
  | jacobi (ra rm : Reg)
  /-- Exact integer square root (R172). -/
  | isqrt (rd ra : Reg)
  /-- Square roots modulo an odd prime (R182). -/
  | modsqrt (rd rd2 ra rm : Reg)
  /-- Probabilistic primality test (R198). -/
  | isprime (ra : Reg)
  /-- Prime sampler; `f` is the filter bit F (R205). -/
  | genprime (rd : Reg) (f : Bool)
deriving DecidableEq, Repr

end Sys2Proof
end

