-- ==== Sys2Proof/WellFormed.lean ====
section
/-! DEFINITION. Which commands are legal as syntax: no two destination fields of one command name the same register
(R103). Every other restriction of the encoding (R93, R95) is settled by the decoder, since an `Instr` has no field that
could break it. -/

namespace Sys2Proof

/-- The wide registers a command names as destinations, in the order RD, RD2, RD3 (R93, R94). -/
def Instr.dests : Instr → List Reg
  | .nop => []
  | .powmod rd _ _ _ => [rd]
  | .xgcd rd rd2 rd3 _ _ => [rd, rd2, rd3]
  | .modinv rd _ _ => [rd]
  | .modred rd _ _ => [rd]
  | .montmul rd _ _ _ => [rd]
  | .montin rd _ _ => [rd]
  | .jacobi _ _ => []
  | .isqrt rd _ => [rd]
  | .modsqrt rd rd2 _ _ => [rd, rd2]
  | .isprime _ => []
  | .genprime rd _ => [rd]

/-- The destinations are pairwise distinct (R103). A command that fails this still decodes to its row and then completes
with ILLEGAL_CMD (R95). -/
def Instr.wellFormed (i : Instr) : Bool := decide i.dests.Nodup

end Sys2Proof
end

