-- ==== Sys2Proof/Decode.lean ====
section
/-! DEFINITION. The command word: its fields (R91), the opcode map with match and mask (R95), decoding, total on all 2^32
words and refusing by name (R96), and the encoder (R107). -/

namespace Sys2Proof

/-- The fields of the one command format (R91). -/
structure Fields where
  opc : BitVec 8
  rd : BitVec 3 := 0
  ra : BitVec 3 := 0
  rb : BitVec 3 := 0
  rm : BitVec 3 := 0
  rd2 : BitVec 3 := 0
  rd3 : BitVec 3 := 0
  f : BitVec 1 := 0
  rsv : BitVec 5 := 0
deriving DecidableEq, Repr

/-- The fields cut out of a word, at the bit positions of R91 and R92. -/
def Fields.ofWord (w : Word) : Fields where
  opc := w.extractLsb' 0 8
  rd := w.extractLsb' 8 3
  ra := w.extractLsb' 11 3
  rb := w.extractLsb' 14 3
  rm := w.extractLsb' 17 3
  rd2 := w.extractLsb' 20 3
  rd3 := w.extractLsb' 23 3
  f := w.extractLsb' 26 1
  rsv := w.extractLsb' 27 5

/-- The word with these fields, each shifted to its place (R91, R107). -/
def Fields.toWord (x : Fields) : Word :=
  x.opc.setWidth 32 ||| x.rd.setWidth 32 <<< 8 ||| x.ra.setWidth 32 <<< 11 ||| x.rb.setWidth 32 <<< 14 |||
    x.rm.setWidth 32 <<< 17 ||| x.rd2.setWidth 32 <<< 20 ||| x.rd3.setWidth 32 <<< 23 ||| x.f.setWidth 32 <<< 26 |||
    x.rsv.setWidth 32 <<< 27

/-- The register a 3-bit field names (R92). -/
def regOfBits (b : BitVec 3) : Reg := b.toFin

/-- The 3-bit field that names a register (R92). -/
def bitsOfReg (r : Reg) : BitVec 3 := BitVec.ofFin r

/-- A row of the opcode map (R95): a word `c` is the row's command iff `c` and the mask is the match; `make` reads the
operand fields the command uses (R93). -/
structure OpcodeRow where
  mtch : Word
  mask : Word
  make : Fields → Instr

/-- The opcode map (R95), row `n` for `OPC = n`. -/
def opcodeRows : List OpcodeRow := [
  ⟨0x00000000#32, 0xFFFFFFFF#32, fun _ => .nop⟩,
  ⟨0x00000001#32, 0xFFF000FF#32, fun x =>
    .powmod (regOfBits x.rd) (regOfBits x.ra) (regOfBits x.rb) (regOfBits x.rm)⟩,
  ⟨0x00000002#32, 0xFC0E00FF#32, fun x =>
    .xgcd (regOfBits x.rd) (regOfBits x.rd2) (regOfBits x.rd3) (regOfBits x.ra) (regOfBits x.rb)⟩,
  ⟨0x00000003#32, 0xFFF1C0FF#32, fun x => .modinv (regOfBits x.rd) (regOfBits x.ra) (regOfBits x.rm)⟩,
  ⟨0x00000004#32, 0xFFF1C0FF#32, fun x => .modred (regOfBits x.rd) (regOfBits x.ra) (regOfBits x.rm)⟩,
  ⟨0x00000005#32, 0xFFF000FF#32, fun x =>
    .montmul (regOfBits x.rd) (regOfBits x.ra) (regOfBits x.rb) (regOfBits x.rm)⟩,
  ⟨0x00000006#32, 0xFFF1C0FF#32, fun x => .montin (regOfBits x.rd) (regOfBits x.ra) (regOfBits x.rm)⟩,
  ⟨0x00000007#32, 0xFFF1C7FF#32, fun x => .jacobi (regOfBits x.ra) (regOfBits x.rm)⟩,
  ⟨0x00000008#32, 0xFFFFC0FF#32, fun x => .isqrt (regOfBits x.rd) (regOfBits x.ra)⟩,
  ⟨0x00000009#32, 0xFF81C0FF#32, fun x =>
    .modsqrt (regOfBits x.rd) (regOfBits x.rd2) (regOfBits x.ra) (regOfBits x.rm)⟩,
  ⟨0x0000000A#32, 0xFFFFC7FF#32, fun x => .isprime (regOfBits x.ra)⟩,
  ⟨0x0000000B#32, 0xFBFFF8FF#32, fun x => .genprime (regOfBits x.rd) (x.f == 1#1)⟩]

/-- Why a word is no command (R96, R104). -/
inductive DecodeError where
  /-- `OPC` is above 0x0B. -/
  | reservedOpcode
  /-- A field the command does not use, or RSV, is not zero. -/
  | nonZeroUnusedField
deriving DecidableEq, Repr

/-- The decoding procedure (R96), but for its last check: a word with two equal destinations "still decodes to that
command's row and then completes with ILLEGAL_CMD" (R95), so that check stands in the two commands it concerns. -/
def decode (w : Word) : Except DecodeError Instr :=
  match opcodeRows[(Fields.ofWord w).opc.toNat]? with
  | none => .error .reservedOpcode
  | some row =>
    if w &&& row.mask = row.mtch then .ok (row.make (Fields.ofWord w)) else .error .nonZeroUnusedField

/-- The fields of a command, unused ones zero (R93, R107). -/
def Instr.fields : Instr → Fields
  | .nop => { opc := 0x00#8 }
  | .powmod rd ra rb rm =>
    { opc := 0x01#8, rd := bitsOfReg rd, ra := bitsOfReg ra, rb := bitsOfReg rb, rm := bitsOfReg rm }
  | .xgcd rd rd2 rd3 ra rb =>
    { opc := 0x02#8, rd := bitsOfReg rd, rd2 := bitsOfReg rd2, rd3 := bitsOfReg rd3, ra := bitsOfReg ra,
      rb := bitsOfReg rb }
  | .modinv rd ra rm => { opc := 0x03#8, rd := bitsOfReg rd, ra := bitsOfReg ra, rm := bitsOfReg rm }
  | .modred rd ra rm => { opc := 0x04#8, rd := bitsOfReg rd, ra := bitsOfReg ra, rm := bitsOfReg rm }
  | .montmul rd ra rb rm =>
    { opc := 0x05#8, rd := bitsOfReg rd, ra := bitsOfReg ra, rb := bitsOfReg rb, rm := bitsOfReg rm }
  | .montin rd ra rm => { opc := 0x06#8, rd := bitsOfReg rd, ra := bitsOfReg ra, rm := bitsOfReg rm }
  | .jacobi ra rm => { opc := 0x07#8, ra := bitsOfReg ra, rm := bitsOfReg rm }
  | .isqrt rd ra => { opc := 0x08#8, rd := bitsOfReg rd, ra := bitsOfReg ra }
  | .modsqrt rd rd2 ra rm =>
    { opc := 0x09#8, rd := bitsOfReg rd, rd2 := bitsOfReg rd2, ra := bitsOfReg ra, rm := bitsOfReg rm }
  | .isprime ra => { opc := 0x0A#8, ra := bitsOfReg ra }
  | .genprime rd f => { opc := 0x0B#8, rd := bitsOfReg rd, f := BitVec.ofBool f }

/-- The command word of a command (R107). -/
def encode (i : Instr) : Word := i.fields.toWord

/-- What the decoder reads from a word numbered as spec/opcode_table.json numbers its bits: every command is one 32-bit
word (R90), bit 0 the least significant. -/
def decodeTableWord (nbits w : Nat) : Option Instr :=
  match decode (BitVec.ofNat 32 (w % 2 ^ nbits)) with
  | .ok i => some i
  | .error _ => none

end Sys2Proof
end

