-- ==== Sys2Proof/Machine/State.lean ====
section
/-! DEFINITION. The state of the NTK as plain data (R20, R50), with the environment the step reads (R51, R53, R71), and
the state after reset (R55, R260). -/

namespace Sys2Proof.Machine

/-- Reasons for the machine to stop: none. Every command word and every port access has a defined outcome (R17, R61,
R65), and what the spec has for an exception is a completion with an error code (R233), which is a next state. -/
inductive Fault where
deriving DecidableEq, Repr

/-- Reasons to refuse an instruction. -/
inductive Refusal where
  /-- Raised by nobody: every command has its meaning. It would be the dispatcher's answer for an instruction without
  one (safe: the run ends). -/
  | notModelled (mnemonic : String)
deriving DecidableEq, Repr

/-- The values of `STATUS.ECODE` (R230). The NTK never raises the codes 1 to 3. -/
inductive ErrorCode where
  | ok
  | smallKey
  | incorrectAlgorithm
  | messageNotFound
  | mathError
  | illegalCmd
  | operandRange
  | aborted
deriving DecidableEq, Repr

/-- A wide register: a sign bit and the magnitude's 32-bit words, least significant first (R21, R66). -/
structure Wide where
  sign : Bool
  words : List Word
deriving DecidableEq, Repr

/-- What the sequencer holds from acceptance to completion (R50): the command word, the wide registers and the parameter
registers as they were at acceptance, and the abort request. The model keeps all eight wide registers, of which the
command reads its source fields (log entry 7). -/
structure Latch where
  cmd : Word
  wide : Vector Wide 8
  bitlen : Word
  persist : Word
  filtMod : Word
  filtRes : Word
  abortReq : Bool
deriving DecidableEq, Repr

/-- One move of one agent (R9, R71): the atomic steps that the spec interleaves. -/
inductive Event where
  /-- The host reads the word at an index (R62). -/
  | read (a : PortIndex)
  /-- The host writes the word at an index (R63). -/
  | write (a : PortIndex) (v : Word)
  /-- The sequencer completes the running command, if it can (R232, R233). -/
  | complete
  /-- The sequencer acts on a pending abort request (R243, way b). -/
  | abort
  /-- The random source supplies its next word (R80). -/
  | supply (w : Word)
  /-- The platform asserts reset (R260). -/
  | reset
deriving DecidableEq, Repr

/-- The state. The fields down to `running` are the spec's (R20, R50); the rest is the width parameter's and the
environment's (R51, R53), see INVENTORY.md. -/
structure State where
  /-- NWORD = W / 32, the instance's parameter (R7, R8); no step changes it. -/
  nword : Nat
  /-- `w0`..`w7` (R21). -/
  wide : Vector Wide 8
  /-- `CTRL.IE` (R37). -/
  ie : Bool
  /-- `STATUS.DONE` (R38). -/
  done : Bool
  /-- `STATUS.FOUND` (R32). -/
  found : Bool
  /-- `STATUS.ECODE` (R230); `STATUS.ERR` is computed from it (R38). -/
  ecode : ErrorCode
  /-- `STATUS.BUSYWR` (R270). -/
  busywr : Bool
  /-- `RESULT` (R33). -/
  result : Word
  /-- `ITER` (R34). -/
  iter : Word
  /-- `BITLEN` (R42). -/
  bitlen : Word
  /-- `PERSIST` (R43). -/
  persist : Word
  /-- `FILT_MOD` (R44). -/
  filtMod : Word
  /-- `FILT_RES` (R44). -/
  filtRes : Word
  /-- The command in execution (R50); `STATUS.BUSY` is whether there is one. -/
  running : Option Latch
  /-- What the agents do next, oldest first (R71; log entry 3). -/
  agenda : List Event
  /-- The data word of the latest port read (R62; log entry 12). -/
  reply : Option Word
  /-- Random words supplied and not yet consumed, next one first (R80, R83; log entry 4). -/
  rng : List Word
  /-- How many random words have been consumed: the cursor of R80. -/
  drawn : Nat
  /-- The number of the next free value (log entry 10). -/
  fresh : Nat
deriving DecidableEq, Repr

/-- A wide register after the reset numbered `draw`: unspecified (R26). -/
def Wide.afterReset (nword draw i : Nat) : Wide where
  sign := Config.resetSign draw i
  words := (List.range nword).map (Config.resetWord draw i)

/-- The state after the reset numbered `draw` of an instance with `nword` words per register (R55), with nothing on the
agenda and no random word supplied. -/
def State.powerOn (nword draw : Nat) : State where
  nword := nword
  wide := #v[.afterReset nword draw 0, .afterReset nword draw 1, .afterReset nword draw 2, .afterReset nword draw 3,
    .afterReset nword draw 4, .afterReset nword draw 5, .afterReset nword draw 6, .afterReset nword draw 7]
  ie := false
  done := false
  found := false
  ecode := .ok
  busywr := false
  result := 0#32
  iter := 0#32
  bitlen := 0#32
  persist := 0#32
  filtMod := 0#32
  filtRes := 0#32
  running := none
  agenda := []
  reply := none
  rng := []
  drawn := 0
  fresh := draw + 1

/-- The state right after reset (R55, R260), at the reference width (R7; log entry 1). -/
def State.reset : State := State.powerOn Config.referenceNword 0

end Sys2Proof.Machine
end

