-- ==== Sys2Proof/Machine/Ops.lean ====
section
/-! DEFINITION. The named operations on the state: magnitudes as integers and as words (R66), reading and writing wide
registers (R21, R22), acceptance (R231), completion (R232), and ending with an error code, the NTK's exception (R233). -/

namespace Sys2Proof.Machine

/-- The integer whose 32-bit words are these, least significant first (R66). -/
def natOfWords : List Word → Nat
  | [] => 0
  | w :: ws => w.toNat + 2 ^ 32 * natOfWords ws

/-- The `n` least significant 32-bit words of an integer, least significant first (R66). -/
def wordsOfNat : Nat → Nat → List Word
  | 0, _ => []
  | n + 1, v => BitVec.ofNat 32 v :: wordsOfNat n (v / 2 ^ 32)

/-- `MAG[i]` (R21). -/
def Wide.mag (w : Wide) : Nat := natOfWords w.words

/-- The value of a wide register; negative zero is 0 (R21, R25). -/
def Wide.value (w : Wide) : Int := if w.sign then -(w.mag : Int) else w.mag

/-- The wide register that holds `v` in `n` words: never negative zero (R22). The rules bound every `v` written, so no
magnitude is cut (log entry 13). -/
def Wide.ofInt (n : Nat) (v : Int) : Wide where
  sign := decide (v < 0)
  words := wordsOfNat n v.natAbs

/-- W, the width of a magnitude in bits (R7). -/
def State.width (s : State) : Nat := 32 * s.nword

/-- `w[r]`, the value of a wide register (R12). -/
def State.reg (s : State) (r : Reg) : Int := (s.wide[r]).value

/-- `w[r] <- v` (R22). -/
def State.writeReg (s : State) (r : Reg) (v : Int) : State :=
  { s with wide := s.wide.set r (Wide.ofInt s.nword v) }

/-- Every wide-register write of a command's rule (R232). -/
def State.writeRegs (s : State) : List (Reg × Int) → State
  | [] => s
  | (r, v) :: rest => (s.writeReg r v).writeRegs rest

/-- `STATUS.BUSY`: a command is held from acceptance to completion (R38, R50). -/
def State.busy (s : State) : Bool := s.running.isSome

/-- What an acceptance of the word `c` latches (R231). -/
def State.latchOf (s : State) (c : Word) : Latch where
  cmd := c
  wide := s.wide
  bitlen := s.bitlen
  persist := s.persist
  filtMod := s.filtMod
  filtRes := s.filtRes
  abortReq := false

/-- Acceptance of the word `c` (R231). An illegal word is accepted like any other. -/
def State.accept (s : State) (c : Word) : State :=
  { s with
    running := some (s.latchOf c), done := false, ecode := .ok, found := false, result := 0#32, iter := 0#32 }

/-- Completion without error (R232): the register writes, the results, BUSY 0, DONE 1; the latch and with it the abort
request are gone. -/
def State.complete (s : State) (writes : List (Reg × Int)) (found : Bool) (result iter : Word) : State :=
  { s.writeRegs writes with
    found := found, result := result, iter := iter, ecode := .ok, done := true, running := none }

/-- Completion with an error (R233), the NTK's exception: only the status changes, no wide register is written. There is
no return from it but the next acceptance (R246). -/
def State.raise (s : State) (e : ErrorCode) : State :=
  { s with ecode := e, found := false, result := 0#32, iter := 0#32, done := true, running := none }

/-- A command that cannot complete yet stays in execution (R83, R206, R276). From an idle state this is the state after
the acceptance of its word `c` (log entry 6). -/
def State.hold (s : State) (c : Word) : State :=
  match s.running with
  | some _ => s
  | none => s.accept c

/-- The random words have been consumed down to `rest` (R80). -/
def State.consumeTo (s : State) (rest : List Word) : State :=
  { s with rng := rest, drawn := s.drawn + (s.rng.length - rest.length) }

end Sys2Proof.Machine
end

