-- ==== Sys2Proof/Machine/Arith.lean ====
section
/-! DEFINITION. The number theory of the commands on natural numbers: modular power (R123), extended Euclid (R131),
Montgomery inverse of the radix (R148), Jacobi symbol (R167), exact square root (R171), square root modulo an odd prime
(R182 to R187). Every loop carries fuel, one unit per round, more than its rounds (log entry 14). -/

namespace Sys2Proof.Machine

/-- `bitlen(v)`: the least `k` with `v < 2^k` (R10). -/
def bitlen (v : Nat) : Nat := if v = 0 then 0 else Nat.log2 v + 1

/-- The loop of R123: `result`, `x` and the exponent `k` still to be read. -/
def powLoop (m : Nat) : Nat → Nat → Nat → Nat → Nat
  | 0, result, _, _ => result
  | fuel + 1, result, x, k =>
    if k = 0 then result
    else powLoop m fuel (if k % 2 = 1 then result * x % m else result) (x * x % m) (k / 2)

/-- `(b^e) mod m` by the loop of R123, which starts at `1 mod m`. -/
def powMod (b e m : Nat) : Nat := powLoop m (bitlen e) (1 % m) (b % m) e

/-- What `XGCD_ALG` returns (R131). -/
structure Bezout where
  g : Nat
  u : Int
  v : Int
  steps : Nat
deriving DecidableEq, Repr

/-- The loop of R131. -/
def xgcdLoop : (fuel r0 r1 : Nat) → (s0 s1 t0 t1 : Int) → (steps : Nat) → Bezout
  | 0, r0, _, s0, _, t0, _, steps => ⟨r0, s0, t0, steps⟩
  | fuel + 1, r0, r1, s0, s1, t0, t1, steps =>
    if r1 = 0 then ⟨r0, s0, t0, steps⟩
    else
      let q := r0 / r1
      xgcdLoop fuel r1 (r0 - q * r1) s1 (s0 - q * s1) t1 (t0 - q * t1) (steps + 1)

/-- `XGCD_ALG(a, b)` (R131): normative for the Bézout pair and the step count. -/
def xgcdAlg (a b : Nat) : Bezout := xgcdLoop (b + 1) a b 1 0 0 1 0

/-- The inverse modulo `m` that `XGCD_ALG` gives for `a` first and `m` second (R136, R186). -/
def invMod (a m : Nat) : Nat := ((xgcdAlg a m).u % (m : Int)).toNat

/-- `Rinv`: the inverse of the radix `R = 2^W` modulo an odd `n`, 0 for `n = 1` (R148, R150). -/
def montRinv (width n : Nat) : Nat := invMod (2 ^ width % n) n

/-- The Montgomery product (R148). -/
def montMul (width x y n : Nat) : Nat := x * y * montRinv width n % n

/-- The inner loop of R167: halve an even `a`, changing the sign of `t` when `n` is 3 or 5 modulo 8. -/
def jacobiHalve (n : Nat) : Nat → Nat → Int → Nat × Int
  | 0, a, t => (a, t)
  | fuel + 1, a, t =>
    if a % 2 = 0 then jacobiHalve n fuel (a / 2) (if n % 8 = 3 ∨ n % 8 = 5 then -t else t) else (a, t)

/-- The outer loop of R167. -/
def jacobiLoop : Nat → Nat → Nat → Int → Int
  | 0, _, _, _ => 0
  | fuel + 1, a, n, t =>
    if a = 0 then (if n = 1 then t else 0)
    else
      let h := jacobiHalve n a a t
      jacobiLoop fuel (n % h.1) h.1 (if n % 4 = 3 ∧ h.1 % 4 = 3 then -h.2 else h.2)

/-- `J(a, n)` for odd `n >= 1`, by the binary algorithm of R167. -/
def jacobi (a n : Nat) : Int := jacobiLoop (n + 1) (a % n) n 1

/-- The binary search of R171 between `lo` and `hi`. -/
def isqrtLoop (x : Nat) : Nat → Nat → Nat → Option Nat
  | 0, _, _ => none
  | fuel + 1, lo, hi =>
    if hi < lo then none
    else
      let mid := (lo + hi) / 2
      let sq := mid * mid
      if sq = x then some mid
      else if sq < x then isqrtLoop x fuel (mid + 1) hi
      else isqrtLoop x fuel lo (mid - 1)

/-- `ISQRT_ALG(x)` (R171). -/
def isqrtAlg (x : Nat) : Option Nat := isqrtLoop x (x + 1) 0 x

/-- `(s, q)` with `m = 2^s * q` and `q` odd, for `m >= 1` (R182, R197). -/
def splitTwos : Nat → Nat → Nat × Nat
  | 0, m => (0, m)
  | fuel + 1, m => if m % 2 = 0 then ((splitTwos fuel (m / 2)).1 + 1, (splitTwos fuel (m / 2)).2) else (0, m)

/-- The search of R187 from `c` upwards, `fuel` candidates long. -/
def nonResidueFrom (p : Nat) : Nat → Nat → Option Nat
  | 0, _ => none
  | fuel + 1, c => if jacobi c p = -1 then some c else nonResidueFrom p fuel (c + 1)

/-- The least `c` in `2 .. p-1` with `J(c, p) = -1` (R187). -/
def leastNonResidue (p : Nat) : Option Nat := nonResidueFrom p (p - 2) 2

/-- Round `i` of the correction loop (R184, R185): the new `n2`. -/
def correctRound (p se a1 a2 n1 n2 i : Nat) : Nat :=
  if powMod (a2 * (a1 * n2) ^ 2) (2 ^ (se - 2 - i)) p ≠ 1 then n2 * powMod n1 (2 ^ i) p % p else n2

/-- The rounds `i = 0 .. se-2` from `n2 = 1` (R184, R186). -/
def correction (p se a1 a2 n1 : Nat) : Nat :=
  (List.range (se - 1)).foldl (correctRound p se a1 a2 n1) 1

/-- How MODSQRT ends (R182). -/
inductive SqrtEnding where
  /-- A non-residue: no root, no error. -/
  | nonResidue
  /-- No non-residue below `p`, or `a` not invertible: MATH_ERROR. -/
  | mathError
  /-- Both roots, `r1` first. -/
  | roots (r1 r2 : Nat)
deriving DecidableEq, Repr

/-- Step 5 of R182, the Tonelli-Shanks variant, for `a` already reduced. -/
def tonelli (a p : Nat) : SqrtEnding :=
  let sq := splitTwos (p - 1) (p - 1)
  let se := max sq.1 2
  match leastNonResidue p with
  | none => .mathError
  | some n0 =>
    if (xgcdAlg a p).g ≠ 1 then .mathError
    else
      let a1 := powMod a ((sq.2 + 1) / 2) p
      let n2 := correction p se a1 (invMod a p) (powMod n0 sq.2 p)
      let r := a1 * n2 % p
      .roots r ((p - r) % p)

/-- Steps 1 to 5 of R182, for odd `p >= 3`. -/
def modSqrt (a p : Nat) : SqrtEnding :=
  if a % p = 1 then .roots 1 (p - 1)
  else if jacobi (a % p) p = -1 then .nonResidue
  else
    match isqrtAlg (a % p) with
    | some r => .roots r ((p - r) % p)
    | none => tonelli (a % p) p

end Sys2Proof.Machine
end

