-- ==== Sys2Proof/Machine/Flags.lean ====
section
/-! DEFINITION. The scalar results and the words software reads them in: RESULT (R33), ITER (R34), ECODE (R230), STATUS
(R38), CTRL (R37), SIGN (R41), CAP (R36), and the interrupt line (R240). -/

namespace Sys2Proof.Machine

/-- `sext_32`: a signed integer as a 32-bit two's-complement word (R12, R28). -/
def sext32 (v : Int) : Word := BitVec.ofInt 32 v

/-- A count as ITER holds it, saturating at 0xFFFFFFFF (R34, R205). -/
def saturate32 (n : Nat) : Word := BitVec.ofNat 32 (min n 0xFFFFFFFF)

/-- The 3-bit code of an error (R230). -/
def ErrorCode.bits : ErrorCode → BitVec 3
  | .ok => 0#3
  | .smallKey => 1#3
  | .incorrectAlgorithm => 2#3
  | .messageNotFound => 3#3
  | .mathError => 4#3
  | .illegalCmd => 5#3
  | .operandRange => 6#3
  | .aborted => 7#3

/-- `STATUS.ERR`: 1 iff ECODE is not 0 (R38, R230). -/
def State.err (s : State) : Bool := s.ecode.bits != 0#3

/-- A flag at bit position `k` of a 32-bit word. -/
def flagAt (b : Bool) (k : Nat) : Word := (BitVec.ofBool b).setWidth 32 <<< k

/-- `STATUS` as it reads (R38): BUSY 0, DONE 1, ERR 2, FOUND 3, ECODE 6:4, BUSYWR 7, reserved 31:8. -/
def State.statusWord (s : State) : Word :=
  flagAt s.busy 0 ||| flagAt s.done 1 ||| flagAt s.err 2 ||| flagAt s.found 3 ||| s.ecode.bits.setWidth 32 <<< 4 |||
    flagAt s.busywr 7

/-- `CTRL` as it reads: IE in bit 0, ABORT always 0 (R37). -/
def State.ctrlWord (s : State) : Word := flagAt s.ie 0

/-- `CAP` as it reads: NWORD in 7:0, NREG in 11:8 (R36). -/
def State.capWord (s : State) : Word :=
  (BitVec.ofNat 8 s.nword).setWidth 32 ||| (BitVec.ofNat 4 Config.nreg).setWidth 32 <<< 8

/-- `SIGN` as it reads in an idle state: bit `i` is the sign of `wi`, reserved 31:8 (R41). -/
def State.signWord (s : State) : Word :=
  flagAt (s.wide[0]).sign 0 ||| flagAt (s.wide[1]).sign 1 ||| flagAt (s.wide[2]).sign 2 ||| flagAt (s.wide[3]).sign 3 |||
    flagAt (s.wide[4]).sign 4 ||| flagAt (s.wide[5]).sign 5 ||| flagAt (s.wide[6]).sign 6 ||| flagAt (s.wide[7]).sign 7

/-- The interrupt line, a level: `irq = CTRL.IE and STATUS.DONE` (R240). -/
def State.irq (s : State) : Bool := s.ie && s.done

end Sys2Proof.Machine
end

