-- ==== Sys2Proof/Machine/Operands.lean ====
section
/-! DEFINITION. The operands of a command: wide registers and parameter registers as they were at acceptance (R24, R50,
R231). The command format has no other operand form (R92). -/

namespace Sys2Proof.Machine

/-- What the command in execution latched at its acceptance (R50); in an idle state what an acceptance would latch now
(R231), so that a meaning applied to an idle state is the command's whole life (log entry 6). -/
def State.latched (s : State) : Latch :=
  match s.running with
  | some l => l
  | none => s.latchOf 0#32

/-- A source operand: the value at acceptance of the register a field names (R12, R24). -/
def State.src (s : State) (r : Reg) : Int := ((s.latched).wide[r]).value

/-- `BITLEN` at acceptance (R42). -/
def State.srcBitlen (s : State) : Nat := s.latched.bitlen.toNat

/-- `PERSIST` at acceptance (R43). -/
def State.srcPersist (s : State) : Nat := s.latched.persist.toNat

/-- `FILT_MOD` at acceptance (R44). -/
def State.srcFiltMod (s : State) : Nat := s.latched.filtMod.toNat

/-- `FILT_RES` at acceptance (R44). -/
def State.srcFiltRes (s : State) : Nat := s.latched.filtRes.toNat

end Sys2Proof.Machine
end

