-- ==== Sys2Proof/Machine/Modular.lean ====
section
/-! DEFINITION. Modular exponentiation (R122), extended Euclid and the modular inverse (R132, R136), signed reduction
(R146) and Montgomery arithmetic (R150, R153). In each meaning the checks stand in the order of R234. -/

namespace Sys2Proof.Machine

/-- `powmod` (R122). -/
def execPowmod (rd ra rb rm : Reg) (s : State) : Host.Outcome State Fault Refusal :=
  .next (
    if s.src ra < 0 ∨ s.src rb < 0 ∨ s.src rm < 0 then s.raise .operandRange
    else if s.src rm = 0 then s.raise .mathError
    else s.complete [(rd, powMod (s.src ra).toNat (s.src rb).toNat (s.src rm).toNat)] false 0#32 0#32)

/-- `xgcd` (R132); two equal destinations are illegal (R103). -/
def execXgcd (rd rd2 rd3 ra rb : Reg) (s : State) : Host.Outcome State Fault Refusal :=
  .next (
    if rd = rd2 ∨ rd = rd3 ∨ rd2 = rd3 then s.raise .illegalCmd
    else if s.src ra < 0 ∨ s.src rb < 0 then s.raise .operandRange
    else
      let x := xgcdAlg (s.src ra).toNat (s.src rb).toNat
      s.complete [(rd, x.g), (rd2, x.u), (rd3, x.v)] false 0#32 (BitVec.ofNat 32 x.steps))

/-- `modinv` (R136). -/
def execModinv (rd ra rm : Reg) (s : State) : Host.Outcome State Fault Refusal :=
  .next (
    if s.src ra < 0 ∨ s.src rm < 0 then s.raise .operandRange
    else if s.src rm = 0 then s.raise .mathError
    else
      let x := xgcdAlg (s.src ra).toNat (s.src rm).toNat
      if x.g ≠ 1 then s.raise .mathError
      else s.complete [(rd, x.u % s.src rm)] false 0#32 (BitVec.ofNat 32 x.steps))

/-- `modred` (R146): `RA` is the one signed source position. -/
def execModred (rd ra rm : Reg) (s : State) : Host.Outcome State Fault Refusal :=
  .next (
    if s.src rm < 0 then s.raise .operandRange
    else if s.src rm = 0 then s.raise .mathError
    else s.complete [(rd, s.src ra % s.src rm)] false 0#32 0#32)

/-- `montmul` (R150). -/
def execMontmul (rd ra rb rm : Reg) (s : State) : Host.Outcome State Fault Refusal :=
  .next (
    if s.src ra < 0 ∨ s.src rb < 0 ∨ s.src rm < 0 then s.raise .operandRange
    else if s.src rm = 0 then s.raise .mathError
    else if s.src rm % 2 = 0 then s.raise .mathError
    else s.complete [(rd, montMul s.width (s.src ra).toNat (s.src rb).toNat (s.src rm).toNat)] false 0#32 0#32)

/-- `montin` (R153). -/
def execMontin (rd ra rm : Reg) (s : State) : Host.Outcome State Fault Refusal :=
  .next (
    if s.src ra < 0 ∨ s.src rm < 0 then s.raise .operandRange
    else if s.src rm = 0 then s.raise .mathError
    else if s.src rm % 2 = 0 then s.raise .mathError
    else s.complete [(rd, s.src ra * 2 ^ s.width % s.src rm)] false 0#32 0#32)

end Sys2Proof.Machine
end

