-- ==== Sys2Proof/Machine/Random.lean ====
section
/-! DEFINITION. What the prime commands draw from the random source: DrawBits (R81), the Miller-Rabin procedure (R197)
and the candidate loop of GENPRIME (R205). The words are a list, those supplied so far; the answer is `none` where the
list ends before the procedure does, and otherwise carries the words left over. -/

namespace Sys2Proof.Machine

/-- `ceil(k / 32)`, the words one `DrawBits(k)` takes (R81). -/
def drawWords (k : Nat) : Nat := (k + 31) / 32

/-- `DrawBits(k)` (R81): whole words, least significant first, and then the low `k` bits. -/
def drawBits (k : Nat) (ws : List Word) : Option (Nat × List Word) :=
  if ws.length < drawWords k then none
  else some (natOfWords (ws.take (drawWords k)) % 2 ^ k, ws.drop (drawWords k))

/-- The squarings of one round of R197: does one of the next `n` squares of `x` equal `m - 1`? -/
def squaresReach (m : Nat) : Nat → Nat → Bool
  | 0, _ => false
  | n + 1, x => if x * x % m = m - 1 then true else squaresReach m n (x * x % m)

/-- Whether base `a` passes a round of R197 for `m`, with `m - 1 = 2^s * d`. -/
def basePasses (m s d a : Nat) : Bool :=
  if powMod a d m = 1 ∨ powMod a d m = m - 1 then true else squaresReach m (s - 1) (powMod a d m)

/-- The base a drawn number gives: in `[2, m-2]` (R197). -/
def baseOfDraw (m draw : Nat) : Nat := 2 + draw % (m - 3)

/-- The rounds of R197 for odd `m >= 5`, stopping at the first witness. -/
def mrRounds (m s d : Nat) : Nat → List Word → Option (Bool × List Word)
  | 0, ws => some (true, ws)
  | rounds + 1, ws =>
    match drawBits (32 * drawWords (bitlen m)) ws with
    | none => none
    | some (draw, rest) => if basePasses m s d (baseOfDraw m draw) then mrRounds m s d rounds rest else some (false, rest)

/-- `MR(n, rounds)` (R197). -/
def millerRabin (n rounds : Nat) (ws : List Word) : Option (Bool × List Word) :=
  if n < 2 then some (false, ws)
  else if n = 2 ∨ n = 3 then some (true, ws)
  else if n % 2 = 0 then some (false, ws)
  else mrRounds n (splitTwos (n - 1) (n - 1)).1 (splitTwos (n - 1) (n - 1)).2 rounds ws

/-- A drawn number made a candidate of exactly `len` bits, odd (R205). -/
def candidateOfDraw (len draw : Nat) : Nat := draw ||| 2 ^ (len - 1) ||| 1

/-- A prime the sampler found: its value, how many candidates it took, the words left over. -/
structure Sampled where
  prime : Nat
  attempts : Nat
  rest : List Word
deriving DecidableEq, Repr

/-- Whether the congruence filter rejects a candidate: `c mod k` is not `r` (R205). -/
def filterRejects : Option (Nat × Nat) → Nat → Bool
  | none, _ => false
  | some (k, r), c => c % k != r

/-- The candidate loop of R205 after `attempts` candidates; `filter` is `(k, r)` where F = 1. Every candidate takes at
least one word, so fuel above the number of words never runs out. -/
def samplePrime (len rounds : Nat) (filter : Option (Nat × Nat)) : Nat → Nat → List Word → Option Sampled
  | 0, _, _ => none
  | fuel + 1, attempts, ws =>
    match drawBits len ws with
    | none => none
    | some (draw, rest) =>
      let c := candidateOfDraw len draw
      if filterRejects filter c then
        samplePrime len rounds filter fuel (attempts + 1) rest
      else
        match millerRabin c rounds rest with
        | none => none
        | some (true, rest') => some ⟨c, attempts + 1, rest'⟩
        | some (false, rest') => samplePrime len rounds filter fuel (attempts + 1) rest'

end Sys2Proof.Machine
end

