-- ==== Sys2Proof/Machine/Prime.lean ====
section
/-! DEFINITION. The primality test (R198) and the prime sampler (R205). The random words a command needs are consumed in
its completion step (R232); where the words supplied so far do not suffice, the command stays in execution (R83, R206). -/

namespace Sys2Proof.Machine

/-- `isprime` (R198). -/
def execIsprime (ra : Reg) (s : State) : Host.Outcome State Fault Refusal :=
  .next (
    if s.src ra < 0 then s.raise .operandRange
    else
      match millerRabin (s.src ra).toNat s.srcPersist s.rng with
      | some (verdict, rest) => (s.consumeTo rest).complete [] verdict 0#32 0#32
      | none => s.hold (encode (.isprime ra)))

/-- The filter GENPRIME applies: `(FILT_MOD, FILT_RES)` where F = 1 (R204). -/
def State.filter (s : State) (f : Bool) : Option (Nat × Nat) :=
  if f then some (s.srcFiltMod, s.srcFiltRes) else none

/-- A filter GENPRIME refuses: not `k >= 2`, `r < k` and `gcd(r, k) = 1` (R204). -/
def badFilter : Option (Nat × Nat) → Bool
  | none => false
  | some (k, r) => decide (k < 2 ∨ k ≤ r ∨ Nat.gcd r k ≠ 1)

/-- `genprime` and, with `f`, `genprime.f` (R205). -/
def execGenprime (rd : Reg) (f : Bool) (s : State) : Host.Outcome State Fault Refusal :=
  .next (
    if s.srcBitlen < 2 ∨ s.width < s.srcBitlen then s.raise .operandRange
    else if badFilter (s.filter f) then s.raise .operandRange
    else
      match samplePrime s.srcBitlen s.srcPersist (s.filter f) (s.rng.length + 1) 0 s.rng with
      | some x => (s.consumeTo x.rest).complete [(rd, x.prime)] false 0#32 (saturate32 x.attempts)
      | none => s.hold (encode (.genprime rd f)))

end Sys2Proof.Machine
end

