-- ==== Sys2Proof/Machine/Roots.lean ====
section
/-! DEFINITION. Jacobi symbol (R166), exact integer square root (R172), square root modulo an odd prime (R182). -/

namespace Sys2Proof.Machine

/-- `jacobi` (R166): the result goes to RESULT, no wide register is written. -/
def execJacobi (ra rm : Reg) (s : State) : Host.Outcome State Fault Refusal :=
  .next (
    if s.src ra < 0 ∨ s.src rm < 0 then s.raise .operandRange
    else if s.src rm = 0 then s.raise .mathError
    else if s.src rm % 2 = 0 then s.raise .mathError
    else s.complete [] false (sext32 (jacobi (s.src ra).toNat (s.src rm).toNat)) 0#32)

/-- `isqrt` (R172): a non-square is no error and leaves the destination. -/
def execIsqrt (rd ra : Reg) (s : State) : Host.Outcome State Fault Refusal :=
  .next (
    if s.src ra < 0 then s.raise .operandRange
    else
      match isqrtAlg (s.src ra).toNat with
      | some r => s.complete [(rd, r)] true 0#32 0#32
      | none => s.complete [] false 0#32 0#32)

/-- `modsqrt` (R182); two equal destinations are illegal (R103). -/
def execModsqrt (rd rd2 ra rm : Reg) (s : State) : Host.Outcome State Fault Refusal :=
  .next (
    if rd = rd2 then s.raise .illegalCmd
    else if s.src ra < 0 ∨ s.src rm < 0 then s.raise .operandRange
    else if s.src rm = 0 then s.raise .mathError
    else if s.src rm % 2 = 0 then s.raise .mathError
    else if s.src rm = 1 then s.raise .mathError
    else
      match modSqrt (s.src ra).toNat (s.src rm).toNat with
      | .nonResidue => s.complete [] false 0#32 0#32
      | .mathError => s.raise .mathError
      | .roots r1 r2 => s.complete [(rd, r1), (rd2, r2)] true 0#32 0#32)

end Sys2Proof.Machine
end

