-- ==== Sys2Proof/Machine/System.lean ====
section
/-! DEFINITION. NOP (R220). -/

namespace Sys2Proof.Machine

/-- `nop` (R220). -/
def execNop (s : State) : Host.Outcome State Fault Refusal := .next (s.complete [] false 0#32 0#32)

end Sys2Proof.Machine
end

