-- ==== Sys2Proof/Machine/Dispatch.lean ====
section
/-! DEFINITION. One arm per command: its meaning applied to the state. A meaning is the completion step of the command in
execution (R232, R233); applied to an idle state it is acceptance and completion in one (log entry 6). -/

namespace Sys2Proof.Machine

def exec (i : Instr) (s : State) : Host.Outcome State Fault Refusal :=
  match i with
  | .nop => Sys2Proof.Machine.execNop s
  | .powmod rd ra rb rm => Sys2Proof.Machine.execPowmod rd ra rb rm s
  | .xgcd rd rd2 rd3 ra rb => Sys2Proof.Machine.execXgcd rd rd2 rd3 ra rb s
  | .modinv rd ra rm => Sys2Proof.Machine.execModinv rd ra rm s
  | .modred rd ra rm => Sys2Proof.Machine.execModred rd ra rm s
  | .montmul rd ra rb rm => Sys2Proof.Machine.execMontmul rd ra rb rm s
  | .montin rd ra rm => Sys2Proof.Machine.execMontin rd ra rm s
  | .jacobi ra rm => Sys2Proof.Machine.execJacobi ra rm s
  | .isqrt rd ra => Sys2Proof.Machine.execIsqrt rd ra s
  | .modsqrt rd rd2 ra rm => Sys2Proof.Machine.execModsqrt rd rd2 ra rm s
  | .isprime ra => Sys2Proof.Machine.execIsprime ra s
  | .genprime rd f => Sys2Proof.Machine.execGenprime rd f s

end Sys2Proof.Machine
end

