-- ==== Sys2Proof/Machine/Port.lean ====
section
/-! DEFINITION. The host port (R60 to R66): the address map, reads, and writes with their access codes (R35 to R45) and
the busy rules (R270, R271). -/

namespace Sys2Proof.Machine

/-- What stands at a word index of the register space (R64). -/
inductive PortWord where
  | id
  | cap
  | ctrl
  | status
  | cmd
  | result
  | iter
  | sign
  | bitlen
  | persist
  | filtMod
  | filtRes
  /-- Reads 0, ignores writes (R65). -/
  | reserved
  /-- Word `j` of the magnitude of wide register `r` (R66). -/
  | mag (r : Reg) (j : Nat)
deriving DecidableEq, Repr

/-- The CSRs, at the byte offsets 0x000 to 0x02C (R64). -/
def csrAt : Nat → PortWord
  | 0 => .id
  | 1 => .cap
  | 2 => .ctrl
  | 3 => .status
  | 4 => .cmd
  | 5 => .result
  | 6 => .iter
  | 7 => .sign
  | 8 => .bitlen
  | 9 => .persist
  | 10 => .filtMod
  | 11 => .filtRes
  | _ => .reserved

/-- The address map (R64): from word index 0x400 (byte offset 0x1000) on, slots of 128 words (0x200 bytes), one per wide
register, of which the first `nword` are implemented. -/
def portWord (nword : Nat) (a : PortIndex) : PortWord :=
  if a.toNat < 0x400 then csrAt a.toNat
  else if a.toNat % 128 < nword then .mag (Fin.ofNat 8 ((a.toNat - 0x400) / 128)) (a.toNat % 128)
  else .reserved

/-- Writes to the word are dropped while a command runs (R64, R270). -/
def PortWord.isProtected : PortWord → Bool
  | .cmd | .sign | .bitlen | .persist | .filtMod | .filtRes | .mag _ _ => true
  | .id | .cap | .ctrl | .status | .result | .iter | .reserved => false

/-- A read of the word while a command runs is unspecified (R271). -/
def PortWord.readsFreeWhileBusy : PortWord → Bool
  | .sign | .mag _ _ => true
  | .id | .cap | .ctrl | .status | .cmd | .result | .iter | .bitlen | .persist | .filtMod | .filtRes | .reserved => false

/-- The bits of the word that can read as 1 while a command runs and the value is unspecified: reserved bits still read
0 (R271). -/
def PortWord.freeBits : PortWord → Word
  | .sign => 0x000000FF#32
  | .mag _ _ => 0xFFFFFFFF#32
  | .id | .cap | .ctrl | .status | .cmd | .result | .iter | .bitlen | .persist | .filtMod | .filtRes | .reserved => 0#32

/-- The defined value of a word of the register space (R35 to R45, R62, R65, R66). -/
def State.wordAt (s : State) : PortWord → Word
  | .id => Config.idWord
  | .cap => s.capWord
  | .ctrl => s.ctrlWord
  | .status => s.statusWord
  | .cmd => 0#32
  | .result => s.result
  | .iter => s.iter
  | .sign => s.signWord
  | .bitlen => s.bitlen
  | .persist => s.persist
  | .filtMod => s.filtMod
  | .filtRes => s.filtRes
  | .reserved => 0#32
  | .mag r j => (s.wide[r]).words.getD j 0#32

/-- `MemRead` (R62): the word the host reads at an index; unspecified for a wide register or SIGN while busy (R271). -/
def State.portRead (s : State) (a : PortIndex) : Word :=
  let p := portWord s.nword a
  if s.busy && p.readsFreeWhileBusy then Config.busyRead s.fresh &&& p.freeBits else s.wordAt p

/-- The read as a step: the word goes to the host; a read that took a free value moves on to the next (R271: two reads
need not agree). Nothing of the NTK changes (R62). -/
def State.hostRead (s : State) (a : PortIndex) : State :=
  { s with
    reply := some (s.portRead a)
    fresh := if s.busy && (portWord s.nword a).readsFreeWhileBusy then s.fresh + 1 else s.fresh }

/-- All eight sign bits written at once (R41). -/
def setSigns (wide : Vector Wide 8) (v : Word) : Vector Wide 8 :=
  wide.mapIdx fun i w => { w with sign := v.getLsbD i }

/-- Word `j` of a magnitude written, the others kept (R66). -/
def Wide.setWord (w : Wide) (j : Nat) (v : Word) : Wide := { w with words := w.words.set j v }

/-- A write to `CTRL` (R37): bit 0 goes to IE; bit 1 requests an abort of the running command, and does nothing where
none runs (R243). -/
def State.writeCtrl (s : State) (v : Word) : State :=
  { s with
    ie := v.getLsbD 0
    running := s.running.map fun l => { l with abortReq := l.abortReq || v.getLsbD 1 } }

/-- A write to `STATUS` (R38): 1 in bit 1 clears DONE, 1 in bit 7 clears BUSYWR. -/
def State.writeStatus (s : State) (v : Word) : State :=
  { s with done := s.done && !v.getLsbD 1, busywr := s.busywr && !v.getLsbD 7 }

/-- A write that is performed, by the word's access code (R63). -/
def State.writeWord (s : State) (v : Word) : PortWord → State
  | .id => s
  | .cap => s
  | .ctrl => s.writeCtrl v
  | .status => s.writeStatus v
  | .cmd => s.accept v
  | .result => s
  | .iter => s
  | .sign => { s with wide := setSigns s.wide v }
  | .bitlen => { s with bitlen := v }
  | .persist => { s with persist := v }
  | .filtMod => { s with filtMod := v }
  | .filtRes => { s with filtRes := v }
  | .reserved => s
  | .mag r j => { s with wide := s.wide.set r ((s.wide[r]).setWord j v) }

/-- `MemWrite` (R63): a write to a protected word while a command runs is dropped and sets BUSYWR (R270). -/
def State.hostWrite (s : State) (a : PortIndex) (v : Word) : State :=
  if s.busy && (portWord s.nword a).isProtected then { s with busywr := true }
  else s.writeWord v (portWord s.nword a)

end Sys2Proof.Machine
end

