-- ==== Sys2Proof/Machine/Sequencer.lean ====
section
/-! DEFINITION. The sequencer's moves: completing the command in execution (R96, R232, R233), acting on an abort request
(R243), and being reset (R260). -/

namespace Sys2Proof.Machine

/-- The command in execution run to its own completion: its word decoded (R96), an illegal word ended with ILLEGAL_CMD
(R104), a command given its meaning. An idle sequencer does nothing. -/
def State.runLatched (s : State) : Host.Outcome State Fault Refusal :=
  match s.running with
  | none => .next s
  | some l =>
    match decode l.cmd with
    | .error _ => .next (s.raise .illegalCmd)
    | .ok i => exec i s

/-- The random words, of those supplied, that the command in execution would consume: all of them where they do not
suffice for it to complete (R243, A5). -/
def State.drawsAhead (s : State) : Nat :=
  match s.runLatched with
  | .next t => if t.busy then s.rng.length else s.rng.length - t.rng.length
  | .fault _ => 0
  | .refused _ => 0

/-- An unspecified number of the words the command in execution would consume are gone (R243, R260; log entry 9). -/
def State.dropDraws (s : State) : State :=
  { s.consumeTo (s.rng.drop (min (Config.abortDraws s.fresh) s.drawsAhead)) with fresh := s.fresh + 1 }

/-- The command in execution ends with ABORTED (R243, way b). -/
def State.abortNow (s : State) : State := s.dropDraws.raise .aborted

/-- The sequencer acts on an abort request; without one ABORTED never occurs (R234). -/
def State.abortTurn (s : State) : State :=
  match s.running with
  | some l => if l.abortReq then s.abortNow else s
  | none => s

/-- The sequencer's turn: the command's own completion; where it has none yet and an abort is requested, ABORTED, since
the command then ends in finite time (R243; log entry 8). -/
def State.completeTurn (s : State) : Host.Outcome State Fault Refusal :=
  match s.runLatched with
  | .next t => if s.latched.abortReq && t.busy then .next s.abortNow else .next t
  | .fault r => .fault r
  | .refused r => .refused r

/-- Reset (R260): every register at its reset value, wide registers unspecified anew, a command in execution discarded;
the words it has consumed stay consumed, and the agenda, the host's last reply and the random source are not the NTK's to
reset. -/
def State.platformReset (s : State) : State :=
  { State.powerOn s.nword s.dropDraws.fresh with
    agenda := s.agenda, reply := s.reply, rng := s.dropDraws.rng, drawn := s.dropDraws.drawn }

/-- One event of the agenda (R71). -/
def State.handle (s : State) : Event → Host.Outcome State Fault Refusal
  | .read a => .next (s.hostRead a)
  | .write a v => .next (s.hostWrite a v)
  | .complete => s.completeTurn
  | .abort => .next s.abortTurn
  | .supply w => .next { s with rng := s.rng ++ [w] }
  | .reset => .next s.platformReset

end Sys2Proof.Machine
end

