-- ==== Sys2Proof/Machine/Step.lean ====
section
/-! DEFINITION. One step: the next event of the agenda, or, when nothing is on it, the sequencer's turn (R71, R280). And
how a command word comes to run. -/

namespace Sys2Proof.Machine

/-- One atomic step (R71). -/
def step (s : State) : Host.Outcome State Fault Refusal :=
  match s.agenda with
  | [] => s.completeTurn
  | e :: rest => State.handle { s with agenda := rest } e

/-- The state in which the command word has just been accepted (R231) and nothing else is on the agenda, so that the next
step runs it. The NTK fetches nothing (R30): this stands for the host's write to CMD (log entry 11). -/
def State.withFetchWord (s : State) (nbits w : Nat) : State :=
  { s.accept (BitVec.ofNat 32 (w % 2 ^ nbits)) with agenda := [] }

end Sys2Proof.Machine
end

