-- ==== Sys2Proof/Safety.lean ====
section
/-! DEFINITION. The terms claims use: the invariant of the machine, what a command that completed or failed leaves behind
and what it leaves unchanged. -/

namespace Sys2Proof.Machine

/-- What holds at reset and after every step, whatever the agents do. -/
structure State.Inv (s : State) : Prop where
  /-- `64 <= W <= 4096` and `W` is a multiple of 32 (R7). -/
  width : 2 ≤ s.nword ∧ s.nword ≤ 128
  /-- Every magnitude has `W` bits (R21). -/
  words : ∀ r : Reg, (s.wide[r]).words.length = s.nword
  /-- The latched sources and parameters are still those of the registers: writes to them are dropped while a command
  runs (R70, R270). -/
  latch : ∀ l, s.running = some l →
    l.wide = s.wide ∧ l.bitlen = s.bitlen ∧ l.persist = s.persist ∧ l.filtMod = s.filtMod ∧ l.filtRes = s.filtRes
  /-- While a command runs DONE, ECODE, FOUND, RESULT and ITER are 0 (R38, R231, R271). -/
  clear : s.busy = true →
    s.done = false ∧ s.ecode = .ok ∧ s.found = false ∧ s.result = 0#32 ∧ s.iter = 0#32
  /-- The codes 1 to 3 are never raised (R230). -/
  codes : s.ecode ≠ .smallKey ∧ s.ecode ≠ .incorrectAlgorithm ∧ s.ecode ≠ .messageNotFound
  /-- After an error FOUND, RESULT and ITER are 0 (R233). -/
  error : s.ecode ≠ .ok → s.found = false ∧ s.result = 0#32 ∧ s.iter = 0#32
  /-- RESULT is a Jacobi symbol (R33). -/
  symbol : s.result = 0#32 ∨ s.result = 1#32 ∨ s.result = 0xFFFFFFFF#32

/-- What no command writes: the width, CTRL, BUSYWR, the parameter registers (R231, R232), and what belongs to the other
agents. -/
structure SameSettings (s t : State) : Prop where
  nword : t.nword = s.nword
  ie : t.ie = s.ie
  busywr : t.busywr = s.busywr
  bitlen : t.bitlen = s.bitlen
  persist : t.persist = s.persist
  filtMod : t.filtMod = s.filtMod
  filtRes : t.filtRes = s.filtRes
  agenda : t.agenda = s.agenda
  reply : t.reply = s.reply
  fresh : t.fresh = s.fresh

/-- No random word was consumed (R82). -/
structure NoDraws (s t : State) : Prop where
  rng : t.rng = s.rng
  drawn : t.drawn = s.drawn

/-- The random words down to `rest` were consumed, in order, and counted (R80). -/
structure Drew (s t : State) (rest : List Word) : Prop where
  suffix : rest <:+ s.rng
  rng : t.rng = rest
  drawn : t.drawn = s.drawn + (s.rng.length - rest.length)

/-- `t` is `s` after a completion without error (R232): each register of `writes` holds its value, and not as negative
zero (R22); every other wide register, the settings and the environment are unchanged. -/
structure Completed (s t : State) (writes : List (Reg × Int)) (found : Bool) (result iter : Word) : Prop where
  written : ∀ p ∈ writes, t.reg p.1 = p.2
  positiveZero : ∀ p ∈ writes, p.2 = 0 → (t.wide[p.1]).sign = false
  others : ∀ r : Reg, r ∉ writes.map Prod.fst → t.wide[r] = s.wide[r]
  found : t.found = found
  result : t.result = result
  iter : t.iter = iter
  ecode : t.ecode = .ok
  done : t.done = true
  idle : t.running = none
  settings : SameSettings s t

/-- `t` is `s` after a completion with the error `e` (R233): no wide register is written and no word is consumed. -/
structure Failed (s t : State) (e : ErrorCode) : Prop where
  wide : t.wide = s.wide
  ecode : t.ecode = e
  found : t.found = false
  result : t.result = 0#32
  iter : t.iter = 0#32
  done : t.done = true
  idle : t.running = none
  settings : SameSettings s t
  draws : NoDraws s t

/-- The word index of word `j` of the magnitude of `wi`: byte offset `0x1000 + 0x200*i + 4*j` over 4 (R64, R66). -/
def magIndex (i : Reg) (j : Nat) : PortIndex := BitVec.ofNat 11 (0x400 + 0x80 * i.val + j)

/-- The two commands that take random words (R82). -/
def drawsWords : Instr → Bool
  | .isprime _ | .genprime _ _ => true
  | .nop | .powmod _ _ _ _ | .xgcd _ _ _ _ _ | .modinv _ _ _ | .modred _ _ _ | .montmul _ _ _ _ | .montin _ _ _
  | .jacobi _ _ | .isqrt _ _ | .modsqrt _ _ _ _ => false

/-- The sources a command takes in an unsigned position (R121 item 2, R235): all of them but `RA` of MODRED. -/
def unsignedSources : Instr → List Reg
  | .nop => []
  | .powmod _ ra rb rm => [ra, rb, rm]
  | .xgcd _ _ _ ra rb => [ra, rb]
  | .modinv _ ra rm => [ra, rm]
  | .modred _ _ rm => [rm]
  | .montmul _ ra rb rm => [ra, rb, rm]
  | .montin _ ra rm => [ra, rm]
  | .jacobi ra rm => [ra, rm]
  | .isqrt _ ra => [ra]
  | .modsqrt _ _ ra rm => [ra, rm]
  | .isprime ra => [ra]
  | .genprime _ _ => []

/-- The mathematical preconditions of R235 that fail by the operands alone, so that the command ends with MATH_ERROR:
zero modulus, even modulus, modulus 1 for MODSQRT, no inverse for MODINV. -/
def failsMath (s : State) : Instr → Prop
  | .powmod _ _ _ rm | .modred _ _ rm => s.src rm = 0
  | .modinv _ ra rm => s.src rm = 0 ∨ Int.gcd (s.src ra) (s.src rm) ≠ 1
  | .montmul _ _ _ rm | .montin _ _ rm | .jacobi _ rm => s.src rm = 0 ∨ s.src rm % 2 = 0
  | .modsqrt _ _ _ rm => s.src rm = 0 ∨ s.src rm % 2 = 0 ∨ s.src rm = 1
  | .nop | .xgcd _ _ _ _ _ | .isqrt _ _ | .isprime _ | .genprime _ _ => False

/-- The parameters GENPRIME refuses (R203, R204): BITLEN outside `2 .. W`, or, with F = 1, a filter that is not
`k >= 2`, `r < k`, `gcd(r, k) = 1`. -/
def badParameters (s : State) (f : Bool) : Prop :=
  s.srcBitlen < 2 ∨ s.width < s.srcBitlen ∨
    (f = true ∧ (s.srcFiltMod < 2 ∨ s.srcFiltMod ≤ s.srcFiltRes ∨ Nat.gcd s.srcFiltRes s.srcFiltMod ≠ 1))

/-- `a` does not prove `n` composite (R197): with `n - 1 = 2^e * d` and `d` odd, `a^d` is 1, or one of the powers
`a^(2^r * d)` with `r < e` is -1, modulo `n`. -/
def StrongLiar (n a : Nat) : Prop :=
  ∃ e d, n - 1 = 2 ^ e * d ∧ d % 2 = 1 ∧ (a ^ d % n = 1 ∨ ∃ r < e, a ^ (2 ^ r * d) % n = n - 1)

/-- How many random words one base for `n` takes (R197). -/
def baseWords (n : Nat) : Nat := (bitlen n + 31) / 32

/-- The base of round `k` (counted from 0) that the words `ws` give for `n` (R197). -/
def roundBase (n : Nat) (ws : List Word) (k : Nat) : Nat :=
  2 + natOfWords ((ws.drop (k * baseWords n)).take (baseWords n)) % (n - 3)

/-- The words that read as an unspecified value while a command runs: SIGN and the implemented magnitude words (R271). -/
def readsFree (s : State) (a : PortIndex) : Prop :=
  s.busy = true ∧ (a = 7#11 ∨ (0x400 ≤ a.toNat ∧ a.toNat % 0x80 < s.nword))

/-- `n2` before each round of MODSQRT's correction loop (R182 step 5, R184, R185), `e` being `se`: it starts at 1, and a
round whose test fails multiplies it by a power of `n1`. -/
structure Corrects (p e a1 a2 n1 : Nat) (n2 : Nat → Nat) : Prop where
  start : n2 0 = 1
  round : ∀ i, i + 2 ≤ e → n2 (i + 1) =
    if (a2 * (a1 * n2 i) ^ 2) ^ 2 ^ (e - 2 - i) % p = 1 then n2 i else n2 i * n1 ^ 2 ^ i % p

/-- `r` is the root step 5 of R182 computes for the residue `a` modulo the odd `p`, with the quantities of R186:
`p - 1 = 2^e * q` with `q` odd, `n0` the least non-residue (R187), `a2` the inverse of `a`. -/
def StepFiveRoot (a p r : Nat) : Prop :=
  ∃ (e q n0 a2 : Nat) (n2 : Nat → Nat), p - 1 = 2 ^ e * q ∧ q % 2 = 1 ∧
    (2 ≤ n0 ∧ n0 < p ∧ jacobiSym n0 p = -1 ∧ ∀ c : Nat, 2 ≤ c → c < n0 → jacobiSym c p ≠ -1) ∧
    (a2 < p ∧ a * a2 % p = 1) ∧ Corrects p (max e 2) (a ^ ((q + 1) / 2) % p) a2 (n0 ^ q % p) n2 ∧
    r = a ^ ((q + 1) / 2) % p * n2 (max e 2 - 1) % p

/-- The random words `ws`, read as R205 reads them, make the candidate `c` the first one accepted, after `n` candidates,
and leave `rest`. It is the loop of R205 as a relation, with no bound on the attempts. -/
inductive SamplesPrime (len rounds : Nat) (filter : Option (Nat × Nat)) : List Word → Nat → Nat → List Word → Prop where
  /-- The candidate passes the filter and the test. -/
  | accept {ws w1 rest : List Word} {draw c : Nat} :
      drawBits len ws = some (draw, w1) → c = candidateOfDraw len draw → filterRejects filter c = false →
      millerRabin c rounds w1 = some (true, rest) → SamplesPrime len rounds filter ws 1 c rest
  /-- The filter rejects the candidate, before any test. -/
  | filtered {ws w1 rest : List Word} {draw n c : Nat} :
      drawBits len ws = some (draw, w1) → filterRejects filter (candidateOfDraw len draw) = true →
      SamplesPrime len rounds filter w1 n c rest → SamplesPrime len rounds filter ws (n + 1) c rest
  /-- The test calls the candidate composite. -/
  | composite {ws w1 w2 rest : List Word} {draw n c : Nat} :
      drawBits len ws = some (draw, w1) → filterRejects filter (candidateOfDraw len draw) = false →
      millerRabin (candidateOfDraw len draw) rounds w1 = some (false, w2) →
      SamplesPrime len rounds filter w2 n c rest → SamplesPrime len rounds filter ws (n + 1) c rest

end Sys2Proof.Machine
end

