-- ==== Sys2Proof/Certificates/Slice0/Obligations.lean ====
section
/-! DEFINITION. The statements for the provers, each from numbered rules of spec/. A result statement says that `exec`
answers a next state and what `Completed` (R232) says of it, for every state that meets the invariant and every operand
the rule admits. In a state with a command in execution the operands `s.src` are the latched ones; in an idle state
`exec` is acceptance and completion in one (log entry 6). -/

section

open Sys2Proof Sys2Proof.Machine

/-! ## Encoding -/

/-- R91 to R96, R107: the word of a command decodes to it, every operand at every value. -/
def Obligations.DecodeOfEncodeIsTheCommand : Prop :=
  ∀ i : Instr, decode (encode i) = .ok i

/-- R95, R107: a word that decodes is the word of the command it decodes to, so no bit of it is dropped. -/
def Obligations.EncodeOfDecodeIsTheWord : Prop :=
  ∀ (c : Word) (i : Instr), decode c = .ok i → encode i = c

/-- R92, R95: a word is a command exactly if it agrees with the row's match under the row's mask, and its operands are the
register fields at their bit positions; a word with a reserved opcode is refused as such. -/
def Obligations.RowsDecideTheCommand : Prop :=
  ∀ c : Word,
    (decode c = .ok .nop ↔ c &&& 0xFFFFFFFF#32 = 0x00000000#32) ∧
    (∀ rd ra rb rm : Reg, decode c = .ok (.powmod rd ra rb rm) ↔ c &&& 0xFFF000FF#32 = 0x00000001#32 ∧
      (c.extractLsb' 8 3).toNat = rd ∧ (c.extractLsb' 11 3).toNat = ra ∧ (c.extractLsb' 14 3).toNat = rb ∧
      (c.extractLsb' 17 3).toNat = rm) ∧
    (∀ rd rd2 rd3 ra rb : Reg, decode c = .ok (.xgcd rd rd2 rd3 ra rb) ↔ c &&& 0xFC0E00FF#32 = 0x00000002#32 ∧
      (c.extractLsb' 8 3).toNat = rd ∧ (c.extractLsb' 20 3).toNat = rd2 ∧ (c.extractLsb' 23 3).toNat = rd3 ∧
      (c.extractLsb' 11 3).toNat = ra ∧ (c.extractLsb' 14 3).toNat = rb) ∧
    (∀ rd ra rm : Reg, decode c = .ok (.modinv rd ra rm) ↔ c &&& 0xFFF1C0FF#32 = 0x00000003#32 ∧
      (c.extractLsb' 8 3).toNat = rd ∧ (c.extractLsb' 11 3).toNat = ra ∧ (c.extractLsb' 17 3).toNat = rm) ∧
    (∀ rd ra rm : Reg, decode c = .ok (.modred rd ra rm) ↔ c &&& 0xFFF1C0FF#32 = 0x00000004#32 ∧
      (c.extractLsb' 8 3).toNat = rd ∧ (c.extractLsb' 11 3).toNat = ra ∧ (c.extractLsb' 17 3).toNat = rm) ∧
    (∀ rd ra rb rm : Reg, decode c = .ok (.montmul rd ra rb rm) ↔ c &&& 0xFFF000FF#32 = 0x00000005#32 ∧
      (c.extractLsb' 8 3).toNat = rd ∧ (c.extractLsb' 11 3).toNat = ra ∧ (c.extractLsb' 14 3).toNat = rb ∧
      (c.extractLsb' 17 3).toNat = rm) ∧
    (∀ rd ra rm : Reg, decode c = .ok (.montin rd ra rm) ↔ c &&& 0xFFF1C0FF#32 = 0x00000006#32 ∧
      (c.extractLsb' 8 3).toNat = rd ∧ (c.extractLsb' 11 3).toNat = ra ∧ (c.extractLsb' 17 3).toNat = rm) ∧
    (∀ ra rm : Reg, decode c = .ok (.jacobi ra rm) ↔ c &&& 0xFFF1C7FF#32 = 0x00000007#32 ∧
      (c.extractLsb' 11 3).toNat = ra ∧ (c.extractLsb' 17 3).toNat = rm) ∧
    (∀ rd ra : Reg, decode c = .ok (.isqrt rd ra) ↔ c &&& 0xFFFFC0FF#32 = 0x00000008#32 ∧
      (c.extractLsb' 8 3).toNat = rd ∧ (c.extractLsb' 11 3).toNat = ra) ∧
    (∀ rd rd2 ra rm : Reg, decode c = .ok (.modsqrt rd rd2 ra rm) ↔ c &&& 0xFF81C0FF#32 = 0x00000009#32 ∧
      (c.extractLsb' 8 3).toNat = rd ∧ (c.extractLsb' 20 3).toNat = rd2 ∧ (c.extractLsb' 11 3).toNat = ra ∧
      (c.extractLsb' 17 3).toNat = rm) ∧
    (∀ ra : Reg, decode c = .ok (.isprime ra) ↔ c &&& 0xFFFFC7FF#32 = 0x0000000A#32 ∧
      (c.extractLsb' 11 3).toNat = ra) ∧
    (∀ (rd : Reg) (f : Bool), decode c = .ok (.genprime rd f) ↔ c &&& 0xFBFFF8FF#32 = 0x0000000B#32 ∧
      (c.extractLsb' 8 3).toNat = rd ∧ c.getLsbD 26 = f) ∧
    (decode c = .error .reservedOpcode ↔ 0x0B < (c.extractLsb' 0 8).toNat)

/-- The words the spec writes out beside its rules decode to the commands it writes beside them. -/
def Obligations.SpecWordsDecode : Prop :=
  decode 0x00000000#32 = .ok .nop ∧ decode 0x00044301#32 = .ok (.powmod 3 0 1 2) ∧
  decode 0x02304202#32 = .ok (.xgcd 2 3 4 0 1) ∧ decode 0x00020203#32 = .ok (.modinv 2 0 1) ∧
  decode 0x00021D04#32 = .ok (.modred 5 3 1) ∧ decode 0x00044305#32 = .ok (.montmul 3 0 1 2) ∧
  decode 0x00040406#32 = .ok (.montin 4 0 2) ∧ decode 0x00020007#32 = .ok (.jacobi 0 1) ∧
  decode 0x00000108#32 = .ok (.isqrt 1 0) ∧ decode 0x00320209#32 = .ok (.modsqrt 2 3 0 1) ∧
  decode 0x0000280A#32 = .ok (.isprime 5) ∧ decode 0x0400050B#32 = .ok (.genprime 5 true) ∧
  decode 0x0000000C#32 = .error .reservedOpcode ∧ decode 0x00000100#32 = .error .nonZeroUnusedField

/-- R96, R232: a step of the sequencer runs the command its latched word decodes to. The agenda and the abort request are
what the step adds: the event is taken off the agenda. That on an empty agenda a command that completes does so although
an abort is requested is the model's choice (log entry 8: R243 leaves it open), and so is the state of the last clause, in
which a word has just been accepted (log entry 11). -/
def Obligations.StepRunsTheDecodedCommand : Prop :=
  (∀ (s : State) (l : Latch) (i : Instr), s.running = some l → decode l.cmd = .ok i → l.abortReq = false →
    (s.agenda = [] → step s = exec i s) ∧
    ∀ rest, s.agenda = .complete :: rest → step s = exec i { s with agenda := rest }) ∧
  (∀ (s t : State) (l : Latch) (i : Instr), s.running = some l → decode l.cmd = .ok i → s.agenda = [] →
    exec i s = .next t → t.busy = false → step s = .next t) ∧
  (∀ (s : State) (w : Nat) (i : Instr), decode (BitVec.ofNat 32 w) = .ok i →
    step (s.withFetchWord 32 w) = exec i (s.withFetchWord 32 w))

/-- R104: an illegal word, duplicate destinations included, is accepted, and then completes with ILLEGAL_CMD (STATUS reads
code 5), no wide register written; a reserved opcode, a non-zero RSV, and F on any command but GENPRIME make a word illegal. -/
def Obligations.IllegalWordEndsWithIllegalCmd : Prop :=
  (∀ (s : State) (c : Word), s.busy = false →
    ((∃ e, decode c = .error e) ∨ ∃ i, decode c = .ok i ∧ i.wellFormed = false) →
    ∃ u t, step { s with agenda := [.write 4#11 c] } = .next u ∧ u.busy = true ∧ step u = .next t ∧
      Failed u t .illegalCmd ∧ (t.portRead 3#11).extractLsb' 4 3 = 5#3 ∧ t.err = true ∧ t.wide = s.wide) ∧
  (∀ c : Word, 0x0B < (c.extractLsb' 0 8).toNat ∨ c.extractLsb' 27 5 ≠ 0#5 ∨
      (c.getLsbD 26 = true ∧ c.extractLsb' 0 8 ≠ 0x0B#8) → ∃ e, decode c = .error e) ∧
  (∀ (c : Word) (e : DecodeError), decode c = .error e ↔
    (e = .reservedOpcode ∧ 0x0B < (c.extractLsb' 0 8).toNat) ∨
    (e = .nonZeroUnusedField ∧ (c.extractLsb' 0 8).toNat ≤ 0x0B ∧ ∀ i, encode i ≠ c))

/-- R103: which commands have duplicate destinations, and that they end with ILLEGAL_CMD and write nothing. -/
def Obligations.DuplicateDestinationsAreIllegal : Prop :=
  (∀ i : Instr, i.wellFormed = false ↔
    (∃ rd rd2 rd3 ra rb, i = .xgcd rd rd2 rd3 ra rb ∧ (rd = rd2 ∨ rd = rd3 ∨ rd2 = rd3)) ∨
    (∃ rd rd2 ra rm, i = .modsqrt rd rd2 ra rm ∧ rd = rd2)) ∧
  (∀ (i : Instr) (s : State), i.wellFormed = false → ∃ t, exec i s = .next t ∧ Failed s t .illegalCmd)

/-- R231: a write to CMD while idle latches the word, the operands and the parameters, clears the outcome of the last
command and changes nothing else; while busy it is dropped and sets BUSYWR (R270). That the latch holds all eight wide
registers, not the source registers alone, is the model's choice (log entry 7). -/
def Obligations.CmdWriteIsAcceptance : Prop :=
  ∀ (s : State) (c : Word) (rest : List Event), s.agenda = .write 4#11 c :: rest →
    (s.busy = false → ∃ t l, step s = .next t ∧ t.running = some l ∧ t.busy = true ∧ l.cmd = c ∧ l.wide = s.wide ∧
      l.bitlen = s.bitlen ∧ l.persist = s.persist ∧ l.filtMod = s.filtMod ∧ l.filtRes = s.filtRes ∧ l.abortReq = false ∧
      t.done = false ∧ t.ecode = .ok ∧ t.err = false ∧ t.found = false ∧ t.result = 0#32 ∧ t.iter = 0#32 ∧
      t.wide = s.wide ∧ SameSettings { s with agenda := rest } t ∧ NoDraws s t) ∧
    (s.busy = true → step s = .next { s with agenda := rest, busywr := true })

/-! ## The commands: what they compute -/

/-- R220: NOP completes, clears the results and changes nothing else; its word is 0 and no other. -/
def Obligations.NopOnlyClearsTheResults : Prop :=
  (∀ s : State, ∃ t, exec .nop s = .next t ∧ Completed s t [] false 0#32 0#32 ∧ NoDraws s t ∧ t.err = false ∧
    (s.busywr = false → t.statusWord = 0x00000002#32)) ∧
  (∀ c : Word, decode c = .ok .nop ↔ c = 0#32) ∧
  (∀ c : Word, c.extractLsb' 0 8 = 0#8 → c.extractLsb' 8 24 ≠ 0#24 → decode c = .error .nonZeroUnusedField)

/-- R122: POWMOD writes the power modulo the modulus. -/
def Obligations.PowmodWritesThePower : Prop :=
  ∀ (s : State) (rd ra rb rm : Reg), s.Inv → 0 ≤ s.src ra → 0 ≤ s.src rb → 0 < s.src rm →
    ∃ t, exec (.powmod rd ra rb rm) s = .next t ∧
      Completed s t [(rd, s.src ra ^ (s.src rb).toNat % s.src rm)] false 0#32 0#32 ∧ NoDraws s t

/-- R124: the result of POWMOD is in `[0, m)`, so with modulus 1 it is 0 for every base and exponent. -/
def Obligations.PowmodModulusOneGivesZero : Prop :=
  ∀ (s : State) (rd ra rb rm : Reg), s.Inv → 0 ≤ s.src ra → 0 ≤ s.src rb → 0 < s.src rm →
    ∃ t, exec (.powmod rd ra rb rm) s = .next t ∧ t.ecode = .ok ∧ 0 ≤ t.reg rd ∧ t.reg rd < s.src rm ∧
      (s.src rm = 1 → t.reg rd = 0)

/-- R131, R132: XGCD writes the greatest common divisor and the Bézout pair of `XGCD_ALG`, and ITER its step count. -/
def Obligations.XgcdWritesGcdAndBezoutPair : Prop :=
  ∀ (s : State) (rd rd2 rd3 ra rb : Reg) (x : Bezout), s.Inv → [rd, rd2, rd3].Nodup → 0 ≤ s.src ra → 0 ≤ s.src rb →
    x = xgcdAlg (s.src ra).toNat (s.src rb).toNat →
    ∃ t, exec (.xgcd rd rd2 rd3 ra rb) s = .next t ∧
      Completed s t [(rd, (x.g : Int)), (rd2, x.u), (rd3, x.v)] false 0#32 t.iter ∧ t.iter.toNat = x.steps ∧
      x.g = Int.gcd (s.src ra) (s.src rb) ∧ x.u * s.src ra + x.v * s.src rb = x.g ∧ NoDraws s t

/-- R131, R133. One round of R131 as an equation, which with the case `b = 0` determines the whole answer; then R133's
items 1 to 7, all of them inferences from R131 (the spec marks them so), and with item 6 the exchange of the coefficients. The loop's fuel is the model's (log entry 14): with more than it has the answer is the same. -/
def Obligations.XgcdAlgProperties : Prop :=
  ∀ a b : Nat,
    (0 < b → ∀ x, x = xgcdAlg b (a % b) → xgcdAlg a b = ⟨x.g, x.v, x.u - (a / b : Nat) * x.v, x.steps + 1⟩) ∧
    (xgcdAlg a b).g = Nat.gcd a b ∧ (xgcdAlg a b).u * a + (xgcdAlg a b).v * b = (xgcdAlg a b).g ∧
    (xgcdAlg a b).u.natAbs ≤ max (max a b) 1 ∧ (xgcdAlg a b).v.natAbs ≤ max (max a b) 1 ∧
    xgcdAlg a 0 = ⟨a, 1, 0, 0⟩ ∧
    (0 < b → xgcdAlg 0 b = ⟨b, 0, 1, 1⟩) ∧
    (0 < a → xgcdAlg a a = ⟨a, 0, 1, 1⟩) ∧
    (0 < a → a < b → (xgcdAlg a b).steps = (xgcdAlg b a).steps + 1 ∧ (xgcdAlg a b).u = (xgcdAlg b a).v ∧
      (xgcdAlg a b).v = (xgcdAlg b a).u) ∧
    (∀ fuel, b < fuel → xgcdLoop fuel a b 1 0 0 1 0 = xgcdAlg a b)

/-- R136: MODINV writes the inverse in `[0, m)`, and ITER the step count of `XGCD_ALG`. -/
def Obligations.ModinvWritesTheInverse : Prop :=
  ∀ (s : State) (rd ra rm : Reg), s.Inv → 0 ≤ s.src ra → 0 < s.src rm → Int.gcd (s.src ra) (s.src rm) = 1 →
    ∃ t x, exec (.modinv rd ra rm) s = .next t ∧ Completed s t [(rd, x)] false 0#32 t.iter ∧
      0 ≤ x ∧ x < s.src rm ∧ s.src ra * x ≡ 1 [ZMOD s.src rm] ∧
      t.iter.toNat = (xgcdAlg (s.src ra).toNat (s.src rm).toNat).steps ∧ NoDraws s t

/-- R137, an inference from R132, R136 and R146: MODINV and XGCD followed by the host's test of the gcd and MODRED agree.
Each command is run from its acceptance on, as exec at an idle state (the model's choice, log entry 6). -/
def Obligations.ModinvAgreesWithXgcdThenModred : Prop :=
  ∀ (s : State) (rd rg ru rv ra rm : Reg), s.Inv → s.running = none → [rg, ru, rv].Nodup → rm ∉ [rg, ru, rv] →
    0 ≤ s.reg ra → 0 < s.reg rm →
    ∃ t1 t2, exec (.xgcd rg ru rv ra rm) s = .next t1 ∧ exec (.modinv rd ra rm) s = .next t2 ∧
      (t1.reg rg = 1 → ∃ t3, exec (.modred rd ru rm) t1 = .next t3 ∧ t3.ecode = .ok ∧ t2.ecode = .ok ∧
        t3.reg rd = t2.reg rd) ∧
      (t1.reg rg ≠ 1 → Failed s t2 .mathError)

/-- R146: MODRED writes the remainder in `[0, m)` of a source of any sign, never as negative zero. -/
def Obligations.ModredWritesTheResidue : Prop :=
  ∀ (s : State) (rd ra rm : Reg), s.Inv → 0 < s.src rm →
    ∃ t, exec (.modred rd ra rm) s = .next t ∧ Completed s t [(rd, s.src ra % s.src rm)] false 0#32 0#32 ∧
      0 ≤ t.reg rd ∧ t.reg rd < s.src rm ∧ (t.wide[rd]).sign = false ∧ NoDraws s t

/-- R148, R150: MONTMUL writes the `r` in `[0, n)` with `r * 2^W` congruent to `x * y`, for odd `n`. -/
def Obligations.MontmulWritesTheMontgomeryProduct : Prop :=
  ∀ (s : State) (rd ra rb rm : Reg), s.Inv → 0 ≤ s.src ra → 0 ≤ s.src rb → 0 < s.src rm → s.src rm % 2 = 1 →
    ∃ t r, exec (.montmul rd ra rb rm) s = .next t ∧ Completed s t [(rd, r)] false 0#32 0#32 ∧
      0 ≤ r ∧ r < s.src rm ∧ r * 2 ^ s.width ≡ s.src ra * s.src rb [ZMOD s.src rm] ∧ NoDraws s t

/-- R153: MONTIN writes the Montgomery form, for an odd modulus. -/
def Obligations.MontinWritesTheMontgomeryForm : Prop :=
  ∀ (s : State) (rd ra rm : Reg), s.Inv → 0 ≤ s.src ra → 0 < s.src rm → s.src rm % 2 = 1 →
    ∃ t, exec (.montin rd ra rm) s = .next t ∧ Completed s t [(rd, s.src ra * 2 ^ s.width % s.src rm)] false 0#32 0#32 ∧
      NoDraws s t

/-- R148, R154: MONTIN and then MONTMUL is the plain modular product, and with a register that holds 1 the way out of
Montgomery form. Each command is run from its acceptance on, as exec at an idle state (the model's choice, log entry 6). -/
def Obligations.MontgomeryRoundTrip : Prop :=
  ∀ (s : State) (rd rt ra rb rm : Reg), s.Inv → s.running = none → rt ≠ rb → rt ≠ rm →
    0 ≤ s.reg ra → 0 ≤ s.reg rb → 0 < s.reg rm → s.reg rm % 2 = 1 →
    ∃ t1 t2, exec (.montin rt ra rm) s = .next t1 ∧ exec (.montmul rd rt rb rm) t1 = .next t2 ∧ t2.ecode = .ok ∧
      t2.reg rd = s.reg ra * s.reg rb % s.reg rm ∧ (s.reg rb = 1 → t2.reg rd = s.reg ra % s.reg rm)

/-- R13, R166: JACOBI reports the Jacobi symbol (Mathlib's `jacobiSym`) in RESULT and writes no wide register. -/
def Obligations.JacobiReportsTheSymbol : Prop :=
  ∀ (s : State) (ra rm : Reg) (n : Nat), 0 ≤ s.src ra → s.src rm = n → n % 2 = 1 →
    ∃ t, exec (.jacobi ra rm) s = .next t ∧ Completed s t [] false t.result 0#32 ∧ NoDraws s t ∧
      ((jacobiSym (s.src ra) n = 1 ∧ t.result = 0x00000001#32) ∨ (jacobiSym (s.src ra) n = 0 ∧ t.result = 0x00000000#32) ∨
        (jacobiSym (s.src ra) n = -1 ∧ t.result = 0xFFFFFFFF#32))

/-- R171, R172: ISQRT writes the root of a perfect square and sets FOUND; of a non-square it leaves the destination, and
no error is reported. -/
def Obligations.IsqrtOfSquaresAndNonSquares : Prop :=
  ∀ (s : State) (rd ra : Reg), s.Inv → 0 ≤ s.src ra →
    (∀ r : Nat, s.src ra = r * r →
      ∃ t, exec (.isqrt rd ra) s = .next t ∧ Completed s t [(rd, (r : Int))] true 0#32 0#32 ∧ NoDraws s t) ∧
    ((∀ r : Nat, s.src ra ≠ r * r) →
      ∃ t, exec (.isqrt rd ra) s = .next t ∧ Completed s t [] false 0#32 0#32 ∧ NoDraws s t)

/-- R182, its guarantee: modulo an odd prime MODSQRT writes both roots of a square, and of a non-square finds nothing. And
which root is the first: the integer root of a residue that is a perfect square, else the root of step 5, which modulo a
prime of the form `4k + 3` is `a^((p+1)/4)` (R183). -/
def Obligations.ModsqrtFindsRootsModuloAPrime : Prop :=
  ∀ (s : State) (rd rd2 ra rm : Reg) (a p : Nat), s.Inv → rd ≠ rd2 → s.src ra = a → s.src rm = p → p.Prime → p ≠ 2 →
    ((∃ x : Nat, x * x ≡ a [MOD p]) →
      ∃ (t : State) (r1 r2 : Nat), exec (.modsqrt rd rd2 ra rm) s = .next t ∧
        Completed s t [(rd, (r1 : Int)), (rd2, (r2 : Int))] true 0#32 0#32 ∧ NoDraws s t ∧
        r1 < p ∧ r2 = (p - r1) % p ∧ r1 * r1 ≡ a [MOD p] ∧ r2 * r2 ≡ a [MOD p] ∧
        (∀ r, r * r = a % p → r1 = r) ∧
        ((∀ r, r * r ≠ a % p) → StepFiveRoot (a % p) p r1 ∧ (p % 4 = 3 → r1 = a ^ ((p + 1) / 4) % p))) ∧
    ((¬∃ x : Nat, x * x ≡ a [MOD p]) →
      ∃ t, exec (.modsqrt rd rd2 ra rm) s = .next t ∧ Completed s t [] false 0#32 0#32 ∧ NoDraws s t)

/-- R182, R187, R188: what MODSQRT does modulo any odd number from 3 on, prime or not, step by step: steps 2 to 4, then
step 5, which ends with the root of R184 to R186 or, without a non-residue or without an inverse, with MATH_ERROR; modulo
a perfect square there is no non-residue. -/
def Obligations.ModsqrtFollowsItsSteps : Prop :=
  ∀ (s : State) (rd rd2 ra rm : Reg) (a p : Nat), s.Inv → rd ≠ rd2 → s.src ra = a → s.src rm = p → p % 2 = 1 → 3 ≤ p →
    (a % p = 1 → ∃ t, exec (.modsqrt rd rd2 ra rm) s = .next t ∧
      Completed s t [(rd, 1), (rd2, (p : Int) - 1)] true 0#32 0#32 ∧ NoDraws s t) ∧
    (a % p ≠ 1 → jacobiSym a p = -1 → ∃ t, exec (.modsqrt rd rd2 ra rm) s = .next t ∧
      Completed s t [] false 0#32 0#32 ∧ NoDraws s t) ∧
    (∀ r : Nat, a % p ≠ 1 → jacobiSym a p ≠ -1 → r * r = a % p → ∃ t, exec (.modsqrt rd rd2 ra rm) s = .next t ∧
      Completed s t [(rd, (r : Int)), (rd2, ((p : Int) - r) % p)] true 0#32 0#32 ∧ NoDraws s t) ∧
    (jacobiSym a p ≠ -1 → (∀ r : Nat, r * r ≠ a % p) →
      ((∃ c : Nat, 2 ≤ c ∧ c < p ∧ jacobiSym c p = -1) → Nat.gcd (a % p) p = 1 →
        ∃ (t : State) (r : Nat), exec (.modsqrt rd rd2 ra rm) s = .next t ∧ StepFiveRoot (a % p) p r ∧
          Completed s t [(rd, (r : Int)), (rd2, ((p : Int) - r) % p)] true 0#32 0#32 ∧ NoDraws s t) ∧
      ((∀ c : Nat, 2 ≤ c → c < p → jacobiSym c p ≠ -1) ∨ Nat.gcd (a % p) p ≠ 1 →
        ∃ t, exec (.modsqrt rd rd2 ra rm) s = .next t ∧ Failed s t .mathError)) ∧
    (∀ k : Nat, p = k * k → (∀ r : Nat, r * r ≠ a % p) →
      ∃ t, exec (.modsqrt rd rd2 ra rm) s = .next t ∧ Failed s t .mathError)

/-- R197, R200: ISPRIME calls every prime probably prime, whatever the random words are, once PERSIST rounds' worth of
them are supplied; it takes exactly those, and none for 2 and 3. -/
def Obligations.IsprimeNeverRejectsAPrime : Prop :=
  ∀ (s : State) (ra : Reg) (n : Nat), s.src ra = n → n.Prime → s.srcPersist * baseWords n ≤ s.rng.length →
    ∃ t, exec (.isprime ra) s = .next t ∧ Completed s t [] true 0#32 0#32 ∧
      Drew s t (if n ≤ 3 then s.rng else s.rng.drop (s.srcPersist * baseWords n))

/-- R197, R198: for an odd operand from 5 on, once the words supplied suffice for PERSIST rounds or hold a witness, the
verdict is true exactly if every drawn base is a strong liar, and the rounds stop at the first that is not. -/
def Obligations.IsprimeVerdictIsThatOfTheDrawnBases : Prop :=
  ∀ (s : State) (ra : Reg) (n : Nat), s.src ra = n → 5 ≤ n → n % 2 = 1 →
    s.srcPersist * baseWords n ≤ s.rng.length ∨
      (∃ k, (k + 1) * baseWords n ≤ s.rng.length ∧ ¬StrongLiar n (roundBase n s.rng k)) →
    ∃ t run, exec (.isprime ra) s = .next t ∧ Completed s t [] t.found 0#32 0#32 ∧
      Drew s t (s.rng.drop (run * baseWords n)) ∧ run ≤ s.srcPersist ∧ run * baseWords n ≤ s.rng.length ∧
      (t.found = true ↔ ∀ k < s.srcPersist, StrongLiar n (roundBase n s.rng k)) ∧
      (t.found = true → run = s.srcPersist) ∧
      (t.found = false → 0 < run ∧ ¬StrongLiar n (roundBase n s.rng (run - 1))) ∧
      (∀ k, k + 1 < run → StrongLiar n (roundBase n s.rng k))

/-- R198, R199: the operands ISPRIME decides without a random word: below 4, even ones, and all of them with PERSIST 0,
when every odd number from 3 on passes untested. -/
def Obligations.IsprimeWithoutDraws : Prop :=
  ∀ (s : State) (ra : Reg) (n : Nat), s.src ra = n → n < 4 ∨ n % 2 = 0 ∨ s.srcPersist = 0 →
    ∃ t, exec (.isprime ra) s = .next t ∧ Completed s t [] (decide (n = 2 ∨ (3 ≤ n ∧ n % 2 = 1))) 0#32 0#32 ∧ NoDraws s t

/-- R83, R197: while the words supplied show no witness and do not suffice for PERSIST rounds, ISPRIME stays busy. -/
def Obligations.IsprimeWaitsForRandomWords : Prop :=
  ∀ (s : State) (ra : Reg) (n : Nat), s.src ra = n → 5 ≤ n → n % 2 = 1 → s.rng.length < s.srcPersist * baseWords n →
    (∀ k, (k + 1) * baseWords n ≤ s.rng.length → StrongLiar n (roundBase n s.rng k)) →
    ∃ t, exec (.isprime ra) s = .next t ∧ t.busy = true ∧ t.wide = s.wide ∧ SameSettings s t ∧ NoDraws s t

/-- R205, R206: with legal parameters GENPRIME completes exactly if the random words, read as R205 reads them, yield a
candidate that passes the filter and the test, and writes the first such; otherwise it stays busy. That it takes no word
while it waits is the model's choice (log entry 5: the words are taken at the completion). Then, in terms of bits, what a
candidate is, and what the filter rejects; the last two clauses are the spec's parameter choices for which no words
succeed. -/
def Obligations.GenprimeCompletesIffWordsYieldAPrime : Prop :=
  (∀ (s : State) (rd : Reg) (f : Bool), s.Inv → ¬badParameters s f →
    (∀ n c rest, SamplesPrime s.srcBitlen s.srcPersist (s.filter f) s.rng n c rest →
      ∃ t, exec (.genprime rd f) s = .next t ∧
        Completed s t [(rd, (c : Int))] false 0#32 (BitVec.ofNat 32 (min n 0xFFFFFFFF)) ∧ Drew s t rest) ∧
    ((¬∃ n c rest, SamplesPrime s.srcBitlen s.srcPersist (s.filter f) s.rng n c rest) →
      ∃ t, exec (.genprime rd f) s = .next t ∧ t.busy = true ∧ t.wide = s.wide ∧ SameSettings s t ∧ NoDraws s t)) ∧
  (∀ len draw k : Nat, (candidateOfDraw len draw).testBit k = true ↔ k = 0 ∨ k = len - 1 ∨ draw.testBit k = true) ∧
  (∀ k r c : Nat, (filterRejects (some (k, r)) c = true ↔ c % k ≠ r) ∧ filterRejects none c = false) ∧
  (∀ (s : State) (rd : Reg), s.Inv → s.srcBitlen = 2 → s.srcFiltMod = 4 → s.srcFiltRes = 1 →
    ∃ t, exec (.genprime rd true) s = .next t ∧ t.busy = true) ∧
  (∀ (s : State) (rd : Reg), s.Inv → s.srcBitlen = 3 → s.srcFiltMod = 8 → s.srcFiltRes = 1 →
    ∃ t, exec (.genprime rd true) s = .next t ∧ t.busy = true)

/-- R205, R200: what GENPRIME writes has exactly BITLEN bits, is odd and, with F = 1, in the filter's class; it is a draw of
BITLEN bits from the words supplied with the top bit and bit 0 set, and it passed the test on the words after that draw,
with what that left as the words left over. -/
def Obligations.GenprimeResultShape : Prop :=
  ∀ (s t : State) (rd : Reg) (f : Bool), s.Inv → exec (.genprime rd f) s = .next t → t.busy = false → t.ecode = .ok →
    (2 ^ (s.srcBitlen - 1) ≤ t.reg rd ∧ t.reg rd < 2 ^ s.srcBitlen ∧ t.reg rd % 2 = 1 ∧
      (f = true → t.reg rd % s.srcFiltMod = s.srcFiltRes)) ∧
    ∃ (ws rest : List Word) (draw : Nat), ws <:+ s.rng ∧ drawBits s.srcBitlen ws = some (draw, rest) ∧
      (∀ k, (t.reg rd).toNat.testBit k = true ↔ k = 0 ∨ k = s.srcBitlen - 1 ∨ draw.testBit k = true) ∧
      millerRabin (t.reg rd).toNat s.srcPersist rest = some (true, t.rng)

/-! ## The commands: errors, frame, what they read -/

/-- R121 item 2, R234: a legal command with a negative value in an unsigned position ends with OPERAND_RANGE, whatever its
other operands are. -/
def Obligations.NegativeOperandsAreOutOfRange : Prop :=
  ∀ (i : Instr) (s : State), i.wellFormed = true → (∃ r ∈ unsignedSources i, s.src r < 0) →
    ∃ t, exec i s = .next t ∧ Failed s t .operandRange

/-- R203, R204: GENPRIME ends with OPERAND_RANGE exactly for a BITLEN outside `2 .. W` or, with F = 1, a filter that is
not `k >= 2`, `r < k` and `gcd(r, k) = 1`; with F = 0 the filter is not read. -/
def Obligations.GenprimeParametersAreChecked : Prop :=
  ∀ (s : State) (rd : Reg) (f : Bool), s.Inv →
    (s.srcBitlen < 2 ∨ s.width < s.srcBitlen → ∃ t, exec (.genprime rd f) s = .next t ∧ Failed s t .operandRange) ∧
    (f = true → s.srcFiltMod < 2 ∨ s.srcFiltMod ≤ s.srcFiltRes ∨ Nat.gcd s.srcFiltRes s.srcFiltMod ≠ 1 →
      ∃ t, exec (.genprime rd f) s = .next t ∧ Failed s t .operandRange) ∧
    (¬badParameters s f → ∃ t, exec (.genprime rd f) s = .next t ∧ t.ecode = .ok)

/-- R121 item 3, R234, R235: a legal command whose operands are in range and fail a mathematical precondition ends with
MATH_ERROR. -/
def Obligations.FailedPreconditionsAreMathErrors : Prop :=
  ∀ (i : Instr) (s : State), i.wellFormed = true → (∀ r ∈ unsignedSources i, 0 ≤ s.src r) → failsMath s i →
    ∃ t, exec i s = .next t ∧ Failed s t .mathError

/-- R235: the causes are complete. A command ends with an error code only for the conditions the table lists; inside
MODSQRT the two conditions found while computing need a modulus that is not prime (R182). -/
def Obligations.ErrorCausesAreComplete : Prop :=
  ∀ (i : Instr) (s t : State), exec i s = .next t → t.busy = false →
    (t.ecode = .ok ∨ t.ecode = .mathError ∨ t.ecode = .illegalCmd ∨ t.ecode = .operandRange) ∧
    (t.ecode = .illegalCmd → i.wellFormed = false) ∧
    (t.ecode = .operandRange →
      (∃ r ∈ unsignedSources i, s.src r < 0) ∨ ∃ rd f, i = .genprime rd f ∧ badParameters s f) ∧
    (t.ecode = .mathError →
      failsMath s i ∨ ∃ rd rd2 ra rm, i = .modsqrt rd rd2 ra rm ∧ ¬(s.src rm).toNat.Prime)

/-- R233: when a command ends with an error, no wide register and no setting changes, the results are 0, and only for
ABORTED may random words be gone. -/
def Obligations.ErrorsWriteNoRegister : Prop :=
  ∀ s t : State, step s = .next t → s.busy = true → t.busy = false → t.ecode ≠ .ok →
    t.wide = s.wide ∧ t.err = true ∧ t.found = false ∧ t.result = 0#32 ∧ t.iter = 0#32 ∧ t.done = true ∧
      t.running = none ∧ t.nword = s.nword ∧ t.ie = s.ie ∧ t.busywr = s.busywr ∧ t.bitlen = s.bitlen ∧
      t.persist = s.persist ∧ t.filtMod = s.filtMod ∧ t.filtRes = s.filtRes ∧ t.reply = s.reply ∧
      (t.ecode ≠ .aborted → NoDraws s t)

/-- R24, R82, R232: the frame of all twelve commands. Only destinations of the command change among the wide registers; no
setting changes; random words go only to the two prime commands, off the front and counted. -/
def Obligations.CommandFrame : Prop :=
  ∀ (i : Instr) (s t : State), exec i s = .next t →
    (∀ r : Reg, r ∉ i.dests → t.wide[r] = s.wide[r]) ∧ SameSettings s t ∧
    t.rng <:+ s.rng ∧ t.drawn = s.drawn + (s.rng.length - t.rng.length) ∧
    (drawsWords i = false → NoDraws s t)

/-- R32 to R34, R235: which results each command reports at a completion without error: FOUND only ISQRT, MODSQRT and
ISPRIME, RESULT only JACOBI, ITER only XGCD, MODINV and GENPRIME; the others leave 0. -/
def Obligations.ResultsAreReportedOnlyByTheirCommands : Prop :=
  ∀ (i : Instr) (s t : State), exec i s = .next t → t.busy = false →
    (t.found = true → (∃ rd ra, i = .isqrt rd ra) ∨ (∃ rd rd2 ra rm, i = .modsqrt rd rd2 ra rm) ∨ ∃ ra, i = .isprime ra) ∧
    (t.result ≠ 0#32 → ∃ ra rm, i = .jacobi ra rm) ∧
    (t.iter ≠ 0#32 → (∃ rd rd2 rd3 ra rb, i = .xgcd rd rd2 rd3 ra rb) ∨ (∃ rd ra rm, i = .modinv rd ra rm) ∨
      ∃ rd f, i = .genprime rd f)

/-- R24, R50, R277: a command in execution computes from what it latched. Two states that hold the same latch, width and
random words end alike, whatever their registers are; each wide register is either written the same or left alone. -/
def Obligations.RunningCommandReadsOnlyItsLatch : Prop :=
  ∀ (i : Instr) (s s' t t' : State) (l : Latch), s.running = some l → s'.running = some l → s.nword = s'.nword →
    s.rng = s'.rng → exec i s = .next t → exec i s' = .next t' →
    t.busy = t'.busy ∧ t.rng = t'.rng ∧
    (t.busy = false → t.ecode = t'.ecode ∧ t.found = t'.found ∧ t.result = t'.result ∧ t.iter = t'.iter) ∧
    (∀ r : Reg, t.wide[r] = t'.wide[r] ∨ (t.wide[r] = s.wide[r] ∧ t'.wide[r] = s'.wide[r]))

/-- R231, R232: a meaning applied to an idle state is what it is after the acceptance of the command's word (the model's
choice, log entry 6). -/
def Obligations.IdleExecIsAcceptanceAndCompletion : Prop :=
  ∀ (i : Instr) (s : State), s.running = none → exec i s = exec i (s.accept (encode i))

/-! ## The machine -/

/-- Every step, whatever agent moves, keeps the invariant: the width, the words of a magnitude, the latch equal to the
registers while a command runs (R70, R270), the outcome cleared while busy (R38, R271), the error codes (R230, R233), and
RESULT a symbol (R33). -/
def Obligations.StepKeepsTheInvariant : Prop :=
  ∀ s t : State, s.Inv → step s = .next t → t.Inv

/-- The invariant holds after reset, for every width the spec admits (R7) and every reset. -/
def Obligations.ResetMeetsTheInvariant : Prop :=
  State.reset.Inv ∧ ∀ nword draw : Nat, 2 ≤ nword → nword ≤ 128 → (State.powerOn nword draw).Inv

/-- R55, R240: the values the spec gives for reset, for every width it admits. The wide registers are unspecified (R26):
here they are constants without a body (log entry 2), as many words as the width has. -/
def Obligations.ResetLeavesTheStatedValues : Prop :=
  (∃ nword, 2 ≤ nword ∧ nword ≤ 128 ∧ State.reset = State.powerOn nword 0) ∧
  ∀ (nword draw : Nat) (s : State), 2 ≤ nword → nword ≤ 128 → s = State.powerOn nword draw →
    s.ie = false ∧ s.busy = false ∧ s.done = false ∧ s.err = false ∧ s.found = false ∧ s.ecode = .ok ∧
    s.busywr = false ∧ s.statusWord = 0#32 ∧ s.result = 0#32 ∧ s.iter = 0#32 ∧ s.bitlen = 0#32 ∧ s.persist = 0#32 ∧
    s.filtMod = 0#32 ∧ s.filtRes = 0#32 ∧ s.running = none ∧ s.irq = false ∧
    s.portRead 0#11 = 0x4E544B31#32 ∧ (s.portRead 1#11).toNat = nword + 0x800 ∧
    ∀ r : Reg, (s.wide[r]).words.length = nword

/-- R260: reset at any time, while a command runs too. Everything takes its reset value, a command in execution is gone
without DONE, and the random words stay as they are but for those the discarded command had taken. How many those are (log
entry 9), that the host's last reply is kept (log entry 12), and that the unspecified wide registers are constants without
a body, numbered by a draw that no earlier free value had (log entries 2, 10), are the model's choices. -/
def Obligations.PlatformReset : Prop :=
  ∀ (s : State) (rest : List Event), s.agenda = .reset :: rest →
    ∃ t, step s = .next t ∧ t.agenda = rest ∧ t.nword = s.nword ∧ t.reply = s.reply ∧
      t.ie = false ∧ t.statusWord = 0#32 ∧ t.result = 0#32 ∧ t.iter = 0#32 ∧ t.bitlen = 0#32 ∧ t.persist = 0#32 ∧
      t.filtMod = 0#32 ∧ t.filtRes = 0#32 ∧ t.running = none ∧ t.irq = false ∧
      (∀ r : Reg, t.wide[r] = Wide.afterReset s.nword (s.fresh + 1) r) ∧ t.fresh = s.fresh + 2 ∧
      t.rng <:+ s.rng ∧ t.drawn = s.drawn + (s.rng.length - t.rng.length) ∧ (s.busy = false → NoDraws s t)

/-- R17, R104: no step and no command stops the machine. -/
def Obligations.EveryStepAnswersANextState : Prop :=
  (∀ s : State, ∃ t, step s = .next t) ∧ ∀ (i : Instr) (s : State), ∃ t, exec i s = .next t

/-- R24, R26: who writes a wide register. In one step a wide register changes only by a host write to SIGN or to one of
its own words while idle, by a reset, or by the completion without error of a command that names it as a destination. -/
def Obligations.RegistersChangeOnlyByTheirWriters : Prop :=
  ∀ (s t : State) (r : Reg), step s = .next t → t.wide[r] ≠ s.wide[r] →
    (s.busy = false ∧ ∃ a v rest, s.agenda = .write a v :: rest ∧ (a = 7#11 ∨ ∃ j < s.nword, a = magIndex r j)) ∨
    (∃ rest, s.agenda = .reset :: rest) ∨
    (∃ l i, s.running = some l ∧ decode l.cmd = .ok i ∧ r ∈ i.dests ∧ t.running = none ∧ t.done = true ∧ t.ecode = .ok)

/-- R234 item 5, R243: ABORTED never occurs without an abort request, and only a write to CTRL with bit 1 set, while a
command runs, makes one. -/
def Obligations.AbortedNeedsARequest : Prop :=
  ∀ s t : State, step s = .next t →
    (t.ecode = .aborted → s.ecode = .aborted ∨ ∃ l, s.running = some l ∧ l.abortReq = true) ∧
    (∀ l', t.running = some l' → l'.abortReq = true →
      (∃ l, s.running = some l ∧ l.abortReq = true) ∨
      (s.busy = true ∧ ∃ v rest, s.agenda = .write 2#11 v :: rest ∧ v.getLsbD 1 = true))

/-- R243: an abort request ends the command. The request is set by CTRL while busy, and does nothing while idle; once it is
set, the sequencer may end the command with ABORTED, no wide register written and only words of its own draws gone, and
every turn of the sequencer ends it, by its own completion or with ABORTED. R243 says only that it ends in finite time:
that the turn ends it, and that the agenda picks the way, is the model's choice (log entry 8). -/
def Obligations.AbortRequestEndsTheCommand : Prop :=
  (∀ (s : State) (l : Latch) (v : Word) (rest : List Event), s.running = some l → s.agenda = .write 2#11 v :: rest →
    v.getLsbD 1 = true →
    step s = .next { s with agenda := rest, ie := v.getLsbD 0, running := some { l with abortReq := true } }) ∧
  (∀ (s : State) (v : Word) (rest : List Event), s.running = none → s.agenda = .write 2#11 v :: rest →
    step s = .next { s with agenda := rest, ie := v.getLsbD 0 }) ∧
  (∀ (s : State) (l : Latch) (rest : List Event), s.running = some l → l.abortReq = true → s.agenda = .abort :: rest →
    ∃ t, step s = .next t ∧ t.running = none ∧ t.ecode = .aborted ∧ t.done = true ∧ t.found = false ∧ t.result = 0#32 ∧
      t.iter = 0#32 ∧ t.wide = s.wide ∧ t.rng <:+ s.rng ∧ t.drawn = s.drawn + (s.rng.length - t.rng.length) ∧
      (∀ i u, decode l.cmd = .ok i → exec i { s with agenda := rest } = .next u → u.busy = false →
        u.rng.length ≤ t.rng.length)) ∧
  (∀ (s : State) (l : Latch), s.running = some l → l.abortReq = true →
    s.agenda = [] ∨ (∃ rest, s.agenda = .complete :: rest) →
    ∃ t, step s = .next t ∧ t.busy = false ∧
      (t.ecode = .aborted ∨ { s with agenda := s.agenda.tail }.runLatched = .next t))

/-- R38, R233, R273: a command in execution goes on until it completes: only a completion, an abort or a reset ends it, and
the word, the operands and the parameters it holds do not change on the way. -/
def Obligations.LatchIsHeldUntilCompletion : Prop :=
  ∀ (s t : State) (l : Latch), step s = .next t → s.running = some l →
    (t.running = none ∧ (t.done = true ∨ ∃ rest, s.agenda = .reset :: rest)) ∨
    (∃ l', t.running = some l' ∧ l'.cmd = l.cmd ∧ l'.wide = l.wide ∧ l'.bitlen = l.bitlen ∧ l'.persist = l.persist ∧
      l'.filtMod = l.filtMod ∧ l'.filtRes = l.filtRes)

/-- R274, R254: the outcome of the last command stays until the next acceptance or a reset, but that DONE can be cleared;
and an idle NTK keeps all its state. The model's choices in the last three clauses: an idle sequencer's turn is a step that
leaves the state (log entry 18), and so is an abort event without a request (log entry 8). -/
def Obligations.OutcomeLastsUntilTheNextAcceptance : Prop :=
  (∀ s t : State, step s = .next t → s.busy = false → t.busy = false → (∀ rest, s.agenda ≠ .reset :: rest) →
    t.ecode = s.ecode ∧ t.err = s.err ∧ t.found = s.found ∧ t.result = s.result ∧ t.iter = s.iter ∧
      (t.done ≠ s.done → ∃ v rest, s.agenda = .write 3#11 v :: rest ∧ v.getLsbD 1 = true ∧ t.done = false)) ∧
  (∀ s : State, s.busy = false → s.agenda = [] → step s = .next s) ∧
  (∀ (s : State) (rest : List Event), s.busy = false → s.agenda = .complete :: rest ∨ s.agenda = .abort :: rest →
    step s = .next { s with agenda := rest }) ∧
  (∀ (s : State) (l : Latch) (rest : List Event), s.running = some l → l.abortReq = false → s.agenda = .abort :: rest →
    step s = .next { s with agenda := rest })

/-! ## The host port -/

/-- R270: a write to a busy-protected word while a command runs is dropped and sets BUSYWR; no other write sets it; it
stays until a 1 is written to STATUS bit 7, or a reset. Writes to CTRL and STATUS take effect, busy or not. -/
def Obligations.BusyProtectedWritesAreDropped : Prop :=
  (∀ (s : State) (a : PortIndex) (v : Word) (rest : List Event), s.agenda = .write a v :: rest → s.busy = true →
    a = 4#11 ∨ (7 ≤ a.toNat ∧ a.toNat ≤ 11) ∨ (0x400 ≤ a.toNat ∧ a.toNat % 0x80 < s.nword) →
    step s = .next { s with agenda := rest, busywr := true }) ∧
  (∀ s t : State, step s = .next t → s.busywr = false → t.busywr = true →
    s.busy = true ∧ ∃ a v rest, s.agenda = .write a v :: rest ∧
      (a = 4#11 ∨ (7 ≤ a.toNat ∧ a.toNat ≤ 11) ∨ (0x400 ≤ a.toNat ∧ a.toNat % 0x80 < s.nword))) ∧
  (∀ s t : State, step s = .next t → s.busywr = true → t.busywr = false →
    (∃ v rest, s.agenda = .write 3#11 v :: rest ∧ v.getLsbD 7 = true) ∨ ∃ rest, s.agenda = .reset :: rest) ∧
  (∀ (s : State) (v : Word) (rest : List Event),
    (s.agenda = .write 2#11 v :: rest → ∃ t, step s = .next t ∧ t.ie = v.getLsbD 0 ∧ t.busywr = s.busywr) ∧
    (s.agenda = .write 3#11 v :: rest → ∃ t, step s = .next t ∧ t.done = (s.done && !v.getLsbD 1) ∧
      t.busywr = (s.busywr && !v.getLsbD 7)))

/-- R62: a read answers the word and changes nothing of the NTK, and every word of the register space then reads the same
again, but for those that are unspecified while busy (R271). The word answered goes to `reply` (log entry 12), and `fresh`,
the number of the next free value (log entry 10), moves on exactly if the read took one. -/
def Obligations.ReadsHaveNoSideEffect : Prop :=
  ∀ (s : State) (a : PortIndex) (rest : List Event), s.agenda = .read a :: rest →
    ∃ t, step s = .next t ∧ t = { s with agenda := rest, reply := some (s.portRead a), fresh := t.fresh } ∧
      (readsFree s a → t.fresh = s.fresh + 1) ∧ (¬readsFree s a → t.fresh = s.fresh) ∧
      ∀ b, ¬readsFree s b → t.portRead b = s.portRead b

/-- R45, R65: reserved offsets read 0 and ignore writes, with no BUSYWR, busy or not. -/
def Obligations.ReservedOffsetsReadZeroAndIgnoreWrites : Prop :=
  ∀ (s : State) (a : PortIndex), (12 ≤ a.toNat ∧ a.toNat < 0x400) ∨ (0x400 ≤ a.toNat ∧ s.nword ≤ a.toNat % 0x80) →
    s.portRead a = 0#32 ∧
    ∀ (v : Word) (rest : List Event), s.agenda = .write a v :: rest → step s = .next { s with agenda := rest }

/-- R66: the words of the window make up the magnitude, least significant first, and a write replaces exactly its word. -/
def Obligations.MagnitudeWordsWriteAndRead : Prop :=
  (∀ (s : State) (i : Reg), s.Inv → s.busy = false →
    (s.wide[i]).mag = ∑ j ∈ Finset.range s.nword, (s.portRead (magIndex i j)).toNat * 2 ^ (32 * j)) ∧
  (∀ (s : State) (i : Reg) (j : Nat) (v : Word) (rest : List Event), s.Inv → s.busy = false → j < s.nword →
    s.agenda = .write (magIndex i j) v :: rest →
    ∃ t, step s = .next t ∧ t = { s with agenda := rest, wide := t.wide } ∧ t.portRead (magIndex i j) = v ∧
      ∀ a, a ≠ magIndex i j → t.portRead a = s.portRead a)

/-- R25, R41, R67: while idle SIGN reads the eight sign bits, and a write replaces them all at once, the magnitudes kept;
the value is then the magnitude under its new sign, 0 for negative zero. -/
def Obligations.SignWriteAndRead : Prop :=
  (∀ (s : State) (r : Reg), s.busy = false → (s.portRead 7#11).getLsbD r = (s.wide[r]).sign) ∧
  (∀ (s : State) (v : Word) (rest : List Event), s.busy = false → s.agenda = .write 7#11 v :: rest →
    ∃ t, step s = .next t ∧ t = { s with agenda := rest, wide := t.wide } ∧ t.portRead 7#11 = v &&& 0x000000FF#32 ∧
      ∀ r : Reg, (t.wide[r]).words = (s.wide[r]).words ∧ (t.wide[r]).sign = v.getLsbD r ∧
        t.reg r = if v.getLsbD r then -((s.wide[r]).mag : Int) else (s.wide[r]).mag)

/-- R37: a write to CTRL, busy or not, sets IE to bit 0 and with bit 1 requests an abort of the running command; ABORT and
the reserved bits read 0. IE enables the interrupt line and is 0 after reset. -/
def Obligations.CtrlWriteAndRead : Prop :=
  (∀ s : State, s.irq = (s.ie && s.done) ∧ s.portRead 2#11 = if s.ie then 1#32 else 0#32) ∧
  (∀ nword draw : Nat, (State.powerOn nword draw).ie = false) ∧
  (∀ (s : State) (v : Word) (rest : List Event), s.agenda = .write 2#11 v :: rest →
    ∃ t, step s = .next t ∧ t = { s with agenda := rest, ie := v.getLsbD 0, running := t.running } ∧
      (s.running = none → t.running = none) ∧
      (∀ l, s.running = some l → t.running = some { l with abortReq := l.abortReq || v.getLsbD 1 }))

/-- R38: the layout of STATUS, with the numbers of R230 for the error codes; a write clears DONE and BUSYWR where it has a
1, and nothing else; BUSY and DONE are never both 1. -/
def Obligations.StatusLayoutAndWrite : Prop :=
  (∀ s : State, (s.portRead 3#11).getLsbD 0 = s.busy ∧ (s.portRead 3#11).getLsbD 1 = s.done ∧
    (s.portRead 3#11).getLsbD 2 = decide (s.ecode ≠ .ok) ∧ (s.portRead 3#11).getLsbD 3 = s.found ∧
    (s.portRead 3#11).extractLsb' 4 3 = s.ecode.bits ∧ (s.portRead 3#11).getLsbD 7 = s.busywr ∧
    ∀ k, 8 ≤ k → (s.portRead 3#11).getLsbD k = false) ∧
  (∀ (s : State) (e : ErrorCode) (n : BitVec 3), (e, n) ∈ [(.ok, 0#3), (.smallKey, 1#3), (.incorrectAlgorithm, 2#3),
      (.messageNotFound, 3#3), (.mathError, 4#3), (.illegalCmd, 5#3), (.operandRange, 6#3), (.aborted, 7#3)] →
    s.ecode = e → (s.portRead 3#11).extractLsb' 4 3 = n) ∧
  (∀ (s : State) (v : Word) (rest : List Event), s.agenda = .write 3#11 v :: rest →
    step s = .next { s with agenda := rest, done := s.done && !v.getLsbD 1, busywr := s.busywr && !v.getLsbD 7 }) ∧
  (∀ s : State, s.Inv → ¬(s.busy = true ∧ s.done = true))

/-- R240: the interrupt line is IE and DONE: raised by every completion, with error or without, where IE is set; dropped by
clearing DONE, by the next acceptance, by clearing IE. -/
def Obligations.IrqFollowsDoneAndEnable : Prop :=
  (∀ s : State, s.irq = (s.ie && s.done)) ∧
  (∀ s t : State, step s = .next t → s.busy = true → t.busy = false → (∀ rest, s.agenda ≠ .reset :: rest) →
    t.irq = s.ie) ∧
  (∀ (s t : State) (v : Word) (rest : List Event), step s = .next t →
    (s.agenda = .write 3#11 v :: rest ∧ v.getLsbD 1 = true) ∨ (s.agenda = .write 4#11 v :: rest ∧ s.busy = false) ∨
      (s.agenda = .write 2#11 v :: rest ∧ v.getLsbD 0 = false) → t.irq = false)

/-- R35, R36, R39, R40, R42 to R44: in every state, busy or not, what the words of the CSR space read as, and that the read-only
ones ignore writes; while idle a write to a parameter register stores all 32 bits and changes nothing else. And nothing
else changes them: in one step, whichever agent moves, IE changes only by a write to CTRL, a parameter register only by a
write to it while idle, each also by a reset, and the width never. -/
def Obligations.ControlWordsReadAndWrite : Prop :=
  (∀ s : State, s.portRead 0#11 = 0x4E544B31#32 ∧ s.portRead 4#11 = 0#32 ∧ s.portRead 5#11 = s.result ∧
    s.portRead 6#11 = s.iter ∧ s.portRead 8#11 = s.bitlen ∧ s.portRead 9#11 = s.persist ∧ s.portRead 10#11 = s.filtMod ∧
    s.portRead 11#11 = s.filtRes ∧ (s.nword ≤ 128 → (s.portRead 1#11).toNat = s.nword + 8 * 2 ^ 8)) ∧
  (∀ (s : State) (a : PortIndex) (v : Word) (rest : List Event), a = 0#11 ∨ a = 1#11 ∨ a = 5#11 ∨ a = 6#11 →
    s.agenda = .write a v :: rest → step s = .next { s with agenda := rest }) ∧
  (∀ (s : State) (v : Word) (rest : List Event), s.busy = false →
    (s.agenda = .write 8#11 v :: rest → step s = .next { s with agenda := rest, bitlen := v }) ∧
    (s.agenda = .write 9#11 v :: rest → step s = .next { s with agenda := rest, persist := v }) ∧
    (s.agenda = .write 10#11 v :: rest → step s = .next { s with agenda := rest, filtMod := v }) ∧
    (s.agenda = .write 11#11 v :: rest → step s = .next { s with agenda := rest, filtRes := v })) ∧
  (∀ s t : State, step s = .next t → t.nword = s.nword ∧
    ((∃ rest, s.agenda = .reset :: rest) ∨
      ((t.ie = s.ie ∨ ∃ v rest, s.agenda = .write 2#11 v :: rest ∧ t.ie = v.getLsbD 0) ∧
       (t.bitlen = s.bitlen ∨ s.busy = false ∧ ∃ rest, s.agenda = .write 8#11 t.bitlen :: rest) ∧
       (t.persist = s.persist ∨ s.busy = false ∧ ∃ rest, s.agenda = .write 9#11 t.persist :: rest) ∧
       (t.filtMod = s.filtMod ∨ s.busy = false ∧ ∃ rest, s.agenda = .write 10#11 t.filtMod :: rest) ∧
       (t.filtRes = s.filtRes ∨ s.busy = false ∧ ∃ rest, s.agenda = .write 11#11 t.filtRes :: rest))))

/-- R271: while busy RESULT and ITER read 0, the reserved bits of SIGN read 0, and STATUS reads as an acceptance left it. -/
def Obligations.ReadsWhileBusy : Prop :=
  ∀ s : State, s.Inv → s.busy = true →
    s.portRead 5#11 = 0#32 ∧ s.portRead 6#11 = 0#32 ∧ s.portRead 7#11 &&& 0xFFFFFF00#32 = 0#32 ∧
    s.portRead 3#11 = if s.busywr then 0x00000081#32 else 0x00000001#32

/-! ## The random source -/

/-- R80: the source appends the word it supplies and changes nothing else; every other step takes words off the front and
counts them, and never puts one back or skips one. -/
def Obligations.RandomWordsAreTakenInOrder : Prop :=
  (∀ (s : State) (w : Word) (rest : List Event), s.agenda = .supply w :: rest →
    step s = .next { s with agenda := rest, rng := s.rng ++ [w] }) ∧
  (∀ s t : State, step s = .next t → (∀ w rest, s.agenda ≠ .supply w :: rest) →
    t.rng <:+ s.rng ∧ t.drawn = s.drawn + (s.rng.length - t.rng.length) ∧
    (t.rng ≠ s.rng → ∃ l, s.running = some l ∧ ∃ i, decode l.cmd = .ok i ∧ drawsWords i = true))

/-- R81: `DrawBits(k)` takes `ceil(k/32)` words, least significant first, and keeps the low `k` bits. -/
def Obligations.DrawBitsTakesWholeWords : Prop :=
  ∀ (k nw : Nat) (ws : List Word), 1 ≤ k → 32 * (nw - 1) < k → k ≤ 32 * nw →
    (nw ≤ ws.length → drawBits k ws =
      some ((∑ j ∈ Finset.range nw, (ws.getD j 0#32).toNat * 2 ^ (32 * j)) % 2 ^ k, ws.drop nw)) ∧
    (ws.length < nw → drawBits k ws = none)

end
end

