-- ==== Sys2Proof/Laws/Arith.lean ====
section
/-! SUPPORT. What the number theory of the commands computes: each loop's answer, whatever its fuel, provided the fuel is
that with which the model starts it. -/

namespace Sys2Proof.Machine

/-! Modular power (R122, R123). -/

theorem lt_two_pow_bitlen (v : Nat) : v < 2 ^ bitlen v := by
  unfold bitlen
  split
  · simp_all
  · exact Nat.lt_log2_self

theorem powLoop_lt (m fuel r x k : Nat) (hm : 0 < m) (hr : r < m) : powLoop m fuel r x k < m := by
  induction fuel generalizing r x k with
  | zero => exact hr
  | succ fuel ih =>
    rw [powLoop]
    split
    · exact hr
    · refine ih _ _ _ ?_
      split
      · exact Nat.mod_lt _ hm
      · exact hr

theorem powLoop_modEq (m fuel r x k : Nat) (hk : k < 2 ^ fuel) : powLoop m fuel r x k ≡ r * x ^ k [MOD m] := by
  induction fuel generalizing r x k with
  | zero =>
    obtain rfl : k = 0 := by simpa using hk
    simp [powLoop, Nat.ModEq.refl]
  | succ fuel ih =>
    rw [powLoop]
    split
    · simp_all [Nat.ModEq.refl]
    · refine (ih _ _ _ (by rw [pow_succ] at hk; omega)).trans ?_
      have hx : (x * x % m) ^ (k / 2) ≡ x ^ (2 * (k / 2)) [MOD m] := by
        rw [pow_mul, pow_two]
        exact (Nat.mod_modEq _ _).pow _
      split
      · rename_i hodd
        refine ((Nat.mod_modEq _ _).mul hx).trans ?_
        rw [mul_assoc, ← pow_succ', show 2 * (k / 2) + 1 = k by omega]
      · rename_i heven
        refine (Nat.ModEq.rfl.mul hx).trans ?_
        rw [show 2 * (k / 2) = k by omega]

/-- The power loop computes the mathematical value (R122). -/
theorem powMod_eq (b e m : Nat) (hm : 0 < m) : powMod b e m = b ^ e % m := by
  have hlt : powMod b e m < m := powLoop_lt _ _ _ _ _ hm (Nat.mod_lt _ hm)
  have h : powMod b e m ≡ b ^ e [MOD m] := by
    refine (powLoop_modEq m (bitlen e) (1 % m) (b % m) e (lt_two_pow_bitlen e)).trans ?_
    simpa using (Nat.mod_modEq 1 m).mul ((Nat.mod_modEq b m).pow e)
  rw [← Nat.mod_eq_of_lt hlt]
  exact h

/-! Extended Euclid (R131, R133). -/

/-- The invariant of the loop of R131, with what bounds the coefficients (R133 item 2). -/
structure BezoutInv (a b r0 r1 : Nat) (s0 s1 t0 t1 : Int) : Prop where
  row0 : s0 * a + t0 * b = r0
  row1 : s1 * a + t1 * b = r1
  gcd : Nat.gcd r0 r1 = Nat.gcd a b
  crossS : r0 * s1.natAbs + r1 * s0.natAbs = b
  crossT : r0 * t1.natAbs + r1 * t0.natAbs = a
  signS : s0 * s1 ≤ 0
  signT : t0 * t1 ≤ 0
  boundS : s0.natAbs ≤ max (max a b) 1
  boundT : t0.natAbs ≤ max (max a b) 1
  nextS : 0 < r1 → s1.natAbs ≤ max (max a b) 1
  nextT : 0 < r1 → t1.natAbs ≤ max (max a b) 1

theorem natAbs_sub_of_signs (s0 s1 : Int) (q : Nat) (h : s0 * s1 ≤ 0) :
    (s0 - q * s1).natAbs = s0.natAbs + q * s1.natAbs := by
  have hq : (0 : Int) ≤ q := Int.natCast_nonneg q
  zify
  rw [← abs_of_nonneg hq, ← abs_mul, abs_of_nonneg hq]
  rcases lt_trichotomy s0 0 with h0 | rfl | h0
  · have h1 : 0 ≤ s1 := by nlinarith
    rw [abs_of_neg h0, abs_of_nonneg (mul_nonneg hq h1), abs_of_nonpos (by nlinarith)]; ring
  · simp
  · have h1 : s1 ≤ 0 := by nlinarith
    rw [abs_of_pos h0, abs_of_nonpos (mul_nonpos_of_nonneg_of_nonpos hq h1), abs_of_nonneg (by nlinarith)]; ring

theorem BezoutInv.step {a b r0 r1 : Nat} {s0 s1 t0 t1 : Int} (h : BezoutInv a b r0 r1 s0 s1 t0 t1) (hr : 0 < r1) :
    BezoutInv a b r1 (r0 - r0 / r1 * r1) s1 (s0 - (r0 / r1 : Nat) * s1) t1 (t0 - (r0 / r1 : Nat) * t1) := by
  have hle : r0 / r1 * r1 ≤ r0 := Nat.div_mul_le_self r0 r1
  have hmod : r0 - r0 / r1 * r1 = r0 % r1 := by
    have := Nat.div_add_mod' r0 r1; omega
  have hS := natAbs_sub_of_signs s0 s1 (r0 / r1) h.signS
  have hT := natAbs_sub_of_signs t0 t1 (r0 / r1) h.signT
  have cS : r1 * (s0 - (r0 / r1 : Nat) * s1).natAbs + (r0 - r0 / r1 * r1) * s1.natAbs = b := by
    rw [hS, ← h.crossS]
    zify [hle]; ring
  have cT : r1 * (t0 - (r0 / r1 : Nat) * t1).natAbs + (r0 - r0 / r1 * r1) * t1.natAbs = a := by
    rw [hT, ← h.crossT]
    zify [hle]; ring
  have hq : (0 : Int) ≤ (r0 / r1 : Nat) := Int.natCast_nonneg _
  exact {
    row0 := h.row1
    row1 := by push_cast [Nat.cast_sub hle]; linear_combination h.row0 - (r0 / r1 : Int) * h.row1
    gcd := by rw [hmod, Nat.gcd_comm, ← Nat.gcd_rec, Nat.gcd_comm, h.gcd]
    crossS := cS
    crossT := cT
    signS := by have := h.signS; nlinarith [mul_nonneg hq (mul_self_nonneg s1)]
    signT := by have := h.signT; nlinarith [mul_nonneg hq (mul_self_nonneg t1)]
    boundS := h.nextS hr
    boundT := h.nextT hr
    nextS := fun _ => by
      have : (s0 - (r0 / r1 : Nat) * s1).natAbs ≤ b := by
        refine le_trans ?_ (le_of_le_of_eq (Nat.le_add_right _ _) cS)
        exact Nat.le_mul_of_pos_left _ hr
      omega
    nextT := fun _ => by
      have : (t0 - (r0 / r1 : Nat) * t1).natAbs ≤ a := by
        refine le_trans ?_ (le_of_le_of_eq (Nat.le_add_right _ _) cT)
        exact Nat.le_mul_of_pos_left _ hr
      omega }

/-- What the loop of R131 returns from a state that meets its invariant. -/
theorem xgcdLoop_spec {a b : Nat} (fuel r0 r1 : Nat) (s0 s1 t0 t1 : Int) (n : Nat)
    (h : BezoutInv a b r0 r1 s0 s1 t0 t1) (hf : r1 < fuel) :
    (xgcdLoop fuel r0 r1 s0 s1 t0 t1 n).g = Nat.gcd a b ∧
    (xgcdLoop fuel r0 r1 s0 s1 t0 t1 n).u * a + (xgcdLoop fuel r0 r1 s0 s1 t0 t1 n).v * b =
      (xgcdLoop fuel r0 r1 s0 s1 t0 t1 n).g ∧
    (xgcdLoop fuel r0 r1 s0 s1 t0 t1 n).u.natAbs ≤ max (max a b) 1 ∧
    (xgcdLoop fuel r0 r1 s0 s1 t0 t1 n).v.natAbs ≤ max (max a b) 1 := by
  induction fuel generalizing r0 r1 s0 s1 t0 t1 n with
  | zero => omega
  | succ fuel ih =>
    rw [xgcdLoop]
    split
    · subst r1
      exact ⟨by simpa using h.gcd, h.row0, h.boundS, h.boundT⟩
    · refine ih _ _ _ _ _ _ _ (h.step (by omega)) ?_
      have h1 := Nat.mod_lt r0 (show 0 < r1 by omega)
      have h2 := Nat.div_add_mod' r0 r1
      omega

theorem BezoutInv.start (a b : Nat) : BezoutInv a b a b 1 0 0 1 := by
  constructor <;> simp

/-- `XGCD_ALG` returns the greatest common divisor, a Bézout pair, and coefficients that fit a register (R133 items 1
and 2). -/
theorem xgcdAlg_spec (a b : Nat) :
    (xgcdAlg a b).g = Nat.gcd a b ∧ (xgcdAlg a b).u * a + (xgcdAlg a b).v * b = (xgcdAlg a b).g ∧
    (xgcdAlg a b).u.natAbs ≤ max (max a b) 1 ∧ (xgcdAlg a b).v.natAbs ≤ max (max a b) 1 :=
  xgcdLoop_spec (b + 1) a b 1 0 0 1 0 (BezoutInv.start a b) (Nat.lt_succ_self b)

theorem xgcdLoop_of_zero (fuel r0 : Nat) (s0 s1 t0 t1 : Int) (n : Nat) :
    xgcdLoop fuel r0 0 s0 s1 t0 t1 n = ⟨r0, s0, t0, n⟩ := by
  cases fuel <;> rfl

theorem xgcdLoop_of_pos (fuel r0 r1 : Nat) (s0 s1 t0 t1 : Int) (n : Nat) (h : r1 ≠ 0) :
    xgcdLoop (fuel + 1) r0 r1 s0 s1 t0 t1 n =
      xgcdLoop fuel r1 (r0 % r1) s1 (s0 - (r0 / r1 : Nat) * s1) t1 (t0 - (r0 / r1 : Nat) * t1) (n + 1) := by
  have hmod : r0 - r0 / r1 * r1 = r0 % r1 := by have := Nat.div_add_mod' r0 r1; omega
  rw [xgcdLoop, if_neg h, ← hmod]

/-- The loop is linear in its two coefficient columns, and counts its rounds (R131). -/
theorem xgcdLoop_linear (fuel r0 r1 : Nat) (s0 s1 t0 t1 : Int) (n : Nat) (x : Bezout)
    (hx : x = xgcdLoop fuel r0 r1 1 0 0 1 0) :
    xgcdLoop fuel r0 r1 s0 s1 t0 t1 n = ⟨x.g, x.u * s0 + x.v * s1, x.u * t0 + x.v * t1, n + x.steps⟩ := by
  induction fuel generalizing r0 r1 s0 s1 t0 t1 n x with
  | zero => subst hx; simp [xgcdLoop]
  | succ fuel ih =>
    by_cases h : r1 = 0
    · subst h; simp [hx, xgcdLoop_of_zero]
    · rw [xgcdLoop_of_pos _ _ _ _ _ _ _ _ h, ih _ _ _ _ _ _ _ _ rfl]
      rw [xgcdLoop_of_pos _ _ _ _ _ _ _ _ h, ih _ _ _ _ _ _ _ _ rfl] at hx
      subst hx
      simp only [Bezout.mk.injEq, true_and]
      exact ⟨by ring, by ring, by ring⟩

/-- Fuel above the second remainder is enough (R133 item 7). -/
theorem xgcdLoop_fuel (fuel fuel' r0 r1 : Nat) (s0 s1 t0 t1 : Int) (n : Nat) (h : r1 < fuel) (h' : r1 < fuel') :
    xgcdLoop fuel r0 r1 s0 s1 t0 t1 n = xgcdLoop fuel' r0 r1 s0 s1 t0 t1 n := by
  induction fuel generalizing fuel' r0 r1 s0 s1 t0 t1 n with
  | zero => omega
  | succ fuel ih =>
    obtain ⟨fuel', rfl⟩ : ∃ k, fuel' = k + 1 := ⟨fuel' - 1, by omega⟩
    by_cases hr : r1 = 0
    · subst hr; rw [xgcdLoop_of_zero, xgcdLoop_of_zero]
    · have := Nat.mod_lt r0 (show 0 < r1 by omega)
      rw [xgcdLoop_of_pos _ _ _ _ _ _ _ _ hr, xgcdLoop_of_pos _ _ _ _ _ _ _ _ hr]
      exact ih _ _ _ _ _ _ _ _ (by omega) (by omega)

/-- A remainder of a remainder is at most half as large. -/
theorem mod_mod_lt_half (r0 r1 k : Nat) (h1 : r1 ≠ 0) (h2 : r0 % r1 ≠ 0) (hk : r1 < 2 ^ (k + 1)) :
    r1 % (r0 % r1) < 2 ^ k := by
  have hlt := Nat.mod_lt r0 (Nat.pos_of_ne_zero h1)
  have hlt' := Nat.mod_lt r1 (Nat.pos_of_ne_zero h2)
  have hdiv := Nat.div_add_mod' r1 (r0 % r1)
  have hone : 1 ≤ r1 / (r0 % r1) := Nat.div_pos hlt.le (Nat.pos_of_ne_zero h2)
  have hle : r0 % r1 ≤ r1 / (r0 % r1) * (r0 % r1) := Nat.le_mul_of_pos_left _ hone
  rw [pow_succ] at hk
  omega

/-- Two rounds at least halve the second remainder, so the step count is at most twice its bit length (R132). -/
theorem xgcdLoop_steps_le (k fuel r0 r1 : Nat) (s0 s1 t0 t1 : Int) (n : Nat) (hk : r1 < 2 ^ k) :
    (xgcdLoop fuel r0 r1 s0 s1 t0 t1 n).steps ≤ n + 2 * k := by
  induction k generalizing fuel r0 r1 s0 s1 t0 t1 n with
  | zero =>
    obtain rfl : r1 = 0 := by simpa using hk
    simp [xgcdLoop_of_zero]
  | succ k ih =>
    rcases Nat.eq_zero_or_pos r1 with rfl | h1
    · simp [xgcdLoop_of_zero]
    rcases fuel with _ | fuel
    · simp [xgcdLoop]
    rw [xgcdLoop_of_pos _ _ _ _ _ _ _ _ h1.ne']
    rcases Nat.eq_zero_or_pos (r0 % r1) with h2 | h2
    · rw [h2, xgcdLoop_of_zero]; simp; omega
    rcases fuel with _ | fuel
    · simp [xgcdLoop]; omega
    rw [xgcdLoop_of_pos _ _ _ _ _ _ _ _ h2.ne']
    exact (ih _ _ _ _ _ _ _ _ (mod_mod_lt_half r0 r1 k h1.ne' h2.ne' hk)).trans (by omega)

/-- The step count of `XGCD_ALG` on `k`-bit operands (R132): far below `2^32` at every width. -/
theorem xgcdAlg_steps_le (a b k : Nat) (hb : b < 2 ^ k) : (xgcdAlg a b).steps ≤ 2 * k := by
  simpa [xgcdAlg] using xgcdLoop_steps_le k (b + 1) a b 1 0 0 1 0 hb

/-- The inverse `XGCD_ALG` gives is below the modulus. -/
theorem invMod_lt (a m : Nat) (hm : 0 < m) : invMod a m < m := by
  unfold invMod
  have h1 := Int.emod_nonneg (xgcdAlg a m).u (show (m : Int) ≠ 0 by omega)
  have h2 := Int.emod_lt_of_pos (xgcdAlg a m).u (show (0 : Int) < m by omega)
  omega

/-- It is an inverse wherever one exists (R136). -/
theorem mul_invMod (a m : Nat) (hm : 0 < m) (hg : Nat.gcd a m = 1) : a * invMod a m ≡ 1 [MOD m] := by
  obtain ⟨h1, h2, -, -⟩ := xgcdAlg_spec a m
  rw [h1, hg] at h2
  have hc : ((invMod a m : Nat) : Int) = (xgcdAlg a m).u % m :=
    Int.toNat_of_nonneg (Int.emod_nonneg _ (by omega))
  rw [← Int.natCast_modEq_iff]
  push_cast [hc]
  calc (a : Int) * ((xgcdAlg a m).u % m) ≡ a * (xgcdAlg a m).u [ZMOD m] := (Int.mod_modEq _ _).mul_left _
    _ ≡ 1 [ZMOD m] := by
      rw [Int.modEq_iff_dvd]
      exact ⟨(xgcdAlg a m).v, by push_cast at h2; linear_combination -h2⟩

/-- `Rinv` inverts the radix modulo an odd modulus (R148, R150). -/
theorem mul_montRinv (width n : Nat) (hn : n % 2 = 1) : 2 ^ width * montRinv width n ≡ 1 [MOD n] := by
  have hc : Nat.gcd (2 ^ width % n) n = 1 := by
    rw [← Nat.gcd_rec, Nat.gcd_comm]
    exact Nat.Coprime.pow_left _ ((Nat.coprime_two_left).mpr (Nat.odd_iff.mpr hn))
  exact ((Nat.mod_modEq _ _).symm.mul_right _).trans (mul_invMod _ n (by omega) hc)

/-! Exact square root (R171). -/

theorem isqrtLoop_spec (x fuel lo hi : Nat) (hf : hi < lo + fuel) (hin : ∀ r, r * r = x → lo ≤ r ∧ r ≤ hi) (r : Nat) :
    isqrtLoop x fuel lo hi = some r ↔ r * r = x := by
  induction fuel generalizing lo hi with
  | zero =>
    simp only [isqrtLoop, reduceCtorEq, false_iff]
    intro h
    have := hin r h; omega
  | succ fuel ih =>
    rw [isqrtLoop]
    split
    · simp only [reduceCtorEq, false_iff]
      intro h
      have := hin r h; omega
    · simp only
      split
      · rename_i heq
        simp only [Option.some.injEq]
        constructor
        · rintro rfl; exact heq
        · intro h; exact (Nat.mul_self_inj.mp (heq.trans h.symm))
      · split
        · rename_i hlt
          refine ih _ _ (by omega) fun t ht => ⟨?_, (hin t ht).2⟩
          by_contra hc
          have : t * t ≤ (lo + hi) / 2 * ((lo + hi) / 2) := Nat.mul_self_le_mul_self (by omega)
          omega
        · rename_i hne hge
          have hpos : 0 < (lo + hi) / 2 := by
            by_contra hc
            have h0 : (lo + hi) / 2 = 0 := by omega
            rw [h0] at hne hge
            omega
          refine ih _ _ (by omega) fun t ht => ⟨(hin t ht).1, ?_⟩
          by_contra hc
          have : (lo + hi) / 2 * ((lo + hi) / 2) ≤ t * t := Nat.mul_self_le_mul_self (by omega)
          omega

/-- `ISQRT_ALG(x)` is `Some r` exactly for `r*r = x` (R171). -/
theorem isqrtAlg_eq_some (x r : Nat) : isqrtAlg x = some r ↔ r * r = x :=
  isqrtLoop_spec x (x + 1) 0 x (by omega) (fun _ h => ⟨Nat.zero_le _, by nlinarith⟩) r

/-- `ISQRT_ALG(x)` is `None` exactly for a non-square (R171). -/
theorem isqrtAlg_eq_none (x : Nat) : isqrtAlg x = none ↔ ∀ r, r * r ≠ x := by
  rw [Option.eq_none_iff_forall_ne_some]
  exact forall_congr' fun r => not_congr (isqrtAlg_eq_some x r)

/-! Powers of two taken out (R182, R197). -/

theorem splitTwos_spec (fuel m : Nat) (hm : 0 < m) (hf : m ≤ fuel) :
    2 ^ (splitTwos fuel m).1 * (splitTwos fuel m).2 = m ∧ (splitTwos fuel m).2 % 2 = 1 := by
  induction fuel generalizing m with
  | zero => omega
  | succ fuel ih =>
    rw [splitTwos]
    split
    · obtain ⟨h1, h2⟩ := ih (m / 2) (by omega) (by omega)
      refine ⟨?_, h2⟩
      rw [pow_succ, mul_assoc, mul_comm 2, ← mul_assoc, h1]
      omega
    · exact ⟨by simp, by omega⟩

end Sys2Proof.Machine
end

