-- ==== Sys2Proof/Laws/Encoding.lean ====
section
/-! SUPPORT. The fields of a command word: cutting an assembled word gives the fields back, and masking a word masks its
fields. -/

namespace Sys2Proof

/-- The fields of an assembled word (R91). -/
@[simp] theorem Fields.ofWord_toWord (x : Fields) : Fields.ofWord x.toWord = x := by
  obtain ⟨opc, rd, ra, rb, rm, rd2, rd3, f, rsv⟩ := x
  simp only [Fields.ofWord, Fields.toWord, Fields.mk.injEq]
  refine ⟨?_, ?_, ?_, ?_, ?_, ?_, ?_, ?_, ?_⟩ <;>
    (ext i hi; interval_cases i <;> simp)

/-- A word is its fields put together (R91). -/
@[simp] theorem Fields.toWord_ofWord (w : Word) : (Fields.ofWord w).toWord = w := by
  ext i hi
  simp only [Fields.ofWord, Fields.toWord]
  interval_cases i <;> simp

/-- Two words masked together, field by field. -/
def Fields.and (x y : Fields) : Fields where
  opc := x.opc &&& y.opc
  rd := x.rd &&& y.rd
  ra := x.ra &&& y.ra
  rb := x.rb &&& y.rb
  rm := x.rm &&& y.rm
  rd2 := x.rd2 &&& y.rd2
  rd3 := x.rd3 &&& y.rd3
  f := x.f &&& y.f
  rsv := x.rsv &&& y.rsv

/-- Masking an assembled word masks each of its fields. -/
theorem Fields.toWord_and (x : Fields) (m : Word) : x.toWord &&& m = (x.and (Fields.ofWord m)).toWord := by
  conv_rhs => rw [← Fields.toWord_ofWord ((x.and (Fields.ofWord m)).toWord)]
  conv_lhs => rw [← Fields.toWord_ofWord (x.toWord &&& m)]
  congr 1
  rw [Fields.ofWord_toWord]
  conv_rhs => rw [← Fields.ofWord_toWord x]
  simp only [Fields.ofWord, Fields.and, Fields.mk.injEq]
  refine ⟨?_, ?_, ?_, ?_, ?_, ?_, ?_, ?_, ?_⟩ <;> (ext i hi; simp)

/-- Two assembled words are equal only with equal fields. -/
theorem Fields.toWord_inj (x y : Fields) : x.toWord = y.toWord ↔ x = y :=
  ⟨fun h => by rw [← Fields.ofWord_toWord x, h, Fields.ofWord_toWord], fun h => h ▸ rfl⟩

/-- A word carries a row's mask and match exactly when its fields do. -/
theorem Fields.toWord_masked (x : Fields) (mask mtch : Word) :
    x.toWord &&& mask = mtch ↔ x.and (Fields.ofWord mask) = Fields.ofWord mtch := by
  rw [Fields.toWord_and, ← Fields.toWord_inj, Fields.toWord_ofWord]

@[simp] theorem regOfBits_bitsOfReg (r : Reg) : regOfBits (bitsOfReg r) = r := rfl

@[simp] theorem bitsOfReg_regOfBits (b : BitVec 3) : bitsOfReg (regOfBits b) = b := rfl

end Sys2Proof
end

