-- ==== Sys2Proof/Laws/State.lean ====
section
/-! SUPPORT. What each update of the state leaves in each field: one lemma per field, so that no later proof unfolds an
update. -/

namespace Sys2Proof.Machine

variable (s : State)

/-! `State.writeReg` (R22). -/

@[simp] theorem State.writeReg_nword (r : Reg) (v : Int) : (s.writeReg r v).nword = s.nword := rfl
@[simp] theorem State.writeReg_wide (r : Reg) (v : Int) : (s.writeReg r v).wide = s.wide.set r (Wide.ofInt s.nword v) := rfl
@[simp] theorem State.writeReg_ie (r : Reg) (v : Int) : (s.writeReg r v).ie = s.ie := rfl
@[simp] theorem State.writeReg_done (r : Reg) (v : Int) : (s.writeReg r v).done = s.done := rfl
@[simp] theorem State.writeReg_found (r : Reg) (v : Int) : (s.writeReg r v).found = s.found := rfl
@[simp] theorem State.writeReg_ecode (r : Reg) (v : Int) : (s.writeReg r v).ecode = s.ecode := rfl
@[simp] theorem State.writeReg_busywr (r : Reg) (v : Int) : (s.writeReg r v).busywr = s.busywr := rfl
@[simp] theorem State.writeReg_result (r : Reg) (v : Int) : (s.writeReg r v).result = s.result := rfl
@[simp] theorem State.writeReg_iter (r : Reg) (v : Int) : (s.writeReg r v).iter = s.iter := rfl
@[simp] theorem State.writeReg_bitlen (r : Reg) (v : Int) : (s.writeReg r v).bitlen = s.bitlen := rfl
@[simp] theorem State.writeReg_persist (r : Reg) (v : Int) : (s.writeReg r v).persist = s.persist := rfl
@[simp] theorem State.writeReg_filtMod (r : Reg) (v : Int) : (s.writeReg r v).filtMod = s.filtMod := rfl
@[simp] theorem State.writeReg_filtRes (r : Reg) (v : Int) : (s.writeReg r v).filtRes = s.filtRes := rfl
@[simp] theorem State.writeReg_running (r : Reg) (v : Int) : (s.writeReg r v).running = s.running := rfl
@[simp] theorem State.writeReg_agenda (r : Reg) (v : Int) : (s.writeReg r v).agenda = s.agenda := rfl
@[simp] theorem State.writeReg_reply (r : Reg) (v : Int) : (s.writeReg r v).reply = s.reply := rfl
@[simp] theorem State.writeReg_rng (r : Reg) (v : Int) : (s.writeReg r v).rng = s.rng := rfl
@[simp] theorem State.writeReg_drawn (r : Reg) (v : Int) : (s.writeReg r v).drawn = s.drawn := rfl
@[simp] theorem State.writeReg_fresh (r : Reg) (v : Int) : (s.writeReg r v).fresh = s.fresh := rfl

/-! `State.writeRegs` (R232): only the wide registers change. -/

@[simp] theorem State.writeRegs_nword (ws : List (Reg × Int)) : (s.writeRegs ws).nword = s.nword := by
  induction ws generalizing s with
  | nil => rfl
  | cons p ws ih => exact ih (s.writeReg p.1 p.2)
@[simp] theorem State.writeRegs_ie (ws : List (Reg × Int)) : (s.writeRegs ws).ie = s.ie := by
  induction ws generalizing s with
  | nil => rfl
  | cons p ws ih => exact ih (s.writeReg p.1 p.2)
@[simp] theorem State.writeRegs_done (ws : List (Reg × Int)) : (s.writeRegs ws).done = s.done := by
  induction ws generalizing s with
  | nil => rfl
  | cons p ws ih => exact ih (s.writeReg p.1 p.2)
@[simp] theorem State.writeRegs_found (ws : List (Reg × Int)) : (s.writeRegs ws).found = s.found := by
  induction ws generalizing s with
  | nil => rfl
  | cons p ws ih => exact ih (s.writeReg p.1 p.2)
@[simp] theorem State.writeRegs_ecode (ws : List (Reg × Int)) : (s.writeRegs ws).ecode = s.ecode := by
  induction ws generalizing s with
  | nil => rfl
  | cons p ws ih => exact ih (s.writeReg p.1 p.2)
@[simp] theorem State.writeRegs_busywr (ws : List (Reg × Int)) : (s.writeRegs ws).busywr = s.busywr := by
  induction ws generalizing s with
  | nil => rfl
  | cons p ws ih => exact ih (s.writeReg p.1 p.2)
@[simp] theorem State.writeRegs_result (ws : List (Reg × Int)) : (s.writeRegs ws).result = s.result := by
  induction ws generalizing s with
  | nil => rfl
  | cons p ws ih => exact ih (s.writeReg p.1 p.2)
@[simp] theorem State.writeRegs_iter (ws : List (Reg × Int)) : (s.writeRegs ws).iter = s.iter := by
  induction ws generalizing s with
  | nil => rfl
  | cons p ws ih => exact ih (s.writeReg p.1 p.2)
@[simp] theorem State.writeRegs_bitlen (ws : List (Reg × Int)) : (s.writeRegs ws).bitlen = s.bitlen := by
  induction ws generalizing s with
  | nil => rfl
  | cons p ws ih => exact ih (s.writeReg p.1 p.2)
@[simp] theorem State.writeRegs_persist (ws : List (Reg × Int)) : (s.writeRegs ws).persist = s.persist := by
  induction ws generalizing s with
  | nil => rfl
  | cons p ws ih => exact ih (s.writeReg p.1 p.2)
@[simp] theorem State.writeRegs_filtMod (ws : List (Reg × Int)) : (s.writeRegs ws).filtMod = s.filtMod := by
  induction ws generalizing s with
  | nil => rfl
  | cons p ws ih => exact ih (s.writeReg p.1 p.2)
@[simp] theorem State.writeRegs_filtRes (ws : List (Reg × Int)) : (s.writeRegs ws).filtRes = s.filtRes := by
  induction ws generalizing s with
  | nil => rfl
  | cons p ws ih => exact ih (s.writeReg p.1 p.2)
@[simp] theorem State.writeRegs_running (ws : List (Reg × Int)) : (s.writeRegs ws).running = s.running := by
  induction ws generalizing s with
  | nil => rfl
  | cons p ws ih => exact ih (s.writeReg p.1 p.2)
@[simp] theorem State.writeRegs_agenda (ws : List (Reg × Int)) : (s.writeRegs ws).agenda = s.agenda := by
  induction ws generalizing s with
  | nil => rfl
  | cons p ws ih => exact ih (s.writeReg p.1 p.2)
@[simp] theorem State.writeRegs_reply (ws : List (Reg × Int)) : (s.writeRegs ws).reply = s.reply := by
  induction ws generalizing s with
  | nil => rfl
  | cons p ws ih => exact ih (s.writeReg p.1 p.2)
@[simp] theorem State.writeRegs_rng (ws : List (Reg × Int)) : (s.writeRegs ws).rng = s.rng := by
  induction ws generalizing s with
  | nil => rfl
  | cons p ws ih => exact ih (s.writeReg p.1 p.2)
@[simp] theorem State.writeRegs_drawn (ws : List (Reg × Int)) : (s.writeRegs ws).drawn = s.drawn := by
  induction ws generalizing s with
  | nil => rfl
  | cons p ws ih => exact ih (s.writeReg p.1 p.2)
@[simp] theorem State.writeRegs_fresh (ws : List (Reg × Int)) : (s.writeRegs ws).fresh = s.fresh := by
  induction ws generalizing s with
  | nil => rfl
  | cons p ws ih => exact ih (s.writeReg p.1 p.2)

/-! `State.complete` (R232). -/

@[simp] theorem State.complete_nword (ws : List (Reg × Int)) (f : Bool) (w n : Word) :
    (s.complete ws f w n).nword = s.nword := s.writeRegs_nword ws
@[simp] theorem State.complete_wide (ws : List (Reg × Int)) (f : Bool) (w n : Word) :
    (s.complete ws f w n).wide = (s.writeRegs ws).wide := rfl
@[simp] theorem State.complete_ie (ws : List (Reg × Int)) (f : Bool) (w n : Word) :
    (s.complete ws f w n).ie = s.ie := s.writeRegs_ie ws
@[simp] theorem State.complete_done (ws : List (Reg × Int)) (f : Bool) (w n : Word) :
    (s.complete ws f w n).done = true := rfl
@[simp] theorem State.complete_found (ws : List (Reg × Int)) (f : Bool) (w n : Word) :
    (s.complete ws f w n).found = f := rfl
@[simp] theorem State.complete_ecode (ws : List (Reg × Int)) (f : Bool) (w n : Word) :
    (s.complete ws f w n).ecode = .ok := rfl
@[simp] theorem State.complete_busywr (ws : List (Reg × Int)) (f : Bool) (w n : Word) :
    (s.complete ws f w n).busywr = s.busywr := s.writeRegs_busywr ws
@[simp] theorem State.complete_result (ws : List (Reg × Int)) (f : Bool) (w n : Word) :
    (s.complete ws f w n).result = w := rfl
@[simp] theorem State.complete_iter (ws : List (Reg × Int)) (f : Bool) (w n : Word) :
    (s.complete ws f w n).iter = n := rfl
@[simp] theorem State.complete_bitlen (ws : List (Reg × Int)) (f : Bool) (w n : Word) :
    (s.complete ws f w n).bitlen = s.bitlen := s.writeRegs_bitlen ws
@[simp] theorem State.complete_persist (ws : List (Reg × Int)) (f : Bool) (w n : Word) :
    (s.complete ws f w n).persist = s.persist := s.writeRegs_persist ws
@[simp] theorem State.complete_filtMod (ws : List (Reg × Int)) (f : Bool) (w n : Word) :
    (s.complete ws f w n).filtMod = s.filtMod := s.writeRegs_filtMod ws
@[simp] theorem State.complete_filtRes (ws : List (Reg × Int)) (f : Bool) (w n : Word) :
    (s.complete ws f w n).filtRes = s.filtRes := s.writeRegs_filtRes ws
@[simp] theorem State.complete_running (ws : List (Reg × Int)) (f : Bool) (w n : Word) :
    (s.complete ws f w n).running = none := rfl
@[simp] theorem State.complete_agenda (ws : List (Reg × Int)) (f : Bool) (w n : Word) :
    (s.complete ws f w n).agenda = s.agenda := s.writeRegs_agenda ws
@[simp] theorem State.complete_reply (ws : List (Reg × Int)) (f : Bool) (w n : Word) :
    (s.complete ws f w n).reply = s.reply := s.writeRegs_reply ws
@[simp] theorem State.complete_rng (ws : List (Reg × Int)) (f : Bool) (w n : Word) :
    (s.complete ws f w n).rng = s.rng := s.writeRegs_rng ws
@[simp] theorem State.complete_drawn (ws : List (Reg × Int)) (f : Bool) (w n : Word) :
    (s.complete ws f w n).drawn = s.drawn := s.writeRegs_drawn ws
@[simp] theorem State.complete_fresh (ws : List (Reg × Int)) (f : Bool) (w n : Word) :
    (s.complete ws f w n).fresh = s.fresh := s.writeRegs_fresh ws

/-! `State.raise` (R233). -/

@[simp] theorem State.raise_nword (e : ErrorCode) : (s.raise e).nword = s.nword := rfl
@[simp] theorem State.raise_wide (e : ErrorCode) : (s.raise e).wide = s.wide := rfl
@[simp] theorem State.raise_ie (e : ErrorCode) : (s.raise e).ie = s.ie := rfl
@[simp] theorem State.raise_done (e : ErrorCode) : (s.raise e).done = true := rfl
@[simp] theorem State.raise_found (e : ErrorCode) : (s.raise e).found = false := rfl
@[simp] theorem State.raise_ecode (e : ErrorCode) : (s.raise e).ecode = e := rfl
@[simp] theorem State.raise_busywr (e : ErrorCode) : (s.raise e).busywr = s.busywr := rfl
@[simp] theorem State.raise_result (e : ErrorCode) : (s.raise e).result = 0#32 := rfl
@[simp] theorem State.raise_iter (e : ErrorCode) : (s.raise e).iter = 0#32 := rfl
@[simp] theorem State.raise_bitlen (e : ErrorCode) : (s.raise e).bitlen = s.bitlen := rfl
@[simp] theorem State.raise_persist (e : ErrorCode) : (s.raise e).persist = s.persist := rfl
@[simp] theorem State.raise_filtMod (e : ErrorCode) : (s.raise e).filtMod = s.filtMod := rfl
@[simp] theorem State.raise_filtRes (e : ErrorCode) : (s.raise e).filtRes = s.filtRes := rfl
@[simp] theorem State.raise_running (e : ErrorCode) : (s.raise e).running = none := rfl
@[simp] theorem State.raise_agenda (e : ErrorCode) : (s.raise e).agenda = s.agenda := rfl
@[simp] theorem State.raise_reply (e : ErrorCode) : (s.raise e).reply = s.reply := rfl
@[simp] theorem State.raise_rng (e : ErrorCode) : (s.raise e).rng = s.rng := rfl
@[simp] theorem State.raise_drawn (e : ErrorCode) : (s.raise e).drawn = s.drawn := rfl
@[simp] theorem State.raise_fresh (e : ErrorCode) : (s.raise e).fresh = s.fresh := rfl

/-! `State.accept` (R231). -/

@[simp] theorem State.accept_nword (c : Word) : (s.accept c).nword = s.nword := rfl
@[simp] theorem State.accept_wide (c : Word) : (s.accept c).wide = s.wide := rfl
@[simp] theorem State.accept_ie (c : Word) : (s.accept c).ie = s.ie := rfl
@[simp] theorem State.accept_done (c : Word) : (s.accept c).done = false := rfl
@[simp] theorem State.accept_found (c : Word) : (s.accept c).found = false := rfl
@[simp] theorem State.accept_ecode (c : Word) : (s.accept c).ecode = .ok := rfl
@[simp] theorem State.accept_busywr (c : Word) : (s.accept c).busywr = s.busywr := rfl
@[simp] theorem State.accept_result (c : Word) : (s.accept c).result = 0#32 := rfl
@[simp] theorem State.accept_iter (c : Word) : (s.accept c).iter = 0#32 := rfl
@[simp] theorem State.accept_bitlen (c : Word) : (s.accept c).bitlen = s.bitlen := rfl
@[simp] theorem State.accept_persist (c : Word) : (s.accept c).persist = s.persist := rfl
@[simp] theorem State.accept_filtMod (c : Word) : (s.accept c).filtMod = s.filtMod := rfl
@[simp] theorem State.accept_filtRes (c : Word) : (s.accept c).filtRes = s.filtRes := rfl
@[simp] theorem State.accept_running (c : Word) : (s.accept c).running = some (s.latchOf c) := rfl
@[simp] theorem State.accept_agenda (c : Word) : (s.accept c).agenda = s.agenda := rfl
@[simp] theorem State.accept_reply (c : Word) : (s.accept c).reply = s.reply := rfl
@[simp] theorem State.accept_rng (c : Word) : (s.accept c).rng = s.rng := rfl
@[simp] theorem State.accept_drawn (c : Word) : (s.accept c).drawn = s.drawn := rfl
@[simp] theorem State.accept_fresh (c : Word) : (s.accept c).fresh = s.fresh := rfl

/-! `State.consumeTo` (R80). -/

@[simp] theorem State.consumeTo_nword (ws : List Word) : (s.consumeTo ws).nword = s.nword := rfl
@[simp] theorem State.consumeTo_wide (ws : List Word) : (s.consumeTo ws).wide = s.wide := rfl
@[simp] theorem State.consumeTo_ie (ws : List Word) : (s.consumeTo ws).ie = s.ie := rfl
@[simp] theorem State.consumeTo_done (ws : List Word) : (s.consumeTo ws).done = s.done := rfl
@[simp] theorem State.consumeTo_found (ws : List Word) : (s.consumeTo ws).found = s.found := rfl
@[simp] theorem State.consumeTo_ecode (ws : List Word) : (s.consumeTo ws).ecode = s.ecode := rfl
@[simp] theorem State.consumeTo_busywr (ws : List Word) : (s.consumeTo ws).busywr = s.busywr := rfl
@[simp] theorem State.consumeTo_result (ws : List Word) : (s.consumeTo ws).result = s.result := rfl
@[simp] theorem State.consumeTo_iter (ws : List Word) : (s.consumeTo ws).iter = s.iter := rfl
@[simp] theorem State.consumeTo_bitlen (ws : List Word) : (s.consumeTo ws).bitlen = s.bitlen := rfl
@[simp] theorem State.consumeTo_persist (ws : List Word) : (s.consumeTo ws).persist = s.persist := rfl
@[simp] theorem State.consumeTo_filtMod (ws : List Word) : (s.consumeTo ws).filtMod = s.filtMod := rfl
@[simp] theorem State.consumeTo_filtRes (ws : List Word) : (s.consumeTo ws).filtRes = s.filtRes := rfl
@[simp] theorem State.consumeTo_running (ws : List Word) : (s.consumeTo ws).running = s.running := rfl
@[simp] theorem State.consumeTo_agenda (ws : List Word) : (s.consumeTo ws).agenda = s.agenda := rfl
@[simp] theorem State.consumeTo_reply (ws : List Word) : (s.consumeTo ws).reply = s.reply := rfl
@[simp] theorem State.consumeTo_rng (ws : List Word) : (s.consumeTo ws).rng = ws := rfl
@[simp] theorem State.consumeTo_drawn (ws : List Word) : (s.consumeTo ws).drawn = s.drawn + (s.rng.length - ws.length) := rfl
@[simp] theorem State.consumeTo_fresh (ws : List Word) : (s.consumeTo ws).fresh = s.fresh := rfl

/-! `State.writeStatus` (R38). -/

@[simp] theorem State.writeStatus_nword (v : Word) : (s.writeStatus v).nword = s.nword := rfl
@[simp] theorem State.writeStatus_wide (v : Word) : (s.writeStatus v).wide = s.wide := rfl
@[simp] theorem State.writeStatus_ie (v : Word) : (s.writeStatus v).ie = s.ie := rfl
@[simp] theorem State.writeStatus_done (v : Word) : (s.writeStatus v).done = (s.done && !v.getLsbD 1) := rfl
@[simp] theorem State.writeStatus_found (v : Word) : (s.writeStatus v).found = s.found := rfl
@[simp] theorem State.writeStatus_ecode (v : Word) : (s.writeStatus v).ecode = s.ecode := rfl
@[simp] theorem State.writeStatus_busywr (v : Word) : (s.writeStatus v).busywr = (s.busywr && !v.getLsbD 7) := rfl
@[simp] theorem State.writeStatus_result (v : Word) : (s.writeStatus v).result = s.result := rfl
@[simp] theorem State.writeStatus_iter (v : Word) : (s.writeStatus v).iter = s.iter := rfl
@[simp] theorem State.writeStatus_bitlen (v : Word) : (s.writeStatus v).bitlen = s.bitlen := rfl
@[simp] theorem State.writeStatus_persist (v : Word) : (s.writeStatus v).persist = s.persist := rfl
@[simp] theorem State.writeStatus_filtMod (v : Word) : (s.writeStatus v).filtMod = s.filtMod := rfl
@[simp] theorem State.writeStatus_filtRes (v : Word) : (s.writeStatus v).filtRes = s.filtRes := rfl
@[simp] theorem State.writeStatus_running (v : Word) : (s.writeStatus v).running = s.running := rfl
@[simp] theorem State.writeStatus_agenda (v : Word) : (s.writeStatus v).agenda = s.agenda := rfl
@[simp] theorem State.writeStatus_reply (v : Word) : (s.writeStatus v).reply = s.reply := rfl
@[simp] theorem State.writeStatus_rng (v : Word) : (s.writeStatus v).rng = s.rng := rfl
@[simp] theorem State.writeStatus_drawn (v : Word) : (s.writeStatus v).drawn = s.drawn := rfl
@[simp] theorem State.writeStatus_fresh (v : Word) : (s.writeStatus v).fresh = s.fresh := rfl

/-! `State.writeCtrl` (R37). -/

@[simp] theorem State.writeCtrl_nword (v : Word) : (s.writeCtrl v).nword = s.nword := rfl
@[simp] theorem State.writeCtrl_wide (v : Word) : (s.writeCtrl v).wide = s.wide := rfl
@[simp] theorem State.writeCtrl_ie (v : Word) : (s.writeCtrl v).ie = v.getLsbD 0 := rfl
@[simp] theorem State.writeCtrl_done (v : Word) : (s.writeCtrl v).done = s.done := rfl
@[simp] theorem State.writeCtrl_found (v : Word) : (s.writeCtrl v).found = s.found := rfl
@[simp] theorem State.writeCtrl_ecode (v : Word) : (s.writeCtrl v).ecode = s.ecode := rfl
@[simp] theorem State.writeCtrl_busywr (v : Word) : (s.writeCtrl v).busywr = s.busywr := rfl
@[simp] theorem State.writeCtrl_result (v : Word) : (s.writeCtrl v).result = s.result := rfl
@[simp] theorem State.writeCtrl_iter (v : Word) : (s.writeCtrl v).iter = s.iter := rfl
@[simp] theorem State.writeCtrl_bitlen (v : Word) : (s.writeCtrl v).bitlen = s.bitlen := rfl
@[simp] theorem State.writeCtrl_persist (v : Word) : (s.writeCtrl v).persist = s.persist := rfl
@[simp] theorem State.writeCtrl_filtMod (v : Word) : (s.writeCtrl v).filtMod = s.filtMod := rfl
@[simp] theorem State.writeCtrl_filtRes (v : Word) : (s.writeCtrl v).filtRes = s.filtRes := rfl
@[simp] theorem State.writeCtrl_running (v : Word) : (s.writeCtrl v).running = 
      s.running.map fun l => { l with abortReq := l.abortReq || v.getLsbD 1 } := rfl
@[simp] theorem State.writeCtrl_agenda (v : Word) : (s.writeCtrl v).agenda = s.agenda := rfl
@[simp] theorem State.writeCtrl_reply (v : Word) : (s.writeCtrl v).reply = s.reply := rfl
@[simp] theorem State.writeCtrl_rng (v : Word) : (s.writeCtrl v).rng = s.rng := rfl
@[simp] theorem State.writeCtrl_drawn (v : Word) : (s.writeCtrl v).drawn = s.drawn := rfl
@[simp] theorem State.writeCtrl_fresh (v : Word) : (s.writeCtrl v).fresh = s.fresh := rfl

/-! `State.hostRead` (R62). -/

@[simp] theorem State.hostRead_nword (a : PortIndex) : (s.hostRead a).nword = s.nword := rfl
@[simp] theorem State.hostRead_wide (a : PortIndex) : (s.hostRead a).wide = s.wide := rfl
@[simp] theorem State.hostRead_ie (a : PortIndex) : (s.hostRead a).ie = s.ie := rfl
@[simp] theorem State.hostRead_done (a : PortIndex) : (s.hostRead a).done = s.done := rfl
@[simp] theorem State.hostRead_found (a : PortIndex) : (s.hostRead a).found = s.found := rfl
@[simp] theorem State.hostRead_ecode (a : PortIndex) : (s.hostRead a).ecode = s.ecode := rfl
@[simp] theorem State.hostRead_busywr (a : PortIndex) : (s.hostRead a).busywr = s.busywr := rfl
@[simp] theorem State.hostRead_result (a : PortIndex) : (s.hostRead a).result = s.result := rfl
@[simp] theorem State.hostRead_iter (a : PortIndex) : (s.hostRead a).iter = s.iter := rfl
@[simp] theorem State.hostRead_bitlen (a : PortIndex) : (s.hostRead a).bitlen = s.bitlen := rfl
@[simp] theorem State.hostRead_persist (a : PortIndex) : (s.hostRead a).persist = s.persist := rfl
@[simp] theorem State.hostRead_filtMod (a : PortIndex) : (s.hostRead a).filtMod = s.filtMod := rfl
@[simp] theorem State.hostRead_filtRes (a : PortIndex) : (s.hostRead a).filtRes = s.filtRes := rfl
@[simp] theorem State.hostRead_running (a : PortIndex) : (s.hostRead a).running = s.running := rfl
@[simp] theorem State.hostRead_agenda (a : PortIndex) : (s.hostRead a).agenda = s.agenda := rfl
@[simp] theorem State.hostRead_reply (a : PortIndex) : (s.hostRead a).reply = some (s.portRead a) := rfl
@[simp] theorem State.hostRead_rng (a : PortIndex) : (s.hostRead a).rng = s.rng := rfl
@[simp] theorem State.hostRead_drawn (a : PortIndex) : (s.hostRead a).drawn = s.drawn := rfl
@[simp] theorem State.hostRead_fresh (a : PortIndex) : (s.hostRead a).fresh = 
      if s.busy && (portWord s.nword a).readsFreeWhileBusy then s.fresh + 1 else s.fresh := rfl

/-! The latch (R231). -/

@[simp] theorem State.latchOf_cmd (c : Word) : (s.latchOf c).cmd = c := rfl
@[simp] theorem State.latchOf_wide (c : Word) : (s.latchOf c).wide = s.wide := rfl
@[simp] theorem State.latchOf_bitlen (c : Word) : (s.latchOf c).bitlen = s.bitlen := rfl
@[simp] theorem State.latchOf_persist (c : Word) : (s.latchOf c).persist = s.persist := rfl
@[simp] theorem State.latchOf_filtMod (c : Word) : (s.latchOf c).filtMod = s.filtMod := rfl
@[simp] theorem State.latchOf_filtRes (c : Word) : (s.latchOf c).filtRes = s.filtRes := rfl
@[simp] theorem State.latchOf_abortReq (c : Word) : (s.latchOf c).abortReq = false := rfl

/-! BUSY (R38). -/

@[simp] theorem State.complete_busy (ws : List (Reg × Int)) (f : Bool) (w n : Word) :
    (s.complete ws f w n).busy = false := rfl
@[simp] theorem State.raise_busy (e : ErrorCode) : (s.raise e).busy = false := rfl
@[simp] theorem State.accept_busy (c : Word) : (s.accept c).busy = true := rfl
@[simp] theorem State.hold_busy (c : Word) : (s.hold c).busy = true := by
  unfold State.hold State.busy
  cases h : s.running <;> simp [h]

end Sys2Proof.Machine
end

