-- ==== Sys2Proof/Laws/Ops.lean ====
section
/-! SUPPORT. What the shared operations do: integers and words, writing wide registers, completing and failing. -/

namespace Sys2Proof.Machine

/-! Integers and words (R66). -/

@[simp] theorem wordsOfNat_length (n v : Nat) : (wordsOfNat n v).length = n := by
  induction n generalizing v with
  | zero => rfl
  | succ n ih => simp [wordsOfNat, ih]

theorem natOfWords_lt (ws : List Word) : natOfWords ws < 2 ^ (32 * ws.length) := by
  induction ws with
  | nil => simp [natOfWords]
  | cons w ws ih =>
    have hw := w.isLt
    have e : 2 ^ (32 * (w :: ws).length) = 2 ^ 32 * 2 ^ (32 * ws.length) := by
      rw [← pow_add]; congr 1; simp; ring
    rw [e, natOfWords]
    omega

theorem natOfWords_wordsOfNat (n v : Nat) : natOfWords (wordsOfNat n v) = v % 2 ^ (32 * n) := by
  induction n generalizing v with
  | zero => simp [wordsOfNat, natOfWords, Nat.mod_one]
  | succ n ih =>
    have e : 2 ^ (32 * (n + 1)) = 2 ^ 32 * 2 ^ (32 * n) := by rw [← pow_add]; congr 1; ring
    rw [wordsOfNat, natOfWords, ih, e, BitVec.toNat_ofNat, Nat.mod_mul]

theorem Wide.mag_lt (w : Wide) : w.mag < 2 ^ (32 * w.words.length) := natOfWords_lt w.words

theorem Wide.value_natAbs (w : Wide) : w.value.natAbs = w.mag := by
  unfold Wide.value; split <;> simp

@[simp] theorem Wide.ofInt_length (n : Nat) (v : Int) : (Wide.ofInt n v).words.length = n := wordsOfNat_length n _

@[simp] theorem Wide.ofInt_sign (n : Nat) (v : Int) : (Wide.ofInt n v).sign = decide (v < 0) := rfl

/-- A value within the width is held exactly (R22). -/
theorem Wide.value_ofInt (n : Nat) (v : Int) (h : v.natAbs < 2 ^ (32 * n)) : (Wide.ofInt n v).value = v := by
  have hm : (Wide.ofInt n v).mag = v.natAbs :=
    (natOfWords_wordsOfNat n v.natAbs).trans (Nat.mod_eq_of_lt h)
  unfold Wide.value
  rw [hm, Wide.ofInt_sign]
  by_cases hv : v < 0
  · simp [hv, abs_of_neg]
  · simp [hv, abs_of_nonneg (not_lt.mp hv)]

/-! Writing wide registers (R22, R232). -/

theorem State.writeReg_get (s : State) (r r' : Reg) (v : Int) :
    ((s.writeReg r v).wide[r']) = if r = r' then Wide.ofInt s.nword v else s.wide[r'] := by
  simp only [State.writeReg_wide, Fin.getElem_fin, Vector.getElem_set, Fin.val_inj]

theorem State.writeRegs_get_other (s : State) (ws : List (Reg × Int)) (r : Reg) (h : r ∉ ws.map Prod.fst) :
    (s.writeRegs ws).wide[r] = s.wide[r] := by
  induction ws generalizing s with
  | nil => rfl
  | cons p ws ih =>
    simp only [List.map_cons, List.mem_cons, not_or] at h
    rw [State.writeRegs, ih _ h.2, State.writeReg_get, if_neg (Ne.symm h.1)]

theorem State.writeRegs_get (s : State) (ws : List (Reg × Int)) (hd : (ws.map Prod.fst).Nodup)
    (p : Reg × Int) (hp : p ∈ ws) : (s.writeRegs ws).wide[p.1] = Wide.ofInt s.nword p.2 := by
  induction ws generalizing s with
  | nil => cases hp
  | cons q ws ih =>
    simp only [List.map_cons, List.nodup_cons] at hd
    rcases List.mem_cons.mp hp with rfl | hp
    · rw [State.writeRegs, State.writeRegs_get_other _ _ _ hd.1, State.writeReg_get, if_pos rfl]
    · rw [State.writeRegs, ih _ hd.2 hp, State.writeReg_nword]

/-- Every word count is kept by register writes (R21). -/
theorem State.writeRegs_words (s : State) (ws : List (Reg × Int)) (h : ∀ r : Reg, (s.wide[r]).words.length = s.nword)
    (r : Reg) : ((s.writeRegs ws).wide[r]).words.length = s.nword := by
  induction ws generalizing s with
  | nil => exact h r
  | cons p ws ih =>
    rw [State.writeRegs]
    refine ih (s.writeReg p.1 p.2) fun r' => ?_
    rw [State.writeReg_get]
    split
    · simp
    · simpa using h r'

/-- What a completion does (R232): with distinct destinations and values within the width, everything `Completed` says,
and no random word consumed. -/
theorem State.complete_completed (s : State) (ws : List (Reg × Int)) (f : Bool) (w n : Word)
    (hd : (ws.map Prod.fst).Nodup) (hb : ∀ p ∈ ws, p.2.natAbs < 2 ^ s.width) :
    Completed s (s.complete ws f w n) ws f w n where
  written p hp := by
    rw [State.reg, State.complete_wide, State.writeRegs_get s ws hd p hp]
    exact Wide.value_ofInt _ _ (hb p hp)
  positiveZero p hp h0 := by rw [State.complete_wide, State.writeRegs_get s ws hd p hp]; simp [h0]
  others r hr := by rw [State.complete_wide]; exact State.writeRegs_get_other s ws r hr
  found := rfl
  result := rfl
  iter := rfl
  ecode := rfl
  done := rfl
  idle := rfl
  settings := by constructor <;> simp

/-- What ending with an error does (R233). -/
theorem State.raise_failed (s : State) (e : ErrorCode) : Failed s (s.raise e) e := by
  refine ⟨rfl, rfl, rfl, rfl, rfl, rfl, rfl, ?_, rfl, rfl⟩
  constructor <;> rfl

/-! Operands (R24, R50). -/

/-- A source operand of a running command is the latched register. -/
theorem State.src_of_running (s : State) (l : Latch) (h : s.running = some l) (r : Reg) : s.src r = (l.wide[r]).value := by
  simp [State.src, State.latched, h]

/-- A source operand in an idle state is the register itself. -/
theorem State.src_of_idle (s : State) (h : s.running = none) (r : Reg) : s.src r = s.reg r := by
  simp [State.src, State.latched, h, State.reg]

/-- Under the invariant a source operand is the register's value, whether a command runs or not (R70). -/
theorem State.Inv.src_eq (s : State) (h : s.Inv) (r : Reg) : s.src r = s.reg r := by
  cases hr : s.running with
  | none => exact s.src_of_idle hr r
  | some l => rw [s.src_of_running l hr, (h.latch l hr).1, State.reg]

/-- Every operand is within the width (R21). -/
theorem State.Inv.reg_lt (s : State) (h : s.Inv) (r : Reg) : (s.reg r).natAbs < 2 ^ s.width := by
  rw [State.reg, Wide.value_natAbs, State.width, ← h.words r]
  exact Wide.mag_lt _

end Sys2Proof.Machine
end

