-- ==== Sys2Proof/Laws/Random.lean ====
section
/-! SUPPORT. What drawing does to the list of random words: it takes words off its front (R80), and a candidate takes at
least one. -/

namespace Sys2Proof.Machine

theorem drawBits_eq_some (k : Nat) (ws rest : List Word) (v : Nat) :
    drawBits k ws = some (v, rest) ↔
      drawWords k ≤ ws.length ∧ v = natOfWords (ws.take (drawWords k)) % 2 ^ k ∧ rest = ws.drop (drawWords k) := by
  unfold drawBits
  split
  · simp only [reduceCtorEq, false_iff]; omega
  · simp only [Option.some.injEq, Prod.mk.injEq]; constructor
    · rintro ⟨rfl, rfl⟩; exact ⟨by omega, rfl, rfl⟩
    · rintro ⟨-, rfl, rfl⟩; exact ⟨rfl, rfl⟩

theorem drawBits_lt (k : Nat) (ws rest : List Word) (v : Nat) (h : drawBits k ws = some (v, rest)) : v < 2 ^ k := by
  rw [((drawBits_eq_some k ws rest v).mp h).2.1]
  exact Nat.mod_lt _ (by positivity)

theorem drawBits_suffix (k : Nat) (ws rest : List Word) (v : Nat) (h : drawBits k ws = some (v, rest)) :
    rest <:+ ws := by
  rw [((drawBits_eq_some k ws rest v).mp h).2.2]
  exact List.drop_suffix _ _

/-- `DrawBits(k)` for `k >= 1` takes at least one word. -/
theorem drawBits_shorter (k : Nat) (hk : 1 ≤ k) (ws rest : List Word) (v : Nat) (h : drawBits k ws = some (v, rest)) :
    rest.length < ws.length := by
  obtain ⟨h1, -, rfl⟩ := (drawBits_eq_some k ws rest v).mp h
  have : 1 ≤ drawWords k := by unfold drawWords; omega
  rw [List.length_drop]; omega

theorem mrRounds_suffix (m s d rounds : Nat) (ws rest : List Word) (b : Bool)
    (h : mrRounds m s d rounds ws = some (b, rest)) : rest <:+ ws := by
  induction rounds generalizing ws with
  | zero =>
    simp only [mrRounds, Option.some.injEq, Prod.mk.injEq] at h
    exact h.2 ▸ List.suffix_refl _
  | succ n ih =>
    rw [mrRounds] at h
    split at h
    · cases h
    · rename_i draw w1 hd
      have h1 := drawBits_suffix _ _ _ _ hd
      split at h
      · exact (ih _ h).trans h1
      · simp only [Option.some.injEq, Prod.mk.injEq] at h
        exact h.2 ▸ h1

theorem millerRabin_suffix (n rounds : Nat) (ws rest : List Word) (b : Bool)
    (h : millerRabin n rounds ws = some (b, rest)) : rest <:+ ws := by
  unfold millerRabin at h
  split_ifs at h
  all_goals first
    | exact mrRounds_suffix _ _ _ _ _ _ _ h
    | (simp only [Option.some.injEq, Prod.mk.injEq] at h; exact h.2 ▸ List.suffix_refl _)

/-- The loop with fuel is the relation: fuel above the number of words is enough, since each candidate takes one. -/
theorem samplePrime_eq_some (len rounds : Nat) (filter : Option (Nat × Nat)) (hl : 1 ≤ len) (fuel k : Nat)
    (ws : List Word) (hf : ws.length < fuel) (x : Sampled) :
    samplePrime len rounds filter fuel k ws = some x ↔
      ∃ n, x.attempts = k + n ∧ SamplesPrime len rounds filter ws n x.prime x.rest := by
  induction fuel generalizing k ws with
  | zero => omega
  | succ fuel ih =>
    rw [samplePrime]
    cases hd : drawBits len ws with
    | none =>
      simp only [reduceCtorEq, false_iff, not_exists, not_and]
      intro n _ hs
      cases hs <;> simp_all
    | some p =>
      obtain ⟨draw, w1⟩ := p
      have h1 := drawBits_shorter len hl ws w1 draw hd
      simp only
      cases hfr : filterRejects filter (candidateOfDraw len draw) with
      | true =>
        rw [if_pos rfl, ih (k + 1) w1 (by omega)]
        constructor
        · rintro ⟨n, hn, hs⟩
          exact ⟨n + 1, by omega, .filtered hd hfr hs⟩
        · rintro ⟨n, hn, hs⟩
          cases hs with
          | accept hd' hc' hfr' _ => simp_all
          | @filtered _ w1' _ draw' n' _ hd' hfr' hs' =>
            obtain ⟨rfl, rfl⟩ : draw' = draw ∧ w1' = w1 := by simp_all
            exact ⟨n', by omega, hs'⟩
          | composite hd' hfr' _ _ => simp_all
      | false =>
        rw [if_neg (by simp)]
        cases hm : millerRabin (candidateOfDraw len draw) rounds w1 with
        | none =>
          simp only [reduceCtorEq, false_iff, not_exists, not_and]
          intro n _ hs
          cases hs <;> simp_all
        | some q =>
          obtain ⟨b, w2⟩ := q
          have h2 := (millerRabin_suffix _ _ _ _ _ hm).length_le
          cases b with
          | true =>
            simp only [Option.some.injEq]
            constructor
            · rintro rfl
              exact ⟨1, rfl, .accept hd rfl hfr hm⟩
            · rintro ⟨n, hn, hs⟩
              obtain ⟨prime, attempts, rest⟩ := x
              cases hs <;> simp_all
          | false =>
            simp only
            rw [ih (k + 1) w2 (by omega)]
            constructor
            · rintro ⟨n, hn, hs⟩
              exact ⟨n + 1, by omega, .composite hd hfr hm hs⟩
            · rintro ⟨n, hn, hs⟩
              cases hs with
              | accept hd' hc' hfr' hm' => simp_all
              | filtered hd' hfr' _ => simp_all
              | @composite _ w1' w2' _ draw' n' _ hd' hfr' hm' hs' =>
                obtain ⟨rfl, rfl⟩ : draw' = draw ∧ w1' = w1 := by simp_all
                obtain rfl : w2' = w2 := by simp_all
                exact ⟨n', by omega, hs'⟩

/-- The candidate of a draw, bit by bit (R205): the draw with the top bit and bit 0 set. -/
theorem candidateOfDraw_testBit (len draw k : Nat) :
    (candidateOfDraw len draw).testBit k = true ↔ k = 0 ∨ k = len - 1 ∨ draw.testBit k = true := by
  rw [candidateOfDraw, Nat.testBit_or, Nat.testBit_or, Nat.testBit_two_pow, Bool.or_eq_true, Bool.or_eq_true,
    Nat.testBit_one_eq_true_iff_self_eq_zero, decide_eq_true_iff]
  grind

/-- The accepted candidate is that of a draw from the words supplied, and it passed the test on the words after it. -/
theorem SamplesPrime.accepted {len rounds : Nat} {filter : Option (Nat × Nat)} {ws rest : List Word} {n c : Nat}
    (h : SamplesPrime len rounds filter ws n c rest) :
    ∃ ws' draw w1, ws' <:+ ws ∧ drawBits len ws' = some (draw, w1) ∧ c = candidateOfDraw len draw ∧
      filterRejects filter c = false ∧ millerRabin c rounds w1 = some (true, rest) := by
  induction h with
  | accept hd hc hf hm => exact ⟨_, _, _, List.suffix_refl _, hd, hc, hf, hm⟩
  | filtered hd _ _ ih =>
    obtain ⟨ws', draw, w1, hs, h⟩ := ih
    exact ⟨ws', draw, w1, hs.trans (drawBits_suffix _ _ _ _ hd), h⟩
  | composite hd _ hm _ ih =>
    obtain ⟨ws', draw, w1, hs, h⟩ := ih
    exact ⟨ws', draw, w1, hs.trans ((millerRabin_suffix _ _ _ _ _ hm).trans (drawBits_suffix _ _ _ _ hd)), h⟩

theorem SamplesPrime.suffix {len rounds : Nat} {filter : Option (Nat × Nat)} {ws rest : List Word} {n c : Nat}
    (h : SamplesPrime len rounds filter ws n c rest) : rest <:+ ws := by
  induction h with
  | accept hd _ _ hm => exact (millerRabin_suffix _ _ _ _ _ hm).trans (drawBits_suffix _ _ _ _ hd)
  | filtered hd _ _ ih => exact ih.trans (drawBits_suffix _ _ _ _ hd)
  | composite hd _ hm _ ih =>
    exact ih.trans ((millerRabin_suffix _ _ _ _ _ hm).trans (drawBits_suffix _ _ _ _ hd))

end Sys2Proof.Machine
end

