-- ==== Sys2Proof/Laws/Exec.lean ====
section
/-! SUPPORT. Everything a meaning can do, said once: it ends with one of three error codes, completes, or, a prime command
only, waits for random words. -/

namespace Sys2Proof.Machine

@[simp] theorem State.consumeTo_self (s : State) : s.consumeTo s.rng = s := by
  cases s; simp [State.consumeTo]

/-- A completion of the command `i`: what it may write and report, and the random words it took. -/
structure CompletesAs (i : Instr) (s t : State) : Prop where
  /-- The completed state: the random words down to a suffix of those supplied consumed, then `complete` (R232). -/
  form : ∃ rest ws f w n, t = (s.consumeTo rest).complete ws f w n ∧ rest <:+ s.rng ∧
    (∀ p ∈ ws, p.1 ∈ i.dests) ∧ (w = 0#32 ∨ w = 1#32 ∨ w = 0xFFFFFFFF#32) ∧
    ((∀ ra, i ≠ .isprime ra) → (∀ rd f, i ≠ .genprime rd f) → rest = s.rng)

/-- A completion of a command that draws nothing. -/
theorem CompletesAs.plain (i : Instr) (s : State) (ws : List (Reg × Int)) (f : Bool) (w n : Word)
    (hd : ∀ p ∈ ws, p.1 ∈ i.dests) (hw : w = 0#32 ∨ w = 1#32 ∨ w = 0xFFFFFFFF#32) :
    CompletesAs i s (s.complete ws f w n) :=
  ⟨s.rng, ws, f, w, n, by rw [State.consumeTo_self], List.suffix_refl _, hd, hw, fun _ _ => rfl⟩

/-- What a command does: it ends with an error, completes, or stays in execution. -/
def Outcomes (i : Instr) (s t : State) : Prop :=
  (∃ e, t = s.raise e ∧ (e = .mathError ∨ e = .illegalCmd ∨ e = .operandRange)) ∨ CompletesAs i s t ∨
    (t = s.hold (encode i) ∧ ((∃ ra, i = .isprime ra) ∨ ∃ rd f, i = .genprime rd f))

theorem Outcomes.mathError (i : Instr) (s : State) : Outcomes i s (s.raise .mathError) :=
  .inl ⟨_, rfl, .inl rfl⟩

theorem Outcomes.illegalCmd (i : Instr) (s : State) : Outcomes i s (s.raise .illegalCmd) :=
  .inl ⟨_, rfl, .inr (.inl rfl)⟩

theorem Outcomes.operandRange (i : Instr) (s : State) : Outcomes i s (s.raise .operandRange) :=
  .inl ⟨_, rfl, .inr (.inr rfl)⟩

theorem Outcomes.plain (i : Instr) (s : State) (ws : List (Reg × Int)) (f : Bool) (w n : Word)
    (hd : ∀ p ∈ ws, p.1 ∈ i.dests) (hw : w = 0#32 ∨ w = 1#32 ∨ w = 0xFFFFFFFF#32) :
    Outcomes i s (s.complete ws f w n) :=
  .inr (.inl (.plain i s ws f w n hd hw))

/-- A Jacobi symbol is -1, 0 or 1 (R13), so RESULT is one of three words (R33). -/
theorem jacobiHalve_sign (n fuel a : Nat) (t : Int) (ht : t = 1 ∨ t = -1) :
    (jacobiHalve n fuel a t).2 = 1 ∨ (jacobiHalve n fuel a t).2 = -1 := by
  induction fuel generalizing a t with
  | zero => exact ht
  | succ fuel ih =>
    rw [jacobiHalve]
    split
    · refine ih _ _ ?_; split_ifs <;> omega
    · exact ht

theorem jacobiLoop_values (fuel a n : Nat) (t : Int) (ht : t = 1 ∨ t = -1) :
    jacobiLoop fuel a n t = -1 ∨ jacobiLoop fuel a n t = 0 ∨ jacobiLoop fuel a n t = 1 := by
  induction fuel generalizing a n t with
  | zero => exact .inr (.inl rfl)
  | succ fuel ih =>
    rw [jacobiLoop]
    split
    · split_ifs <;> omega
    · refine ih _ _ _ ?_
      have := jacobiHalve_sign n a a t ht
      split_ifs <;> omega

theorem sext32_jacobi (a n : Nat) :
    sext32 (jacobi a n) = 0#32 ∨ sext32 (jacobi a n) = 1#32 ∨ sext32 (jacobi a n) = 0xFFFFFFFF#32 := by
  unfold jacobi
  rcases jacobiLoop_values (n + 1) (a % n) n 1 (.inl rfl) with h | h | h <;> rw [h] <;> decide

theorem exec_cases (i : Instr) (s : State) : ∃ t, exec i s = .next t ∧ Outcomes i s t := by
  cases i with
  | nop => exact ⟨_, rfl, .plain _ _ _ _ _ _ (by simp) (by simp)⟩
  | powmod rd ra rb rm =>
    refine ⟨_, rfl, ?_⟩
    split_ifs
    exacts [.operandRange _ _, .mathError _ _, .plain _ _ _ _ _ _ (by simp [Instr.dests]) (by simp)]
  | xgcd rd rd2 rd3 ra rb =>
    refine ⟨_, rfl, ?_⟩
    split_ifs
    exacts [.illegalCmd _ _, .operandRange _ _, .plain _ _ _ _ _ _ (by simp [Instr.dests]) (by simp)]
  | modinv rd ra rm =>
    refine ⟨_, rfl, ?_⟩
    simp only []
    split_ifs
    exacts [.operandRange _ _, .mathError _ _, .mathError _ _, .plain _ _ _ _ _ _ (by simp [Instr.dests]) (by simp)]
  | modred rd ra rm =>
    refine ⟨_, rfl, ?_⟩
    split_ifs
    exacts [.operandRange _ _, .mathError _ _, .plain _ _ _ _ _ _ (by simp [Instr.dests]) (by simp)]
  | montmul rd ra rb rm =>
    refine ⟨_, rfl, ?_⟩
    split_ifs
    exacts [.operandRange _ _, .mathError _ _, .mathError _ _, .plain _ _ _ _ _ _ (by simp [Instr.dests]) (by simp)]
  | montin rd ra rm =>
    refine ⟨_, rfl, ?_⟩
    split_ifs
    exacts [.operandRange _ _, .mathError _ _, .mathError _ _, .plain _ _ _ _ _ _ (by simp [Instr.dests]) (by simp)]
  | jacobi ra rm =>
    refine ⟨_, rfl, ?_⟩
    split_ifs
    exacts [.operandRange _ _, .mathError _ _, .mathError _ _, .plain _ _ _ _ _ _ (by simp) (sext32_jacobi _ _)]
  | isqrt rd ra =>
    refine ⟨_, rfl, ?_⟩
    split_ifs
    · exact .operandRange _ _
    · split
      exacts [.plain _ _ _ _ _ _ (by simp [Instr.dests]) (by simp), .plain _ _ _ _ _ _ (by simp) (by simp)]
  | modsqrt rd rd2 ra rm =>
    refine ⟨_, rfl, ?_⟩
    split_ifs
    · exact .illegalCmd _ _
    · exact .operandRange _ _
    · exact .mathError _ _
    · exact .mathError _ _
    · exact .mathError _ _
    · split
      exacts [.plain _ _ _ _ _ _ (by simp) (by simp), .mathError _ _,
        .plain _ _ _ _ _ _ (by simp [Instr.dests]) (by simp)]
  | isprime ra =>
    refine ⟨_, rfl, ?_⟩
    split_ifs
    · exact .operandRange _ _
    · split
      · rename_i v rest h
        exact .inr (.inl ⟨rest, [], v, 0#32, 0#32, rfl, millerRabin_suffix _ _ _ _ _ h, by simp, by simp,
          fun h' => absurd rfl (h' ra)⟩)
      · exact .inr (.inr ⟨rfl, .inl ⟨ra, rfl⟩⟩)
  | genprime rd f =>
    refine ⟨_, rfl, ?_⟩
    split_ifs
    · exact .operandRange _ _
    · exact .operandRange _ _
    · split
      · rename_i hl _ _ x h
        obtain ⟨n, -, hs⟩ := (samplePrime_eq_some _ _ _ (by omega) _ 0 _ (Nat.lt_succ_self _) x).mp h
        exact .inr (.inl ⟨x.rest, [(rd, x.prime)], false, 0#32, _, rfl, hs.suffix, by simp [Instr.dests], by simp,
          fun _ h' => absurd rfl (h' rd f)⟩)
      · exact .inr (.inr ⟨rfl, .inr ⟨rd, f, rfl⟩⟩)

end Sys2Proof.Machine
end

