-- ==== Sys2Proof/Laws/PerInstr.lean ====
section
/-! SUPPORT. Per-instruction statements about the syntax: every command's word carries the match of the opcode row its
OPC field selects (R95), so that no unused field of it is set (R93). -/

namespace Sys2Proof.Laws.RowMatch

/-- The word of `i` selects a row of the opcode map and, under that row's mask, is that row's match (R95). -/
def Statement (i : Instr) : Prop :=
  ∃ row, opcodeRows[i.fields.opc.toNat]? = some row ∧ encode i &&& row.mask = row.mtch

theorem of_fields (i : Instr) (row : OpcodeRow) (h : opcodeRows[i.fields.opc.toNat]? = some row)
    (hm : i.fields.and (Fields.ofWord row.mask) = Fields.ofWord row.mtch) : Statement i :=
  ⟨row, h, (Fields.toWord_masked _ _ _).mpr hm⟩

theorem nop : Statement .nop := of_fields _ _ rfl (by decide)

theorem powmod (rd ra rb rm : Reg) : Statement (.powmod rd ra rb rm) :=
  of_fields _ _ rfl (by simp [Instr.fields, Fields.and, Fields.ofWord])

theorem xgcd (rd rd2 rd3 ra rb : Reg) : Statement (.xgcd rd rd2 rd3 ra rb) :=
  of_fields _ _ rfl (by simp [Instr.fields, Fields.and, Fields.ofWord])

theorem modinv (rd ra rm : Reg) : Statement (.modinv rd ra rm) :=
  of_fields _ _ rfl (by simp [Instr.fields, Fields.and, Fields.ofWord])

theorem modred (rd ra rm : Reg) : Statement (.modred rd ra rm) :=
  of_fields _ _ rfl (by simp [Instr.fields, Fields.and, Fields.ofWord])

theorem montmul (rd ra rb rm : Reg) : Statement (.montmul rd ra rb rm) :=
  of_fields _ _ rfl (by simp [Instr.fields, Fields.and, Fields.ofWord])

theorem montin (rd ra rm : Reg) : Statement (.montin rd ra rm) :=
  of_fields _ _ rfl (by simp [Instr.fields, Fields.and, Fields.ofWord])

theorem jacobi (ra rm : Reg) : Statement (.jacobi ra rm) :=
  of_fields _ _ rfl (by simp [Instr.fields, Fields.and, Fields.ofWord])

theorem isqrt (rd ra : Reg) : Statement (.isqrt rd ra) :=
  of_fields _ _ rfl (by simp [Instr.fields, Fields.and, Fields.ofWord])

theorem modsqrt (rd rd2 ra rm : Reg) : Statement (.modsqrt rd rd2 ra rm) :=
  of_fields _ _ rfl (by simp [Instr.fields, Fields.and, Fields.ofWord])

theorem isprime (ra : Reg) : Statement (.isprime ra) :=
  of_fields _ _ rfl (by simp [Instr.fields, Fields.and, Fields.ofWord])

theorem genprime (rd : Reg) (f : Bool) : Statement (.genprime rd f) :=
  of_fields _ _ rfl (by simp [Instr.fields, Fields.and, Fields.ofWord])

end Sys2Proof.Laws.RowMatch
end

