-- ==== Sys2Proof/Laws/Step.lean ====
section
/-! SUPPORT. Everything one step can do, said once: what the sequencer's turn does, what an abort and a reset take from
the random words, and the moves of the agenda. -/

namespace Sys2Proof.Machine

/-- A destination-free reading of `Outcomes`: the random words afterwards. -/
theorem Outcomes.rng {i : Instr} {s t : State} (h : Outcomes i s t) : t.rng <:+ s.rng := by
  rcases h with ⟨e, rfl, -⟩ | ⟨⟨rest, ws, f, w, n, rfl, hr, -⟩⟩ | ⟨rfl, -⟩
  · simp
  · simpa using hr
  · unfold State.hold; split <;> simp

theorem Outcomes.rng_of_not_drawsWords {i : Instr} {s t : State} (h : Outcomes i s t) (hi : drawsWords i = false) :
    t.rng = s.rng ∧ t.drawn = s.drawn := by
  rcases h with ⟨e, rfl, -⟩ | ⟨⟨rest, ws, f, w, n, rfl, -, -, -, hr⟩⟩ | ⟨rfl, -⟩
  · simp
  · have : rest = s.rng := hr (by rintro ra rfl; simp [drawsWords] at hi) (by rintro rd f rfl; simp [drawsWords] at hi)
    simp [this]
  · unfold State.hold; split <;> simp

theorem Outcomes.drawn {i : Instr} {s t : State} (h : Outcomes i s t) :
    t.drawn = s.drawn + (s.rng.length - t.rng.length) := by
  rcases h with ⟨e, rfl, -⟩ | ⟨⟨rest, ws, f, w, n, rfl, -⟩⟩ | ⟨rfl, -⟩
  · simp
  · simp
  · unfold State.hold; split <;> simp

/-- No command writes the width, CTRL or a parameter register (R232). -/
theorem Outcomes.settings {i : Instr} {s t : State} (h : Outcomes i s t) :
    t.nword = s.nword ∧ t.ie = s.ie ∧ t.bitlen = s.bitlen ∧ t.persist = s.persist ∧ t.filtMod = s.filtMod ∧
      t.filtRes = s.filtRes := by
  rcases h with ⟨e, rfl, -⟩ | ⟨⟨rest, ws, f, w, n, rfl, -⟩⟩ | ⟨rfl, -⟩
  · simp
  · simp
  · unfold State.hold; split <;> simp

/-- A command run from its latch: it is illegal, or its meaning answers. -/
theorem State.runLatched_cases (s : State) :
    (s.running = none ∧ s.runLatched = .next s) ∨
    ∃ l, s.running = some l ∧
      ((∃ e, decode l.cmd = .error e ∧ s.runLatched = .next (s.raise .illegalCmd)) ∨
       ∃ i t, decode l.cmd = .ok i ∧ exec i s = .next t ∧ s.runLatched = .next t ∧ Outcomes i s t) := by
  unfold State.runLatched
  cases h : s.running with
  | none => exact .inl ⟨rfl, rfl⟩
  | some l =>
    refine .inr ⟨l, rfl, ?_⟩
    cases hd : decode l.cmd with
    | error e => exact .inl ⟨e, rfl, by simp [hd]⟩
    | ok i =>
      obtain ⟨t, ht, ho⟩ := exec_cases i s
      exact .inr ⟨i, t, rfl, ht, by simp [hd, ht], ho⟩

/-- The words a command in execution would take are words it has (R243). -/
theorem State.drawsAhead_le (s : State) : s.drawsAhead ≤ s.rng.length := by
  unfold State.drawsAhead
  split
  · split_ifs <;> omega
  · omega
  · omega

/-- Only a prime command in execution takes words (R82). -/
theorem State.drawsAhead_pos (s : State) (h : s.drawsAhead ≠ 0) :
    ∃ l i, s.running = some l ∧ decode l.cmd = .ok i ∧ drawsWords i = true := by
  rcases s.runLatched_cases with ⟨hr, hs⟩ | ⟨l, hr, ⟨e, -, hs⟩ | ⟨i, t, hd, he, hs, ho⟩⟩
  · exact absurd (by simp [State.drawsAhead, hs, State.busy, hr]) h
  · exact absurd (by simp [State.drawsAhead, hs]) h
  · refine ⟨l, i, hr, hd, ?_⟩
    by_contra hi
    rw [Bool.not_eq_true] at hi
    have hrng := (ho.rng_of_not_drawsWords hi).1
    refine h ?_
    rw [State.drawsAhead, hs]
    have hb : t.busy = false := by
      rcases ho with ⟨e, rfl, -⟩ | ⟨⟨rest, ws, f, w, n, rfl, -⟩⟩ | ⟨rfl, ⟨ra, rfl⟩ | ⟨rd, f, rfl⟩⟩
      · simp
      · simp
      · simp [drawsWords] at hi
      · simp [drawsWords] at hi
    simp [hb, hrng]

/-- What is gone after an abort or a reset: words off the front, no more than the command would have taken. -/
theorem State.dropDraws_rng (s : State) : s.dropDraws.rng <:+ s.rng ∧
    s.rng.length ≤ s.dropDraws.rng.length + s.drawsAhead := by
  have h : s.dropDraws.rng = s.rng.drop (min (Config.abortDraws s.fresh) s.drawsAhead) := rfl
  rw [h, List.length_drop]
  exact ⟨List.drop_suffix _ _, by omega⟩

theorem State.dropDraws_drawn (s : State) :
    s.dropDraws.drawn = s.drawn + (s.rng.length - s.dropDraws.rng.length) := rfl

/-- What the sequencer's turn does (R232, R233, R243). -/
theorem State.completeTurn_cases (s : State) :
    (s.running = none ∧ s.completeTurn = .next s) ∨
    ∃ l t, s.running = some l ∧ s.completeTurn = .next t ∧
      ((∃ e, decode l.cmd = .error e ∧ t = s.raise .illegalCmd) ∨
       (∃ i, decode l.cmd = .ok i ∧ exec i s = .next t ∧ Outcomes i s t ∧ (t.busy = true → l.abortReq = false)) ∨
       (t = s.abortNow ∧ l.abortReq = true)) := by
  unfold State.completeTurn
  rcases s.runLatched_cases with ⟨hr, hs⟩ | ⟨l, hr, ⟨e, hd, hs⟩ | ⟨i, t, hd, he, hs, ho⟩⟩
  · left; refine ⟨hr, ?_⟩; simp [hs, State.busy, hr]
  · exact .inr ⟨l, s.raise .illegalCmd, hr, by simp [hs], .inl ⟨e, hd, rfl⟩⟩
  · have hl : s.latched = l := by simp [State.latched, hr]
    cases ha : l.abortReq with
    | false => exact .inr ⟨l, t, hr, by simp [hs, hl, ha], .inr (.inl ⟨i, hd, he, ho, fun _ => ha⟩)⟩
    | true =>
      cases hb : t.busy with
      | false =>
        exact .inr ⟨l, t, hr, by simp [hs, hl, ha, hb], .inr (.inl ⟨i, hd, he, ho, fun h => by simp [hb] at h⟩)⟩
      | true => exact .inr ⟨l, _, hr, by simp [hs, hl, ha, hb], .inr (.inr ⟨rfl, ha⟩)⟩

/-- Everything a step does (R71): one move of one agent. `u` is the state with the event taken off the agenda. -/
theorem step_cases {s t : State} (h : step s = .next t) :
    ∃ u, u = { s with agenda := s.agenda.tail } ∧
      ((∃ a, s.agenda.head? = some (.read a) ∧ t = u.hostRead a) ∨
       (∃ a v, s.agenda.head? = some (.write a v) ∧ t = u.hostWrite a v) ∨
       (∃ w, s.agenda.head? = some (.supply w) ∧ t = { u with rng := u.rng ++ [w] }) ∨
       (s.agenda.head? = some .reset ∧ t = u.platformReset) ∨
       (s.agenda.head? = some .abort ∧ t = u.abortTurn) ∨
       ((s.agenda = [] ∨ s.agenda.head? = some .complete) ∧ u.completeTurn = .next t)) := by
  refine ⟨_, rfl, ?_⟩
  unfold step at h
  cases ha : s.agenda with
  | nil =>
    rw [ha] at h
    have : { s with agenda := ([] : List Event).tail } = s := by cases s; simp_all
    rw [this]
    exact .inr (.inr (.inr (.inr (.inr ⟨.inl rfl, h⟩))))
  | cons e rest =>
    rw [ha] at h
    cases e <;> simp only [State.handle, Host.Outcome.next.injEq] at h <;> simp [h]

end Sys2Proof.Machine
end

