-- ==== Sys2Proof/Laws/Port.lean ====
section
/-! SUPPORT. The host port, said once: an event at the head of the agenda, the words that are free while busy, and what a
read answers otherwise. -/

namespace Sys2Proof.Machine

/-- The event at the head of the agenda is what a step handles (R71). -/
theorem step_of_event {s : State} {e : Event} {rest : List Event} (h : s.agenda = e :: rest) :
    step s = State.handle { s with agenda := rest } e := by
  unfold step; rw [h]

/-- The word indexes that are free while busy are those the address map says (R64, R271). -/
theorem readsFree_iff (s : State) (a : PortIndex) :
    readsFree s a ↔ (s.busy && (portWord s.nword a).readsFreeWhileBusy) = true := by
  rw [Bool.and_eq_true, readsFree]
  refine and_congr_right fun _ => ?_
  unfold portWord
  by_cases h : a.toNat < 0x400
  · have e : a = 7#11 ↔ a.toNat = 7 := ⟨fun h => h ▸ rfl, fun h => BitVec.eq_of_toNat_eq h⟩
    rw [if_pos h, e]
    unfold csrAt
    split <;> simp_all [PortWord.readsFreeWhileBusy]
  · have e : a ≠ 7#11 := by rintro rfl; exact h (by decide)
    rw [if_neg h]
    split <;> simp_all [PortWord.readsFreeWhileBusy]

/-- The word index of each register that a host write alone changes (R64). -/
theorem index_of_portWord {n : Nat} {a : PortIndex} {p : PortWord} (h : portWord n a = p) :
    (p = .ctrl → a = 2#11) ∧ (p = .bitlen → a = 8#11) ∧ (p = .persist → a = 9#11) ∧ (p = .filtMod → a = 10#11) ∧
      (p = .filtRes → a = 11#11) := by
  subst h
  unfold portWord
  split
  · unfold csrAt
    split <;> simp <;> exact BitVec.eq_of_toNat_eq (by simpa)
  · split <;> simp

/-- A read that is not free answers the defined word (R62). -/
theorem State.portRead_of_not_free {s : State} {a : PortIndex} (h : ¬readsFree s a) :
    s.portRead a = s.wordAt (portWord s.nword a) := by
  rw [readsFree_iff] at h
  unfold State.portRead
  rw [if_neg h]

/-- What a write does by the word it names (R63, R270). -/
theorem State.hostWrite_of_not_protected {s : State} {a : PortIndex} (v : Word)
    (h : (portWord s.nword a).isProtected = false) : s.hostWrite a v = s.writeWord v (portWord s.nword a) := by
  unfold State.hostWrite
  rw [h, Bool.and_false, if_neg (by decide)]

theorem State.hostWrite_of_protected {s : State} {a : PortIndex} (v : Word) (hb : s.busy = true)
    (h : (portWord s.nword a).isProtected = true) : s.hostWrite a v = { s with busywr := true } := by
  unfold State.hostWrite
  rw [h, hb]; rfl

end Sys2Proof.Machine
end

