-- ==== Sys2Proof/Laws/Primality.lean ====
section
/-! SUPPORT. The Miller-Rabin procedure (R197): a round passes exactly for a strong liar, every base is one for a prime,
and the rounds take the words in order. -/

namespace Sys2Proof.Machine

/-- Squaring on: one of the next `n` squares is `m - 1`. -/
theorem squaresReach_iff (m n x : Nat) :
    squaresReach m n x = true ↔ ∃ k < n, x ^ 2 ^ (k + 1) % m = m - 1 := by
  induction n generalizing x with
  | zero => simp [squaresReach]
  | succ n ih =>
    have hx (k : Nat) : (x * x % m) ^ 2 ^ (k + 1) % m = x ^ 2 ^ (k + 1 + 1) % m := by
      rw [← Nat.pow_mod, ← pow_two, ← pow_mul, ← pow_succ']
    rw [squaresReach]
    split
    · rename_i h
      simp only [true_iff]
      exact ⟨0, by omega, by rw [zero_add, pow_one, pow_two]; exact h⟩
    · rename_i h
      rw [ih]
      constructor
      · rintro ⟨k, hk, he⟩; exact ⟨k + 1, by omega, by rw [← hx]; exact he⟩
      · rintro ⟨k, hk, he⟩
        cases k with
        | zero => exact absurd (by rw [zero_add, pow_one, pow_two] at he; exact he) h
        | succ k => exact ⟨k, by omega, by rw [hx]; exact he⟩

/-- A round of R197 passes exactly when one of the powers it looks at is 1 or -1. -/
theorem basePasses_iff (m s d a : Nat) (hm : 5 ≤ m) (hs : 1 ≤ s) :
    basePasses m s d a = true ↔ a ^ d % m = 1 ∨ ∃ r < s, a ^ (2 ^ r * d) % m = m - 1 := by
  have hp := powMod_eq a d m (by omega)
  have hx (k : Nat) : (a ^ d % m) ^ 2 ^ k % m = a ^ (2 ^ k * d) % m := by
    rw [← Nat.pow_mod, ← pow_mul, mul_comm d]
  unfold basePasses
  rw [hp]
  split
  · rename_i h
    simp only [true_iff]
    rcases h with h | h
    · exact .inl h
    · exact .inr ⟨0, by omega, by rw [pow_zero, one_mul]; exact h⟩
  · rename_i h
    rw [not_or] at h
    rw [squaresReach_iff]
    constructor
    · rintro ⟨k, hk, he⟩; exact .inr ⟨k + 1, by omega, by rw [← hx]; exact he⟩
    · rintro (h1 | ⟨r, hr, he⟩)
      · exact absurd h1 h.1
      · cases r with
        | zero => exact absurd (by rw [pow_zero, one_mul] at he; exact he) h.2
        | succ r => exact ⟨r, by omega, by rw [hx]; exact he⟩

/-- `(s, d)` of R197 is the only such pair. -/
theorem odd_part_unique (e e' d d' : Nat) (hd : d % 2 = 1) (hd' : d' % 2 = 1) (h : 2 ^ e * d = 2 ^ e' * d') :
    e = e' ∧ d = d' := by
  induction e generalizing e' with
  | zero =>
    cases e' with
    | zero => exact ⟨rfl, by simpa using h⟩
    | succ e' => rw [pow_zero, one_mul, pow_succ] at h; rw [h, mul_comm (2 ^ e'), mul_assoc] at hd; omega
  | succ e ih =>
    cases e' with
    | zero => rw [pow_zero, one_mul, pow_succ] at h; rw [← h, mul_comm (2 ^ e), mul_assoc] at hd'; omega
    | succ e' =>
      have h2 : 2 * (2 ^ e * d) = 2 * (2 ^ e' * d') := by rw [pow_succ, pow_succ] at h; linarith
      obtain ⟨rfl, rfl⟩ := ih e' (Nat.eq_of_mul_eq_mul_left (by omega) h2)
      exact ⟨rfl, rfl⟩

/-- The pair `(s, d)` the procedure uses for an odd `n >= 5`. -/
theorem splitTwos_pred (n : Nat) (hn : 5 ≤ n) (ho : n % 2 = 1) :
    n - 1 = 2 ^ (splitTwos (n - 1) (n - 1)).1 * (splitTwos (n - 1) (n - 1)).2 ∧
    (splitTwos (n - 1) (n - 1)).2 % 2 = 1 ∧ 1 ≤ (splitTwos (n - 1) (n - 1)).1 := by
  obtain ⟨h1, h2⟩ := splitTwos_spec (n - 1) (n - 1) (by omega) le_rfl
  refine ⟨h1.symm, h2, Nat.one_le_iff_ne_zero.mpr fun h0 => ?_⟩
  rw [h0, pow_zero, one_mul] at h1
  omega

/-- A round passes exactly for a strong liar (R197). -/
theorem basePasses_iff_strongLiar (n a : Nat) (hn : 5 ≤ n) (ho : n % 2 = 1) :
    basePasses n (splitTwos (n - 1) (n - 1)).1 (splitTwos (n - 1) (n - 1)).2 a = true ↔ StrongLiar n a := by
  obtain ⟨h1, h2, h3⟩ := splitTwos_pred n hn ho
  rw [basePasses_iff n _ _ a hn h3]
  constructor
  · exact fun h => ⟨_, _, h1, h2, h⟩
  · rintro ⟨e, d, he, hd, h⟩
    obtain ⟨rfl, rfl⟩ := odd_part_unique _ _ _ _ hd h2 (he.symm.trans h1)
    exact h

/-- A square root of 1 in a field, taken again and again: 1 at the end, or -1 somewhere (R200). -/
theorem one_or_neg_one_of_pow {p : Nat} [Fact p.Prime] (x : ZMod p) (d e : Nat) (h : x ^ (2 ^ e * d) = 1) :
    x ^ d = 1 ∨ ∃ r < e, x ^ (2 ^ r * d) = -1 := by
  induction e with
  | zero => left; simpa using h
  | succ e ih =>
    have h2 : (x ^ (2 ^ e * d)) ^ 2 = 1 := by rw [← pow_mul, ← h]; congr 1; ring
    rcases sq_eq_one_iff.mp h2 with h' | h'
    · rcases ih h' with h'' | ⟨r, hr, hx⟩
      · exact .inl h''
      · exact .inr ⟨r, by omega, hx⟩
    · exact .inr ⟨e, by omega, h'⟩

/-- Every base of the range proves a prime nothing (R200). -/
theorem strongLiar_of_prime (p a : Nat) (hp : p.Prime) (h5 : 5 ≤ p) (ha : 2 ≤ a) (ha' : a ≤ p - 2) : StrongLiar p a := by
  have : Fact p.Prime := ⟨hp⟩
  have ho : p % 2 = 1 := (hp.eq_two_or_odd).resolve_left (by omega)
  obtain ⟨h1, h2, h3⟩ := splitTwos_pred p h5 ho
  refine ⟨_, _, h1, h2, ?_⟩
  have ha0 : (a : ZMod p) ≠ 0 := by
    rw [Ne, ZMod.natCast_eq_zero_iff]
    exact fun h => absurd (Nat.le_of_dvd (by omega) h) (by omega)
  have hf : (a : ZMod p) ^ (2 ^ (splitTwos (p - 1) (p - 1)).1 * (splitTwos (p - 1) (p - 1)).2) = 1 := by
    rw [← h1]; exact ZMod.pow_card_sub_one_eq_one ha0
  have cast (k v : Nat) (hv : v < p) (h : (a : ZMod p) ^ k = v) : a ^ k % p = v := by
    have := (ZMod.natCast_eq_natCast_iff' (a ^ k) v p).mp (by push_cast; exact h)
    rwa [Nat.mod_eq_of_lt hv] at this
  rcases one_or_neg_one_of_pow (a : ZMod p) _ _ hf with h | ⟨r, hr, h⟩
  · exact .inl (cast _ 1 (by omega) (by simpa using h))
  · refine .inr ⟨r, hr, cast _ (p - 1) (by omega) ?_⟩
    rw [h, Nat.cast_sub (by omega)]
    simp

/-- A drawn base is in `[2, n-2]` (R197). -/
theorem roundBase_range (n : Nat) (hn : 5 ≤ n) (ws : List Word) (k : Nat) :
    2 ≤ roundBase n ws k ∧ roundBase n ws k ≤ n - 2 := by
  unfold roundBase
  have := Nat.mod_lt (natOfWords ((ws.drop (k * baseWords n)).take (baseWords n))) (show 0 < n - 3 by omega)
  omega

/-- What one round draws. -/
theorem drawBits_base (n : Nat) (ws : List Word) (h : baseWords n ≤ ws.length) :
    drawBits (32 * drawWords (bitlen n)) ws =
      some (natOfWords (ws.take (baseWords n)), ws.drop (baseWords n)) := by
  have hw : drawWords (32 * drawWords (bitlen n)) = baseWords n := by
    unfold drawWords baseWords; omega
  have hlt : natOfWords (ws.take (baseWords n)) < 2 ^ (32 * drawWords (bitlen n)) := by
    refine (natOfWords_lt _).trans_le (Nat.pow_le_pow_right (by omega) ?_)
    rw [List.length_take]; unfold drawWords; unfold baseWords at h ⊢; omega
  rw [drawBits_eq_some, hw]
  exact ⟨h, (Nat.mod_eq_of_lt hlt).symm, rfl⟩

/-- Without the words of a base a round waits (R83). -/
theorem drawBits_base_none (n : Nat) (ws : List Word) (h : ws.length < baseWords n) :
    drawBits (32 * drawWords (bitlen n)) ws = none := by
  unfold drawBits
  rw [if_pos]
  unfold drawWords
  unfold baseWords at h
  omega

/-- Round `k` after the first is round `k + 1` (R197). -/
theorem roundBase_drop (n : Nat) (ws : List Word) (k : Nat) :
    roundBase n (ws.drop (baseWords n)) k = roundBase n ws (k + 1) := by
  simp only [roundBase, List.drop_drop]; congr 5; ring

/-- The rounds in full, where the words suffice for all of them or hold a witness: how many were run, that all but the last
passed, and what decided the verdict (R197). -/
theorem mrRounds_spec (n s d rounds : Nat) (ws : List Word)
    (hl : rounds * baseWords n ≤ ws.length ∨
      ∃ k, (k + 1) * baseWords n ≤ ws.length ∧ basePasses n s d (roundBase n ws k) = false) :
    ∃ v run, mrRounds n s d rounds ws = some (v, ws.drop (run * baseWords n)) ∧ run ≤ rounds ∧
      run * baseWords n ≤ ws.length ∧
      (∀ k, k + 1 < run → basePasses n s d (roundBase n ws k) = true) ∧
      (v = true → run = rounds ∧ ∀ k < rounds, basePasses n s d (roundBase n ws k) = true) ∧
      (v = false → 0 < run ∧ basePasses n s d (roundBase n ws (run - 1)) = false) := by
  induction rounds generalizing ws with
  | zero => exact ⟨true, 0, by simp [mrRounds], le_rfl, by simp, by simp, by simp, by simp⟩
  | succ rounds ih =>
    have hw : baseWords n ≤ ws.length := by
      rcases hl with hl | ⟨k, hk, -⟩
      · rw [Nat.succ_mul] at hl; omega
      · rw [Nat.succ_mul] at hk; omega
    have hb : baseOfDraw n (natOfWords (ws.take (baseWords n))) = roundBase n ws 0 := by simp [baseOfDraw, roundBase]
    rw [mrRounds, drawBits_base n ws hw]
    simp only [hb]
    cases hp : basePasses n s d (roundBase n ws 0) with
    | false => exact ⟨false, 1, by simp, by omega, by omega, by omega, by simp, fun _ => ⟨by omega, hp⟩⟩
    | true =>
      have hrest : rounds * baseWords n ≤ (ws.drop (baseWords n)).length ∨
          ∃ k, (k + 1) * baseWords n ≤ (ws.drop (baseWords n)).length ∧
            basePasses n s d (roundBase n (ws.drop (baseWords n)) k) = false := by
        rw [List.length_drop]
        rcases hl with hl | ⟨k, hk, hf⟩
        · rw [Nat.succ_mul] at hl; exact .inl (by omega)
        · cases k with
          | zero => rw [hp] at hf; cases hf
          | succ k => rw [Nat.succ_mul] at hk; exact .inr ⟨k, by omega, by rw [roundBase_drop]; exact hf⟩
      obtain ⟨v, run, h1, h2, hr, h3, h4, h5⟩ := ih (ws.drop (baseWords n)) hrest
      refine ⟨v, run + 1, ?_, by omega, ?_, ?_, ?_, ?_⟩
      · simp only [if_pos]
        rw [h1, List.drop_drop]; congr 3; ring
      · rw [List.length_drop] at hr; rw [Nat.succ_mul]; omega
      · intro k hk
        cases k with
        | zero => exact hp
        | succ k => rw [← roundBase_drop]; exact h3 k (by omega)
      · intro hv
        refine ⟨by rw [(h4 hv).1], fun k hk => ?_⟩
        cases k with
        | zero => exact hp
        | succ k => rw [← roundBase_drop]; exact (h4 hv).2 k (by omega)
      · intro hv
        obtain ⟨h6, h7⟩ := h5 hv
        refine ⟨by omega, ?_⟩
        obtain ⟨j, rfl⟩ : ∃ j, run = j + 1 := ⟨run - 1, by omega⟩
        rw [roundBase_drop] at h7; exact h7

/-- Words that hold no witness and do not suffice for all rounds leave the test waiting (R83, R197). -/
theorem mrRounds_none (n s d rounds : Nat) (ws : List Word) (hl : ws.length < rounds * baseWords n)
    (hall : ∀ k, (k + 1) * baseWords n ≤ ws.length → basePasses n s d (roundBase n ws k) = true) :
    mrRounds n s d rounds ws = none := by
  induction rounds generalizing ws with
  | zero => omega
  | succ rounds ih =>
    rw [mrRounds]
    rcases Nat.lt_or_ge ws.length (baseWords n) with hw | hw
    · rw [drawBits_base_none n ws hw]
    · have hb : baseOfDraw n (natOfWords (ws.take (baseWords n))) = roundBase n ws 0 := by simp [baseOfDraw, roundBase]
      rw [drawBits_base n ws hw]
      simp only [hb, hall 0 (by omega), if_true]
      refine ih _ ?_ fun k hk => ?_
      · rw [Nat.succ_mul] at hl; rw [List.length_drop]; omega
      · rw [List.length_drop] at hk
        rw [roundBase_drop]
        exact hall _ (by rw [Nat.succ_mul]; omega)

end Sys2Proof.Machine
end

