-- ==== Sys2Proof/Laws/Symbol.lean ====
section
/-! SUPPORT. The algorithm of R167 computes the Jacobi symbol of R13, which is Mathlib's `jacobiSym`. -/

namespace Sys2Proof.Machine

/-- The sign a factor two brings: -1 where `n` is 3 or 5 modulo 8 (R167). -/
theorem jacobiSym_two (n : Nat) (hn : n % 2 = 1) :
    jacobiSym 2 n = if n % 8 = 3 ∨ n % 8 = 5 then -1 else 1 := by
  rw [jacobiSym.at_two (Nat.odd_iff.mpr hn), ZMod.χ₈_nat_eq_if_mod_eight]
  have : n % 8 < 8 := Nat.mod_lt _ (by omega)
  split_ifs <;> omega

/-- What halving does: the odd part is reached and the sign kept right. -/
theorem jacobiHalve_spec (n fuel a : Nat) (t : Int) (hn : n % 2 = 1) (ha : 0 < a) (hf : a ≤ fuel) :
    (jacobiHalve n fuel a t).1 % 2 = 1 ∧ (jacobiHalve n fuel a t).1 ≤ a ∧
    (jacobiHalve n fuel a t).2 * jacobiSym (jacobiHalve n fuel a t).1 n = t * jacobiSym a n := by
  induction fuel generalizing a t with
  | zero => omega
  | succ fuel ih =>
    rw [jacobiHalve]
    split
    · rename_i heven
      obtain ⟨h1, h2, h3⟩ := ih (a / 2) (if n % 8 = 3 ∨ n % 8 = 5 then -t else t) (by omega) (by omega)
      refine ⟨h1, by omega, h3.trans ?_⟩
      have ha2 : (a : Int) = 2 * (a / 2 : Nat) := by push_cast; omega
      rw [ha2, jacobiSym.mul_left, jacobiSym_two n hn]
      split_ifs <;> ring
    · exact ⟨by omega, le_rfl, rfl⟩

/-- Swapping two odd numbers changes the sign exactly when both are 3 modulo 4 (R167). -/
theorem jacobiSym_swap (a n : Nat) (ha : a % 2 = 1) (hn : n % 2 = 1) :
    jacobiSym a n = (if n % 4 = 3 ∧ a % 4 = 3 then -1 else 1) * jacobiSym n a := by
  have ha' := Nat.odd_iff.mpr ha
  have hn' := Nat.odd_iff.mpr hn
  split_ifs with h
  · rw [jacobiSym.quadratic_reciprocity_three_mod_four h.2 h.1]; ring
  · rcases (show a % 4 = 1 ∨ n % 4 = 1 by omega) with h1 | h1
    · rw [jacobiSym.quadratic_reciprocity_one_mod_four h1 hn', one_mul]
    · rw [jacobiSym.quadratic_reciprocity_one_mod_four' ha' h1, one_mul]

theorem jacobiLoop_spec (fuel a n : Nat) (t : Int) (hn : n % 2 = 1) (hf : a < fuel) :
    jacobiLoop fuel a n t = t * jacobiSym a n := by
  induction fuel generalizing a n t with
  | zero => omega
  | succ fuel ih =>
    rw [jacobiLoop]
    split
    · rename_i h0
      subst h0
      split
      · rename_i h1; subst h1; simp
      · rename_i h1
        rw [Nat.cast_zero, jacobiSym.zero_left (by omega), mul_zero]
    · rename_i h0
      obtain ⟨h1, h2, h3⟩ := jacobiHalve_spec n a a t hn (by omega) le_rfl
      simp only
      have hlt := Nat.mod_lt n (show 0 < (jacobiHalve n a a t).1 by omega)
      rw [ih _ _ _ h1 (by omega), ← h3, jacobiSym_swap _ n h1 hn, Int.natCast_mod, ← jacobiSym.mod_left]
      split_ifs <;> ring

/-- `J(a, n)` (R13) for odd `n`. -/
theorem jacobi_eq (a n : Nat) (hn : n % 2 = 1) : jacobi a n = jacobiSym a n := by
  rw [jacobi, jacobiLoop_spec _ _ _ _ hn (by have := Nat.mod_lt a (show 0 < n by omega); omega), one_mul,
    Int.natCast_mod, ← jacobiSym.mod_left]

end Sys2Proof.Machine
end

