-- ==== Sys2Proof/Laws/SquareRoot.lean ====
section
/-! SUPPORT. The square root modulo an odd prime (R182 to R187): steps 1 to 5 find a root exactly where there is one. -/

namespace Sys2Proof.Machine

variable {p : Nat} [hp : Fact p.Prime]

/-- A modular power as an element of the field. -/
theorem cast_powMod (b e : Nat) : ((powMod b e p : Nat) : ZMod p) = (b : ZMod p) ^ e := by
  rw [powMod_eq b e p hp.out.pos, ZMod.natCast_mod]; push_cast; rfl

/-- `J(c, p) = -1` says that `c` is no square (R13). -/
theorem jacobi_eq_neg_one_iff (h2 : p ≠ 2) (c : Nat) : jacobi c p = -1 ↔ ¬IsSquare (c : ZMod p) := by
  have ho : p % 2 = 1 := hp.out.eq_two_or_odd.resolve_left h2
  rw [jacobi_eq c p ho, ← jacobiSym.legendreSym.to_jacobiSym, legendreSym.eq_neg_one_iff]
  norm_cast

/-- Euler's criterion for a non-square (R183). -/
theorem pow_half_of_not_isSquare {c : ZMod p} (h : ¬IsSquare c) : c ^ (p / 2) = -1 := by
  have h0 : c ≠ 0 := fun h0 => h (h0 ▸ IsSquare.zero)
  exact (ZMod.pow_div_two_eq_neg_one_or_one p h0).resolve_left fun h1 => h ((ZMod.euler_criterion p h0).mpr h1)

omit hp in
/-- The search answers the first candidate of symbol -1 (R187). -/
theorem nonResidueFrom_some (fuel c x : Nat) (h : nonResidueFrom p fuel c = some x) :
    jacobi x p = -1 ∧ c ≤ x ∧ x < c + fuel ∧ ∀ y, c ≤ y → y < x → jacobi y p ≠ -1 := by
  induction fuel generalizing c with
  | zero => cases h
  | succ fuel ih =>
    rw [nonResidueFrom] at h
    split at h
    · rename_i h1
      cases h
      exact ⟨h1, le_rfl, by omega, fun y _ _ => by omega⟩
    · rename_i hc
      obtain ⟨h1, h2, h3, h4⟩ := ih _ h
      refine ⟨h1, by omega, by omega, fun y hy hyx => ?_⟩
      rcases Nat.eq_or_lt_of_le hy with rfl | hy
      · exact hc
      · exact h4 y hy hyx

omit hp in
theorem nonResidueFrom_none (fuel c : Nat) (h : nonResidueFrom p fuel c = none) (x : Nat) (h1 : c ≤ x)
    (h2 : x < c + fuel) : jacobi x p ≠ -1 := by
  induction fuel generalizing c with
  | zero => omega
  | succ fuel ih =>
    rw [nonResidueFrom] at h
    split at h
    · cases h
    · rename_i hc
      rcases Nat.eq_or_lt_of_le h1 with rfl | h1
      · exact hc
      · exact ih _ h h1 (by omega)

/-- For an odd prime there is a non-residue (R187). -/
theorem leastNonResidue_eq_some (h2 : p ≠ 2) : ∃ n0, leastNonResidue p = some n0 ∧ ¬IsSquare (n0 : ZMod p) := by
  cases h : leastNonResidue p with
  | some n0 => exact ⟨n0, rfl, (jacobi_eq_neg_one_iff h2 n0).mp (nonResidueFrom_some _ _ _ h).1⟩
  | none =>
    obtain ⟨x, hx⟩ := FiniteField.exists_nonsquare (F := ZMod p) (by rw [ZMod.ringChar_zmod_n]; exact h2)
    have hc : ((x.val : Nat) : ZMod p) = x := ZMod.natCast_zmod_val x
    have h01 : 2 ≤ x.val := by
      by_contra hlt
      have : x.val = 0 ∨ x.val = 1 := by omega
      rcases this with h0 | h0 <;> rw [h0] at hc <;> apply hx <;> rw [← hc]
      · simp
      · simp
    have hlt := x.val_lt
    exact absurd ((jacobi_eq_neg_one_iff h2 _).mpr (hc.symm ▸ hx)) (nonResidueFrom_none _ _ h _ h01 (by omega))

/-- What the correction loop keeps before round `i` (R185), in the field: `z` is `n1`, `w` is `a2 * a1^2`. -/
theorem correctRound_keeps (s se a1 a2 n1 n2 i : Nat) (hse : se = max s 2) (hi : i + 2 ≤ se)
    (hz : 2 ≤ s → (n1 : ZMod p) ^ 2 ^ (s - 1) = -1)
    (hb : ((a2 : ZMod p) * (a1 * n2) ^ 2) ^ 2 ^ (se - 1 - i) = 1)
    (h1 : s < 2 → (a2 : ZMod p) * (a1 * n2) ^ 2 = 1) :
    ((a2 : ZMod p) * (a1 * (correctRound p se a1 a2 n1 n2 i : Nat)) ^ 2) ^ 2 ^ (se - 1 - (i + 1)) = 1 ∧
    (s < 2 → (a2 : ZMod p) * (a1 * (correctRound p se a1 a2 n1 n2 i : Nat)) ^ 2 = 1) := by
  have e1 : se - 1 - (i + 1) = se - 2 - i := by omega
  have e2 : se - 1 - i = se - 2 - i + 1 := by omega
  set b : ZMod p := (a2 : ZMod p) * (a1 * n2) ^ 2 with hbdef
  have ht : ((powMod (a2 * (a1 * n2) ^ 2) (2 ^ (se - 2 - i)) p : Nat) : ZMod p) = b ^ 2 ^ (se - 2 - i) := by
    rw [cast_powMod]; push_cast; rfl
  rw [e1]
  unfold correctRound
  split
  · rename_i hne
    have hb1 : b ^ 2 ^ (se - 2 - i) ≠ 1 := fun h => hne <| by
      have hlt : powMod (a2 * (a1 * n2) ^ 2) (2 ^ (se - 2 - i)) p < p := by
        rw [powMod_eq _ _ _ hp.out.pos]; exact Nat.mod_lt _ hp.out.pos
      have := (ZMod.natCast_eq_natCast_iff' _ 1 p).mp (by rw [ht, h]; simp)
      rwa [Nat.mod_eq_of_lt hlt, Nat.mod_eq_of_lt hp.out.one_lt] at this
    have hs : 2 ≤ s := by
      by_contra hs
      exact hb1 (by rw [h1 (by omega), one_pow])
    obtain rfl : se = s := by omega
    have hneg : b ^ 2 ^ (se - 2 - i) = -1 := by
      rw [e2, pow_succ, pow_mul] at hb
      exact (sq_eq_one_iff.mp hb).resolve_left hb1
    refine ⟨?_, fun h => absurd hs (by omega)⟩
    have hcast : (((n2 * powMod n1 (2 ^ i) p % p : Nat)) : ZMod p) = n2 * (n1 : ZMod p) ^ 2 ^ i := by
      rw [ZMod.natCast_mod]; push_cast; rw [cast_powMod]
    have hfac : (a2 : ZMod p) * (a1 * (n2 * (n1 : ZMod p) ^ 2 ^ i)) ^ 2 = b * (n1 : ZMod p) ^ 2 ^ (i + 1) := by
      rw [hbdef, pow_succ 2 i, pow_mul]; ring
    rw [hcast, hfac, mul_pow, hneg, ← pow_mul, ← pow_add, show i + 1 + (se - 2 - i) = se - 1 by omega, hz hs]
    ring
  · rename_i heq
    refine ⟨?_, h1⟩
    rw [not_not] at heq
    rw [← ht, heq]; simp

/-- After the last round `a2 * (a1 * n2)^2 = 1` (R185). -/
theorem correction_spec (s se a1 a2 n1 : Nat) (hse : se = max s 2)
    (hz : 2 ≤ s → (n1 : ZMod p) ^ 2 ^ (s - 1) = -1)
    (hb : ((a2 : ZMod p) * a1 ^ 2) ^ 2 ^ (se - 1) = 1) (h1 : s < 2 → (a2 : ZMod p) * a1 ^ 2 = 1) :
    (a2 : ZMod p) * (a1 * (correction p se a1 a2 n1 : Nat)) ^ 2 = 1 := by
  have key (k : Nat) (hk : k ≤ se - 1) :
      ((a2 : ZMod p) * (a1 * ((List.range k).foldl (correctRound p se a1 a2 n1) 1 : Nat)) ^ 2) ^ 2 ^ (se - 1 - k) = 1 ∧
      (s < 2 → (a2 : ZMod p) * (a1 * ((List.range k).foldl (correctRound p se a1 a2 n1) 1 : Nat)) ^ 2 = 1) := by
    induction k with
    | zero => simpa using And.intro hb h1
    | succ k ih =>
      obtain ⟨h2, h3⟩ := ih (by omega)
      rw [List.range_succ, List.foldl_append]
      exact correctRound_keeps s se a1 a2 n1 _ k hse (by omega) hz h2 h3
  have := (key (se - 1) le_rfl).1
  rwa [Nat.sub_self, pow_zero, pow_one] at this

omit hp in
/-- The model's loop is the rule's (R184, R185). -/
theorem correction_corrects (hp0 : 0 < p) (se a1 a2 n1 : Nat) :
    Corrects p se a1 a2 n1 fun k => (List.range k).foldl (correctRound p se a1 a2 n1) 1 where
  start := rfl
  round i _ := by
    simp only [List.range_succ, List.foldl_append, List.foldl_cons, List.foldl_nil]
    generalize (List.range i).foldl (correctRound p se a1 a2 n1) 1 = n2
    rw [correctRound, powMod_eq _ _ _ hp0, powMod_eq _ _ _ hp0, Nat.mul_mod_mod]
    simp only [ne_eq, ite_not]

omit hp in
/-- Step 5 modulo any odd number from 3 on, prime or not (R182, R188): the root of the rule where there is a non-residue
and the residue is invertible, MATH_ERROR otherwise. -/
theorem tonelli_follows (ho : p % 2 = 1) (h3 : 3 ≤ p) (a : Nat) :
    ((∃ c : Nat, 2 ≤ c ∧ c < p ∧ jacobiSym c p = -1) → Nat.gcd a p = 1 →
      ∃ r, tonelli a p = .roots r ((p - r) % p) ∧ StepFiveRoot a p r) ∧
    ((∀ c : Nat, 2 ≤ c → c < p → jacobiSym c p ≠ -1) ∨ Nat.gcd a p ≠ 1 → tonelli a p = .mathError) := by
  have hj (c : Nat) : jacobi c p = -1 ↔ jacobiSym c p = -1 := by rw [jacobi_eq c p ho]
  unfold tonelli
  cases h : leastNonResidue p with
  | none =>
    refine ⟨fun ⟨c, h2, hc, hs⟩ _ => ?_, fun _ => rfl⟩
    exact absurd ((hj c).mpr hs) (nonResidueFrom_none _ _ h c h2 (by omega))
  | some n0 =>
    obtain ⟨h1, h2, hlt, hmin⟩ := nonResidueFrom_some _ _ _ h
    simp only [(xgcdAlg_spec a p).1]
    constructor
    · intro _ hg
      rw [if_neg (not_not_intro hg)]
      obtain ⟨hfac, hodd⟩ := splitTwos_spec (p - 1) (p - 1) (by omega) le_rfl
      refine ⟨_, rfl, _, _, n0, invMod a p, _, hfac.symm, hodd,
        ⟨h2, by omega, (hj n0).mp h1, fun c hc hcn => fun hs => hmin c hc hcn ((hj c).mpr hs)⟩,
        ⟨invMod_lt a p (by omega), ?_⟩, correction_corrects (by omega) _ _ _ _, ?_⟩
      · have := mul_invMod a p (by omega) hg
        rwa [Nat.ModEq, Nat.mod_eq_of_lt (show 1 < p by omega)] at this
      · rw [powMod_eq _ _ _ (by omega), powMod_eq _ _ _ (by omega)]; rfl
    · rintro (hn | hg)
      · exact absurd ((hj n0).mp h1) (hn n0 h2 (by omega))
      · rw [if_pos hg]

/-- Modulo a prime of the form `4k + 3` the one round corrects nothing, and the root is `a^((p+1)/4)` (R183). -/
theorem StepFiveRoot.of_three_mod_four (h3 : p % 4 = 3) {a r : Nat} (h0 : (a : ZMod p) ≠ 0)
    (hsq : IsSquare (a : ZMod p)) (h : StepFiveRoot a p r) : r = a ^ ((p + 1) / 4) % p := by
  obtain ⟨e, q, n0, a2, n2, hfac, hodd, -, ⟨-, hinv⟩, hn2, rfl⟩ := h
  have he : e = 1 := by
    rcases e with _ | _ | e
    · simp at hfac; omega
    · rfl
    · have : p - 1 = 4 * (2 ^ e * q) := by rw [hfac]; ring
      omega
  subst he
  have hq : (q + 1) / 2 = (p + 1) / 4 := by omega
  have hround := hn2.round 0 (by omega)
  have ht : (a2 * (a ^ ((q + 1) / 2) % p * n2 0) ^ 2) ^ 2 ^ (max 1 2 - 2 - 0) % p = 1 := by
    rw [hn2.start]
    have hi : (a : ZMod p) * a2 = 1 := by
      have := congrArg (Nat.cast (R := ZMod p)) hinv
      simpa using this
    have : ((((a2 * (a ^ ((q + 1) / 2) % p * 1) ^ 2) ^ 2 ^ (max 1 2 - 2 - 0) : Nat)) : ZMod p) = (1 : Nat) := by
      simp only [mul_one, Nat.max_eq_right (show 1 ≤ 2 by omega), Nat.sub_self, pow_zero, pow_one]
      push_cast
      rw [ZMod.natCast_mod]
      push_cast
      rw [← pow_mul, show (q + 1) / 2 * 2 = q + 1 by omega, pow_succ]
      have hE := (ZMod.euler_criterion p h0).mp hsq
      rw [show p / 2 = q by omega] at hE
      rw [hE, one_mul, mul_comm, hi]
    have := (ZMod.natCast_eq_natCast_iff' _ _ p).mp this
    rwa [Nat.mod_eq_of_lt hp.out.one_lt] at this
  rw [if_pos ht, hn2.start] at hround
  rw [show max 1 2 - 1 = 0 + 1 from rfl, hround, mul_one, Nat.mod_mod, hq]

/-- Step 5 finds a root of a non-zero square (R182). -/
theorem tonelli_spec (h2 : p ≠ 2) (a : Nat) (h0 : (a : ZMod p) ≠ 0) (hsq : IsSquare (a : ZMod p)) :
    ∃ r < p, tonelli a p = .roots r ((p - r) % p) ∧ ((r : Nat) : ZMod p) ^ 2 = a := by
  have hpp := hp.out.two_le
  have ho : p % 2 = 1 := hp.out.eq_two_or_odd.resolve_left h2
  obtain ⟨hfac, hodd⟩ := splitTwos_spec (p - 1) (p - 1) (by omega) le_rfl
  obtain ⟨n0, hn0, hns⟩ := leastNonResidue_eq_some (p := p) h2
  have hg : Nat.gcd a p = 1 := by
    refine Nat.Coprime.symm ((hp.out.coprime_iff_not_dvd).mpr fun hd => h0 ?_)
    exact (ZMod.natCast_eq_zero_iff a p).mpr hd
  have hinv : (a : ZMod p) * (invMod a p : Nat) = 1 := by
    have := (ZMod.natCast_eq_natCast_iff _ 1 p).mpr (mul_invMod a p hp.out.pos hg)
    simpa using this
  unfold tonelli
  simp only [hn0, (xgcdAlg_spec a p).1, hg, ne_eq, not_true_eq_false, if_false]
  set s := (splitTwos (p - 1) (p - 1)).1 with hs
  set q := (splitTwos (p - 1) (p - 1)).2 with hq
  have hs1 : 1 ≤ s := Nat.one_le_iff_ne_zero.mpr fun h => by rw [h, pow_zero, one_mul] at hfac; omega
  have hhalf : p / 2 = 2 ^ (s - 1) * q := by
    have : 2 ^ s * q = 2 * (2 ^ (s - 1) * q) := by
      rw [← mul_assoc, ← pow_succ']; congr 2; omega
    omega
  have hn1 : ((powMod n0 q p : Nat) : ZMod p) ^ 2 ^ (s - 1) = -1 := by
    rw [cast_powMod, ← pow_mul, mul_comm q, ← hhalf]; exact pow_half_of_not_isSquare hns
  have hapow : (a : ZMod p) ^ (2 ^ (s - 1) * q) = 1 := by
    rw [← hhalf]; exact (ZMod.euler_criterion p h0).mp hsq
  have ha1 : ((powMod a ((q + 1) / 2) p : Nat) : ZMod p) ^ 2 = a * (a : ZMod p) ^ q := by
    rw [cast_powMod, ← pow_mul, show (q + 1) / 2 * 2 = q + 1 by omega, pow_succ']
  have hw : ((invMod a p : Nat) : ZMod p) * ((powMod a ((q + 1) / 2) p : Nat) : ZMod p) ^ 2 = (a : ZMod p) ^ q := by
    rw [ha1, ← mul_assoc, mul_comm _ (a : ZMod p), hinv, one_mul]
  have hc := correction_spec s (max s 2) (powMod a ((q + 1) / 2) p) (invMod a p) (powMod n0 q p) rfl (fun _ => hn1)
    (by
      rw [hw, ← pow_mul, mul_comm]
      rcases Nat.lt_or_ge s 2 with h | h
      · rw [show max s 2 - 1 = 0 + 1 by omega, pow_succ, pow_zero, one_mul, mul_comm, pow_mul]
        rw [show s - 1 = 0 by omega, pow_zero, one_mul] at hapow
        rw [hapow, one_pow]
      · rw [show max s 2 - 1 = s - 1 by omega]; exact hapow)
    (fun h => by rw [hw]; rw [show s - 1 = 0 by omega, pow_zero, one_mul] at hapow; exact hapow)
  refine ⟨_, Nat.mod_lt _ hp.out.pos, rfl, ?_⟩
  rw [ZMod.natCast_mod]
  push_cast
  have := congrArg (fun x => (a : ZMod p) * x) hc
  simp only [mul_one] at this
  rwa [← mul_assoc, hinv, one_mul] at this

/-- MODSQRT modulo an odd prime (R182): both roots where there are any, no result where there is none. -/
theorem modSqrt_spec (h2 : p ≠ 2) (a : Nat) :
    (IsSquare (a : ZMod p) → ∃ r < p, modSqrt a p = .roots r ((p - r) % p) ∧ ((r : Nat) : ZMod p) ^ 2 = a) ∧
    (¬IsSquare (a : ZMod p) → modSqrt a p = .nonResidue) := by
  have hpp := hp.out.two_le
  have hcast : ((a % p : Nat) : ZMod p) = a := ZMod.natCast_mod a p
  unfold modSqrt
  by_cases h1 : a % p = 1
  · have ha : (a : ZMod p) = 1 := by rw [← hcast, h1]; simp
    rw [if_pos h1]
    refine ⟨fun _ => ⟨1, by omega, by rw [Nat.mod_eq_of_lt (by omega)], by rw [ha]; simp⟩, fun h => ?_⟩
    exact absurd (by rw [ha]; exact IsSquare.one) h
  · rw [if_neg h1]
    by_cases hsq : IsSquare (a : ZMod p)
    · rw [if_neg (fun h => (jacobi_eq_neg_one_iff h2 _).mp h (by rw [hcast]; exact hsq))]
      refine ⟨fun _ => ?_, fun h => absurd hsq h⟩
      cases hr : isqrtAlg (a % p) with
      | some r =>
        have hrr := (isqrtAlg_eq_some _ _).mp hr
        have hlt := Nat.mod_lt a hp.out.pos
        refine ⟨r, by nlinarith, rfl, ?_⟩
        rw [← hcast, ← hrr]; push_cast; ring
      | none =>
        have h0 : (a : ZMod p) ≠ 0 := fun h => by
          have h3 : a % p = 0 := Nat.mod_eq_zero_of_dvd ((ZMod.natCast_eq_zero_iff a p).mp h)
          exact (isqrtAlg_eq_none _).mp hr 0 h3.symm
        have := tonelli_spec h2 (a % p) (by rw [hcast]; exact h0) (by rw [hcast]; exact hsq)
        rwa [hcast] at this
    · rw [if_pos ((jacobi_eq_neg_one_iff h2 _).mpr (by rw [hcast]; exact hsq))]
      exact ⟨fun h => absurd h hsq, fun _ => rfl⟩

end Sys2Proof.Machine
end

