-- ==== Sys2Proof/Tests/Slice0.lean ====
section
/-! SUPPORT. Tests. Expected results come from spec/95_test_vectors.md (the row is named beside each) or from the rule named.
First the syntax and the encoding, then at most two tests per command, each one step, then the host port, then a witness
for the hypotheses of every statement. -/

namespace Sys2Proof.Tests

open Sys2Proof.Machine

-- One test after the other: tests evaluated by the kernel wait for one another, and each one waiting takes a thread.
set_option Elab.async false

/-! ## Syntax and encoding -/

theorem test_wellFormed_accepts : (Instr.xgcd 2 3 4 0 1).wellFormed = true ∧ (Instr.modsqrt 2 3 2 2).wellFormed = true := by
  decide

/-- Ill-formed: each pair of equal destinations of XGCD (R103). -/
theorem test_wellFormed_refuses_xgcd : (Instr.xgcd 1 1 4 2 3).wellFormed = false ∧
    (Instr.xgcd 1 4 1 2 3).wellFormed = false ∧ (Instr.xgcd 4 1 1 2 3).wellFormed = false := by decide

/-- Ill-formed: equal destinations of MODSQRT (R103). -/
theorem test_wellFormed_refuses_modsqrt : (Instr.modsqrt 2 2 0 1).wellFormed = false := by decide

/-- The fields written out bit by bit (R91, R93): RSV, F, RD3, RD2, RM, RB, RA, RD, OPC. -/
theorem test_decode_bits :
    decode 0b00000_0_000_000_000_000_000_000_00000000#32 = .ok .nop ∧
    decode 0b00000_0_000_000_010_001_000_011_00000001#32 = .ok (.powmod 3 0 1 2) ∧
    decode 0b00000_0_100_011_000_001_000_010_00000010#32 = .ok (.xgcd 2 3 4 0 1) ∧
    decode 0b00000_0_000_000_001_000_000_010_00000011#32 = .ok (.modinv 2 0 1) ∧
    decode 0b00000_0_000_000_001_000_011_101_00000100#32 = .ok (.modred 5 3 1) ∧
    decode 0b00000_0_000_000_110_101_100_111_00000101#32 = .ok (.montmul 7 4 5 6) ∧
    decode 0b00000_0_000_000_010_000_000_100_00000110#32 = .ok (.montin 4 0 2) ∧
    decode 0b00000_0_000_000_001_000_110_000_00000111#32 = .ok (.jacobi 6 1) ∧
    decode 0b00000_0_000_000_000_000_011_001_00001000#32 = .ok (.isqrt 1 3) ∧
    decode 0b00000_0_000_011_001_000_000_010_00001001#32 = .ok (.modsqrt 2 3 0 1) ∧
    decode 0b00000_0_000_000_000_000_101_000_00001010#32 = .ok (.isprime 5) ∧
    decode 0b00000_1_000_000_000_000_000_101_00001011#32 = .ok (.genprime 5 true) ∧
    decode 0b00000_0_000_000_000_000_000_101_00001011#32 = .ok (.genprime 5 false) := by decide +kernel

/-- Rows E-2 to E-8, E-13 to E-16, E-18, E-21, E-22: illegal words. -/
theorem test_decode_refuses :
    [0x00000100#32, 0x08000001#32, 0x04000001#32, 0x00100001#32, 0x00020002#32, 0x00004203#32, 0x00020107#32,
      0x00020108#32, 0x0000010A#32, 0x0000080B#32, 0x0400000A#32].map decode =
      List.replicate 11 (.error .nonZeroUnusedField) ∧
    [0x0000000C#32, 0x000000FF#32, 0xFFFFFFFF#32].map decode = List.replicate 3 (.error .reservedOpcode) := by
  decide +kernel

/-- The word and its operands as the opcode table numbers them. -/
theorem test_decodeTableWord : decodeTableWord 32 0x02304202 = some (.xgcd 2 3 4 0 1) ∧ decodeTableWord 32 0x0C = none := by
  decide +kernel

/-! ## States for the tests -/

/-- An idle machine of `nword` words per register that holds these values, 0 elsewhere, with these parameters and these
random words supplied. -/
def machine (nword : Nat) (vals : List (Reg × Int)) (bitlen persist filtMod filtRes : Nat := 0) (rng : List Word := []) :
    State :=
  { ({ State.powerOn nword 0 with
      wide := #v[.ofInt nword 0, .ofInt nword 0, .ofInt nword 0, .ofInt nword 0, .ofInt nword 0, .ofInt nword 0,
        .ofInt nword 0, .ofInt nword 0] }).writeRegs vals with
    bitlen := BitVec.ofNat 32 bitlen, persist := BitVec.ofNat 32 persist, filtMod := BitVec.ofNat 32 filtMod,
    filtRes := BitVec.ofNat 32 filtRes, rng := rng }

/-- The state after the next step, or the same state where there is none. -/
def after (s : State) : State :=
  match step s with
  | .next t => t
  | .fault _ => s
  | .refused _ => s

theorem step_after (s : State) : step s = .next (after s) := by
  have h : ∃ t, step s = .next t := by
    have key (u : State) : ∃ t, u.completeTurn = .next t := by
      rcases u.completeTurn_cases with ⟨-, h⟩ | ⟨l, t, -, h, -⟩ <;> exact ⟨_, h⟩
    unfold step
    cases s.agenda with
    | nil => exact key s
    | cons e rest =>
      cases e
      case complete => exact key _
      all_goals exact ⟨_, rfl⟩
  obtain ⟨t, ht⟩ := h
  rw [after, ht]

/-- The state after the meaning of `i`, or the same state where there is none. -/
def execAfter (i : Instr) (s : State) : State :=
  match exec i s with
  | .next t => t
  | .fault _ => s
  | .refused _ => s

theorem exec_after (i : Instr) (s : State) : exec i s = .next (execAfter i s) := by
  obtain ⟨t, ht, -⟩ := exec_cases i s
  rw [execAfter, ht]

/-- The state after the command word `w` was accepted and run by one step. -/
def ran (s : State) (w : Nat) : State := after (s.withFetchWord 32 w)

theorem inv_of_idle (s : State) (hr : s.running = none) (hw : 2 ≤ s.nword ∧ s.nword ≤ 128)
    (hl : ∀ r : Reg, (s.wide[r]).words.length = s.nword) (he : s.ecode = .ok) (h0 : s.result = 0#32) : s.Inv :=
  ⟨hw, hl, by simp [hr], by simp [State.busy, hr], by simp [he], by simp [he], .inl h0⟩

/-- The test states meet the invariant. -/
theorem machine_inv (nword : Nat) (vals : List (Reg × Int)) (b p k r : Nat) (ws : List Word) (h : 2 ≤ nword ∧ nword ≤ 128) :
    (machine nword vals b p k r ws).Inv := by
  refine inv_of_idle _ (by simp [machine, State.powerOn]) (by simpa [machine, State.powerOn] using h) ?_
    (by simp [machine, State.powerOn]) (by simp [machine, State.powerOn])
  intro i
  have := State.writeRegs_words ({ State.powerOn nword 0 with
      wide := #v[.ofInt nword 0, .ofInt nword 0, .ofInt nword 0, .ofInt nword 0, .ofInt nword 0, .ofInt nword 0,
        .ofInt nword 0, .ofInt nword 0] }) vals (by intro j; fin_cases j <;> simp [State.powerOn]) i
  simpa [machine, State.powerOn] using this

/-- So does a test state that has accepted a word. -/
theorem accept_inv (s : State) (h : s.Inv) (c : Word) : (s.accept c).Inv :=
  ⟨h.width, h.words, by rintro l hl; simp at hl; subst hl; simp, by simp, by simp, by simp, by simp⟩

theorem agenda_inv (s : State) (h : s.Inv) (l : List Event) : State.Inv { s with agenda := l } :=
  ⟨h.width, h.words, h.latch, h.clear, h.codes, h.error, h.symbol⟩

/-! ## Commands: one step each -/

/-- H-16 and R220: NOP leaves DONE, and BUSYWR as it was. -/
theorem test_nop : (ran (machine 2 []) 0x00000000).statusWord = 0x02#32 ∧
    (ran { machine 2 [] with busywr := true } 0x00000000).statusWord = 0x82#32 := by decide +kernel

/-- P-1. -/
theorem test_powmod : (ran (machine 2 [(0, 4), (1, 13), (2, 497)]) 0x00044301).reg 3 = 445 ∧
    (ran (machine 2 [(0, 4), (1, 13), (2, 497)]) 0x00044301).statusWord = 0x02#32 := by decide +kernel

/-- P-16 (the range check comes first) and the aliasing row: all four fields name `w0`. -/
theorem test_powmod_errors_and_aliasing : (ran (machine 2 [(0, -4), (1, 13), (2, 0)]) 0x00044301).statusWord = 0x66#32 ∧
    (ran (machine 2 [(0, 4), (1, 13), (2, 0)]) 0x00044301).statusWord = 0x46#32 ∧
    (ran (machine 2 [(0, 3)]) 0x00000001).reg 0 = 0 := by decide +kernel

/-- X-1: the coefficients' order and signs, and the steps. -/
theorem test_xgcd : let t := ran (machine 2 [(0, 240), (1, 46)]) 0x02304202
    t.reg 2 = 2 ∧ t.reg 3 = -9 ∧ t.reg 4 = 47 ∧ t.iter = 5#32 ∧ t.portRead 7#11 = 0x08#32 := by decide +kernel

/-- X-9 (operands swapped), and E-12: `RD = RD2`. -/
theorem test_xgcd_swapped_and_illegal : let t := ran (machine 2 [(0, 46), (1, 240)]) 0x02304202
    t.reg 3 = 47 ∧ t.reg 4 = -9 ∧ t.iter = 6#32 ∧ (ran (machine 2 []) 0x0210D102).statusWord = 0x56#32 := by
  decide +kernel

/-- I-1. -/
theorem test_modinv : let t := ran (machine 2 [(0, 65537), (1, 1020096)]) 0x00020203
    t.reg 2 = 832193 ∧ t.iter = 11#32 ∧ t.statusWord = 0x02#32 := by decide +kernel

/-- I-5 and I-4. -/
theorem test_modinv_corners : let t := ran (machine 2 [(0, 6), (1, 9), (2, 1234)]) 0x00020203
    t.reg 2 = 1234 ∧ t.iter = 0#32 ∧ t.statusWord = 0x46#32 ∧
    (ran (machine 2 [(0, 0), (1, 1), (2, 7)]) 0x00020203).reg 2 = 0 := by decide +kernel

/-- M-1 and M-7: a negative source. -/
theorem test_modred : (ran (machine 2 [(0, -3), (1, 11)]) 0x00020204).reg 2 = 8 ∧
    (ran (machine 2 [(0, -5), (1, 3)]) 0x00020204).reg 2 = 1 := by decide +kernel

/-- M-2 (never negative zero) and M-11 (a negative modulus). -/
theorem test_modred_corners : ((ran (machine 2 [(0, -77), (1, 7), (2, -1)]) 0x00020204).wide[2]).sign = false ∧
    (ran (machine 2 [(0, -3), (1, -11)]) 0x00020204).statusWord = 0x66#32 := by decide +kernel

/-- T-2 at W = 64 and at W = 256: the result depends on the width. -/
theorem test_montmul : (ran (machine 2 [(0, 20), (1, 20), (2, 77)]) 0x00044305).reg 3 = 25 ∧
    (ran (machine 8 [(0, 20), (1, 20), (2, 77)]) 0x00044305).reg 3 = 53 := by decide +kernel

/-- T-10: an even modulus. T-9: modulus 1. -/
theorem test_montmul_corners : (ran (machine 2 [(0, 3), (1, 5), (2, 8)]) 0x00044305).statusWord = 0x46#32 ∧
    (ran (machine 2 [(0, 6), (1, 6), (2, 1), (3, 9)]) 0x00044305).reg 3 = 0 := by decide +kernel

/-- T-2: MONTIN at both widths. -/
theorem test_montin : (ran (machine 2 [(0, 20), (2, 77)]) 0x00040406).reg 4 = 12 ∧
    (ran (machine 8 [(0, 20), (2, 77)]) 0x00040406).reg 4 = 26 := by decide +kernel

/-- J-1, J-2, J-8: the three values. -/
theorem test_jacobi : (ran (machine 2 [(0, 1001), (1, 9907)]) 0x00020007).result = 0xFFFFFFFF#32 ∧
    (ran (machine 2 [(0, 19), (1, 45)]) 0x00020007).result = 1#32 ∧
    (ran (machine 2 [(0, 6), (1, 9)]) 0x00020007).result = 0#32 := by decide +kernel

/-- J-18 and J-5. -/
theorem test_jacobi_corners : (ran (machine 2 [(0, 5), (1, 8)]) 0x00020007).statusWord = 0x46#32 ∧
    (ran (machine 2 [(0, 0), (1, 1)]) 0x00020007).result = 1#32 := by decide +kernel

/-- Q-10 and Q-5: a square as wide as W = 64 admits, a non-square. -/
theorem test_isqrt : (ran (machine 2 [(0, 18446744065119617025), (1, 7)]) 0x00000108).reg 1 = 4294967295 ∧
    (ran (machine 2 [(0, 15), (1, 7)]) 0x00000108).reg 1 = 7 ∧
    (ran (machine 2 [(0, 15), (1, 7)]) 0x00000108).statusWord = 0x02#32 := by decide +kernel

/-- R-3: the variant with two corrections. R-10: `s = 1`. R-28: no non-residue. -/
theorem test_modsqrt : let t := ran (machine 2 [(0, 8), (1, 17)]) 0x00320209
    t.reg 2 = 12 ∧ t.reg 3 = 5 ∧ t.statusWord = 0x0A#32 ∧ (ran (machine 2 [(0, 5), (1, 11)]) 0x00320209).reg 2 = 4 ∧
    (ran (machine 2 [(0, 7), (1, 9)]) 0x00320209).statusWord = 0x46#32 := by decide +kernel

/-- R-27: a composite modulus, no roots. R-20: root 0. R-24: a non-residue. -/
theorem test_modsqrt_corners : let t := ran (machine 2 [(0, 5), (1, 21)]) 0x00320209
    t.reg 2 = 10 ∧ t.reg 3 = 11 ∧ (ran (machine 2 [(0, 0), (1, 7), (3, 9)]) 0x00320209).reg 3 = 0 ∧
    (ran (machine 2 [(0, 3), (1, 7)]) 0x00320209).statusWord = 0x02#32 := by decide +kernel

/-- A-1: a strong liar and then a witness; two words consumed. -/
theorem test_isprime : let t := ran (machine 2 [(0, 221)] 0 2 0 0 [172#32, 135#32, 9#32]) 0x0000000A
    t.found = false ∧ t.done = true ∧ t.rng = [9#32] ∧ t.drawn = 2 := by decide +kernel

/-- A-19: two words per base, least significant first. And R83: without words the command stays busy. -/
theorem test_isprime_wide :
    let t := ran (machine 2 [(0, 2305843009213693951)] 0 2 0 0 [5#32, 0#32, 7#32, 1#32]) 0x0000000A
    t.statusWord = 0x0A#32 ∧ t.rng = [] ∧
    (ran (machine 2 [(0, 2305843009213693951)] 0 2 0 0 [5#32]) 0x0000000A).statusWord = 0x01#32 := by decide +kernel

/-- G-1: filter, test, three candidates, six words. -/
theorem test_genprime : let t := ran (machine 2 [] 8 2 4 3
      [0xA4#32, 0x12345677#32, 0#32, 0x53#32, 5#32, 100#32, 1#32]) 0x0400050B
    t.reg 5 = 211 ∧ t.iter = 3#32 ∧ t.rng = [1#32] ∧ t.drawn = 6 ∧ t.statusWord = 0x02#32 := by decide +kernel

/-- G-4: 40 bits from two words. G-9: `W + 1`. G-13: a filter with a common divisor. -/
theorem test_genprime_corners :
    (ran (machine 2 [] 40 1 0 0 [0x89ABCDFE#32, 0xFFFFFF12#32, 5#32, 0#32]) 0x0000050B).reg 5 = 0x9289ABCDFF ∧
    (ran (machine 2 [] 65 1 0 0 []) 0x0000050B).statusWord = 0x66#32 ∧
    (ran (machine 2 [] 8 1 4 2 []) 0x0400050B).statusWord = 0x66#32 := by decide +kernel

/-! ## The host port -/

/-- The state after one event. -/
def event (s : State) (e : Event) : State := after { s with agenda := [e] }

/-- H-1, H-2, H-6, H-5: constants, a reserved offset, CMD. -/
theorem test_reads : (machine 8 []).portRead 0#11 = 0x4E544B31#32 ∧ (machine 8 []).portRead 1#11 = 0x808#32 ∧
    (machine 128 []).portRead 1#11 = 0x880#32 ∧ (machine 2 []).portRead 0x3FF#11 = 0#32 ∧
    (machine 2 []).portRead 4#11 = 0#32 := by decide +kernel

/-- H-9: word 1 of `w0` weighs 2^32. H-7: a word the width does not implement. -/
theorem test_magnitude_words : (event (machine 2 []) (.write 0x401#11 1#32)).reg 0 = 2 ^ 32 ∧
    (event (machine 8 []) (.write 0x408#11 0x12345678#32)).portRead 0x408#11 = 0#32 ∧
    (event (machine 2 []) (.write 0x781#11 7#32)).reg 7 = 7 * 2 ^ 32 := by decide +kernel

/-- H-10, H-20: reserved bits of SIGN and CTRL. -/
theorem test_sign_and_ctrl : (event (machine 2 []) (.write 7#11 0xFFFFFF05#32)).portRead 7#11 = 0x05#32 ∧
    (event (machine 2 []) (.write 2#11 0xFFFFFFFD#32)).portRead 2#11 = 0x01#32 := by decide +kernel

/-- H-11, H-12: clearing DONE keeps FOUND, and a 0 clears nothing. -/
theorem test_status_write :
    (event { machine 2 [] with done := true, found := true } (.write 3#11 2#32)).portRead 3#11 = 0x08#32 ∧
    (event { machine 2 [] with done := true, ecode := .mathError } (.write 3#11 0xFFFFFFFD#32)).portRead 3#11 = 0x46#32 := by
  decide +kernel

/-- H-13, H-15: a write dropped while busy, and one that is not. -/
theorem test_busy_writes : let s := (machine 2 []).accept 0x0000050B#32
    (event s (.write 8#11 9#32)).portRead 3#11 = 0x81#32 ∧ (event s (.write 8#11 9#32)).portRead 8#11 = 0#32 ∧
    (event s (.write 2#11 1#32)).ie = true ∧ (event s (.write 2#11 1#32)).busywr = false := by decide +kernel

/-- P5 lines 19 to 20: an abort of a command that never completes. -/
theorem test_abort :
    let s := event ((machine 2 [] 2 0 4 1).accept 0x0400030B#32) (.write 2#11 3#32)
    (after { s with agenda := [] }).portRead 3#11 = 0x76#32 ∧ (event s .abort).ecode = .aborted ∧
    (after { s with agenda := [] }).irq = true := by decide +kernel

/-- R260: reset while busy. -/
theorem test_reset : let t := event ((machine 2 []).accept 0#32) .reset
    t.statusWord = 0#32 ∧ t.nword = 2 ∧ t.running = none := by decide +kernel

/-! ## Witnesses: for every statement with hypotheses, a state and operands that meet them, each clause on its own -/

theorem witness_EncodeOfDecodeIsTheWord : decode 0x02304202#32 = .ok (.xgcd 2 3 4 0 1) := by decide +kernel

/-- A state with the command `powmod w3, w0, w1, w2` just accepted. -/
def busyPowmod : State := (machine 2 [(0, 4), (1, 13), (2, 497)]).accept 0x00044301#32

/-- A state in which `genprime.f w3` runs for ever (R206), with an abort request. -/
def hanging : State := event ((machine 2 [] 2 0 4 1 [0#32, 7#32]).accept 0x0400030B#32) (.write 2#11 3#32)

theorem witness_StepRunsTheDecodedCommand_turn : ∃ l, busyPowmod.running = some l ∧
    decode l.cmd = .ok (.powmod 3 0 1 2) ∧ l.abortReq = false ∧ busyPowmod.agenda = [] ∧
    ∃ t, exec (.powmod 3 0 1 2) busyPowmod = .next t ∧ t.busy = false :=
  ⟨_, rfl, by decide +kernel, rfl, rfl, _, exec_after _ _, by decide +kernel⟩

theorem witness_StepRunsTheDecodedCommand_event : let s := { busyPowmod with agenda := [.complete, .read 3#11] }
    ∃ l, s.running = some l ∧ decode l.cmd = .ok (.powmod 3 0 1 2) ∧ l.abortReq = false ∧
      s.agenda = .complete :: [.read 3#11] := ⟨_, rfl, by decide +kernel, rfl, rfl⟩

theorem witness_StepRunsTheDecodedCommand_fetched : decode (BitVec.ofNat 32 0x00044301) = .ok (.powmod 3 0 1 2) := by
  decide +kernel

theorem witness_IllegalWordEndsWithIllegalCmd : (machine 2 []).busy = false ∧
    (∃ e, decode 0x0000000C#32 = .error e) ∧ (∃ e, decode 0x08000001#32 = .error e) ∧
    ∃ i, decode 0x0210D102#32 = .ok i ∧ i.wellFormed = false :=
  ⟨by decide +kernel, ⟨.reservedOpcode, by decide +kernel⟩, ⟨.nonZeroUnusedField, by decide +kernel⟩,
    .xgcd 1 1 4 2 3, by decide +kernel, by decide⟩

theorem witness_IllegalWordEndsWithIllegalCmd_classes : 0x0B < ((0x0000000C#32).extractLsb' 0 8).toNat ∧
    (0x08000001#32).extractLsb' 27 5 ≠ 0#5 ∧ (0x04000001#32).getLsbD 26 = true ∧
    (0x04000001#32).extractLsb' 0 8 ≠ 0x0B#8 := by decide +kernel

theorem witness_DuplicateDestinationsAreIllegal : (Instr.xgcd 1 1 4 2 3).wellFormed = false := by decide

theorem witness_CmdWriteIsAcceptance : let e := Event.write 4#11 0x00044301#32
    ({ machine 2 [] with agenda := [e] }).agenda = e :: [] ∧ ({ machine 2 [] with agenda := [e] }).busy = false ∧
    ({ busyPowmod with agenda := [e] }).agenda = e :: [] ∧ ({ busyPowmod with agenda := [e] }).busy = true := by
  decide +kernel

theorem witness_NopOnlyClearsTheResults : (machine 2 []).busywr = false ∧ (0x00000100#32).extractLsb' 0 8 = 0#8 ∧
    (0x00000100#32).extractLsb' 8 24 ≠ 0#24 := by decide +kernel

theorem witness_PowmodWritesThePower : let s := machine 2 [(0, 4), (1, 13), (2, 497)]
    s.Inv ∧ 0 ≤ s.src 0 ∧ 0 ≤ s.src 1 ∧ 0 < s.src 2 := ⟨machine_inv _ _ _ _ _ _ _ (by decide), by decide +kernel⟩

theorem witness_PowmodModulusOneGivesZero : let s := machine 2 [(0, 5), (1, 0), (2, 1)]
    s.Inv ∧ 0 ≤ s.src 0 ∧ 0 ≤ s.src 1 ∧ 0 < s.src 2 ∧ s.src 2 = 1 :=
  ⟨machine_inv _ _ _ _ _ _ _ (by decide), by decide +kernel⟩

theorem witness_XgcdWritesGcdAndBezoutPair : let s := machine 2 [(0, 0), (1, 0)]
    s.Inv ∧ [(2 : Reg), 3, 4].Nodup ∧ 0 ≤ s.src 0 ∧ 0 ≤ s.src 1 ∧
      (⟨0, 1, 0, 0⟩ : Bezout) = xgcdAlg (s.src 0).toNat (s.src 1).toNat :=
  ⟨machine_inv _ _ _ _ _ _ _ (by decide), by decide +kernel⟩

theorem witness_XgcdAlgProperties : (0 < 5) ∧ (0 < 46 ∧ 46 < 240) ∧ 46 < 47 := by decide

theorem witness_ModinvWritesTheInverse : let s := machine 2 [(0, 0), (1, 1)]
    s.Inv ∧ 0 ≤ s.src 0 ∧ 0 < s.src 1 ∧ Int.gcd (s.src 0) (s.src 1) = 1 :=
  ⟨machine_inv _ _ _ _ _ _ _ (by decide), by decide +kernel⟩

theorem witness_ModinvAgreesWithXgcdThenModred (a : Int) (ha : a = 17 ∨ a = 6) : let s := machine 2 [(0, a), (1, 3120)]
    s.Inv ∧ s.running = none ∧ [(2 : Reg), 3, 4].Nodup ∧ (1 : Reg) ∉ [(2 : Reg), 3, 4] ∧ 0 ≤ s.reg 0 ∧ 0 < s.reg 1 ∧
      ((execAfter (.xgcd 2 3 4 0 1) s).reg 2 = 1 ↔ a = 17) :=
  ⟨machine_inv _ _ _ _ _ _ _ (by decide), by rcases ha with rfl | rfl <;> decide +kernel⟩

theorem witness_ModredWritesTheResidue : let s := machine 2 [(0, -77), (1, 7)]
    s.Inv ∧ 0 < s.src 1 := ⟨machine_inv _ _ _ _ _ _ _ (by decide), by decide +kernel⟩

theorem witness_MontmulWritesTheMontgomeryProduct : let s := machine 2 [(0, 20), (1, 20), (2, 77)]
    s.Inv ∧ 0 ≤ s.src 0 ∧ 0 ≤ s.src 1 ∧ 0 < s.src 2 ∧ s.src 2 % 2 = 1 :=
  ⟨machine_inv _ _ _ _ _ _ _ (by decide), by decide +kernel⟩

theorem witness_MontinWritesTheMontgomeryForm : let s := machine 2 [(0, 20), (2, 1)]
    s.Inv ∧ 0 ≤ s.src 0 ∧ 0 < s.src 2 ∧ s.src 2 % 2 = 1 :=
  ⟨machine_inv _ _ _ _ _ _ _ (by decide), by decide +kernel⟩

theorem witness_MontgomeryRoundTrip (b : Int) (hb : b = 1 ∨ b = 20) : let s := machine 2 [(0, 20), (1, b), (2, 77)]
    s.Inv ∧ s.running = none ∧ (3 : Reg) ≠ 1 ∧ (3 : Reg) ≠ 2 ∧ 0 ≤ s.reg 0 ∧ 0 ≤ s.reg 1 ∧ 0 < s.reg 2 ∧
      s.reg 2 % 2 = 1 ∧ (s.reg 1 = 1 ↔ b = 1) :=
  ⟨machine_inv _ _ _ _ _ _ _ (by decide), by rcases hb with rfl | rfl <;> decide +kernel⟩

theorem witness_JacobiReportsTheSymbol : let s := machine 2 [(0, 1001), (1, 9907)]
    0 ≤ s.src 0 ∧ s.src 1 = (9907 : Nat) ∧ 9907 % 2 = 1 := by decide +kernel

theorem witness_IsqrtOfSquaresAndNonSquares : let s := machine 2 [(0, 144), (1, 2)]
    s.Inv ∧ 0 ≤ s.src 0 ∧ 0 ≤ s.src 1 ∧ s.src 0 = (12 : Nat) * (12 : Nat) ∧ ∀ r : Nat, s.src 1 ≠ r * r := by
  refine ⟨machine_inv _ _ _ _ _ _ _ (by decide), by decide +kernel, by decide +kernel, by decide +kernel, fun r h => ?_⟩
  have h2 : (machine 2 [(0, 144), (1, 2)]).src 1 = 2 := by decide +kernel
  rw [h2] at h
  have h3 : r * r = 2 := by exact_mod_cast h.symm
  rcases (show r = 0 ∨ r = 1 ∨ 2 ≤ r by omega) with rfl | rfl | hr
  · omega
  · omega
  · nlinarith

/-- A residue with no integer root, one with an integer root, and a non-residue, modulo 7. -/
theorem witness_ModsqrtFindsRootsModuloAPrime : let s := machine 2 [(0, 2), (1, 7), (2, 3), (3, 4)]
    s.Inv ∧ (2 : Reg) ≠ 3 ∧ s.src 0 = (2 : Nat) ∧ s.src 2 = (3 : Nat) ∧ s.src 3 = (4 : Nat) ∧ s.src 1 = (7 : Nat) ∧
      Nat.Prime 7 ∧ 7 ≠ 2 ∧ 3 * 3 ≡ 2 [MOD 7] ∧ (∀ r, r * r ≠ 2 % 7) ∧ 7 % 4 = 3 ∧ 2 * 2 = 4 % 7 ∧
      ¬∃ x : Nat, x * x ≡ 3 [MOD 7] := by
  refine ⟨machine_inv _ _ _ _ _ _ _ (by decide), by decide, by decide +kernel, by decide +kernel, by decide +kernel,
    by decide +kernel, by norm_num, by decide, by decide, (isqrtAlg_eq_none _).mp (by decide +kernel), rfl, rfl, ?_⟩
  rintro ⟨x, hx⟩
  rw [Nat.ModEq, Nat.mul_mod] at hx
  have hlt := Nat.mod_lt x (show 0 < 7 by decide)
  generalize x % 7 = y at hx hlt
  interval_cases y <;> exact absurd hx (by decide)

/-- The clauses in order: R-14, R-26, R-18; step 5 with a root (R182's example), without an inverse, without a
non-residue (R-28). -/
theorem witness_ModsqrtFollowsItsSteps :
    (∀ v ∈ [(15, 7), (10, 21), (15, 11), (10, 13), (3, 15), (7, 9)], let s := machine 2 [(0, v.1), (1, v.2)];
      s.Inv ∧ s.src 0 = v.1 ∧ s.src 1 = v.2 ∧ v.2 % 2 = 1 ∧ 3 ≤ v.2) ∧
    15 % 7 = 1 ∧ (10 % 21 ≠ 1 ∧ jacobiSym 10 21 = -1) ∧ (15 % 11 ≠ 1 ∧ jacobiSym 15 11 ≠ -1 ∧ 2 * 2 = 15 % 11) ∧
    (jacobiSym 10 13 ≠ -1 ∧ (∀ r, r * r ≠ 10 % 13) ∧ (2 < 13 ∧ jacobiSym 2 13 = -1) ∧ Nat.gcd (10 % 13) 13 = 1) ∧
    (jacobiSym 3 15 ≠ -1 ∧ (∀ r, r * r ≠ 3 % 15) ∧ Nat.gcd (3 % 15) 15 ≠ 1) ∧
    (jacobiSym 7 9 ≠ -1 ∧ 9 = 3 * 3 ∧ ∀ r, r * r ≠ 7 % 9) := by
  refine ⟨?_, by decide, ⟨by decide, by norm_num⟩, ⟨by decide, by norm_num, by decide⟩,
    ⟨by norm_num, (isqrtAlg_eq_none _).mp (by decide +kernel), ⟨by decide, by norm_num⟩, by decide⟩,
    ⟨by norm_num, (isqrtAlg_eq_none _).mp (by decide +kernel), by decide⟩,
    ⟨by norm_num, by decide, (isqrtAlg_eq_none _).mp (by decide +kernel)⟩⟩
  intro v hv
  exact ⟨machine_inv _ _ _ _ _ _ _ (by decide), by
    simp only [List.mem_cons, List.not_mem_nil, or_false] at hv
    rcases hv with rfl | rfl | rfl | rfl | rfl | rfl <;> decide +kernel⟩

theorem witness_IsprimeNeverRejectsAPrime :
    (let s := machine 2 [(0, 97)] 0 2 0 0 [0#32, 93#32];
      s.src 0 = (97 : Nat) ∧ s.srcPersist * baseWords 97 ≤ s.rng.length) ∧ Nat.Prime 97 ∧
    (let s := machine 2 [(0, 2)] 0 0 0 0 [];
      s.src 0 = (2 : Nat) ∧ s.srcPersist * baseWords 2 ≤ s.rng.length) ∧ Nat.Prime 2 :=
  ⟨by decide +kernel, by norm_num, by decide +kernel, by norm_num⟩

/-- Both ways: words for two rounds, and one word for three, whose base 137 is a witness (R198's example, second round). -/
theorem witness_IsprimeVerdictIsThatOfTheDrawnBases :
    (let s := machine 2 [(0, 221)] 0 2 0 0 [172#32, 135#32];
      s.src 0 = (221 : Nat) ∧ 5 ≤ 221 ∧ 221 % 2 = 1 ∧ s.srcPersist * baseWords 221 ≤ s.rng.length) ∧
    (let s := machine 2 [(0, 221)] 0 3 0 0 [135#32];
      s.src 0 = (221 : Nat) ∧ s.rng.length < s.srcPersist * baseWords 221 ∧
      ∃ k, (k + 1) * baseWords 221 ≤ s.rng.length ∧ ¬StrongLiar 221 (roundBase 221 s.rng k)) := by
  refine ⟨by decide +kernel, by decide +kernel, by decide +kernel, 0, by decide +kernel, fun h => ?_⟩
  have hb : roundBase 221 (machine 2 [(0, 221)] 0 3 0 0 [135#32]).rng 0 = 137 := by decide +kernel
  rw [hb] at h
  exact absurd ((basePasses_iff_strongLiar 221 137 (by decide) rfl).mpr h) (by decide +kernel)

theorem witness_IsprimeWithoutDraws : (machine 2 [(0, 3)] 0 5).src 0 = (3 : Nat) ∧ 3 < 4 ∧
    (machine 2 [(0, 4)] 0 5).src 0 = (4 : Nat) ∧ 4 % 2 = 0 ∧
    (machine 2 [(0, 9)]).src 0 = (9 : Nat) ∧ (machine 2 [(0, 9)]).srcPersist = 0 := by decide +kernel

theorem witness_IsprimeWaitsForRandomWords : let s := machine 2 [(0, 5)] 0 2 0 0 [0#32]
    s.src 0 = (5 : Nat) ∧ 5 ≤ 5 ∧ 5 % 2 = 1 ∧ s.rng.length < s.srcPersist * baseWords 5 ∧
      ∀ k, (k + 1) * baseWords 5 ≤ s.rng.length → StrongLiar 5 (roundBase 5 s.rng k) := by
  refine ⟨by decide +kernel, by decide, by decide, by decide +kernel, fun k hk => ?_⟩
  have hb : baseWords 5 = 1 := by decide +kernel
  have hl : (machine 2 [(0, 5)] 0 2 0 0 [0#32]).rng.length = 1 := rfl
  rw [hb, hl] at hk
  obtain rfl : k = 0 := by omega
  have : roundBase 5 (machine 2 [(0, 5)] 0 2 0 0 [0#32]).rng 0 = 2 := by decide +kernel
  rw [this]
  exact ⟨2, 1, by decide, by decide, .inr ⟨1, by decide, by decide⟩⟩

theorem no_sample_of_no_words (rounds : Nat) (filter : Option (Nat × Nat)) (n c : Nat) (rest : List Word) :
    ¬SamplesPrime 2 rounds filter [] n c rest := by
  have h0 : drawBits 2 [] = none := by decide
  intro h
  cases h with
  | accept hd => rw [h0] at hd; cases hd
  | filtered hd => rw [h0] at hd; cases hd
  | composite hd => rw [h0] at hd; cases hd

/-- G-1, whose words yield 211; and no words at all. -/
theorem witness_GenprimeCompletesIffWordsYieldAPrime :
    (let s := machine 2 [] 8 2 4 3 [0xA4#32, 0x12345677#32, 0#32, 0x53#32, 5#32, 100#32];
      s.Inv ∧ ¬badParameters s true ∧ SamplesPrime s.srcBitlen s.srcPersist (s.filter true) s.rng 3 211 []) ∧
    (let s := machine 2 [] 2;
      s.Inv ∧ ¬badParameters s false ∧ ¬∃ n c rest, SamplesPrime s.srcBitlen s.srcPersist (s.filter false) s.rng n c rest) ∧
    (let s := machine 2 [] 2 0 4 1;
      s.Inv ∧ s.srcBitlen = 2 ∧ s.srcFiltMod = 4 ∧ s.srcFiltRes = 1) ∧
    (let s := machine 2 [] 3 0 8 1;
      s.Inv ∧ s.srcBitlen = 3 ∧ s.srcFiltMod = 8 ∧ s.srcFiltRes = 1) := by
  refine ⟨⟨machine_inv _ _ _ _ _ _ _ (by decide), by unfold badParameters; decide +kernel, ?_⟩,
    ⟨machine_inv _ _ _ _ _ _ _ (by decide), by unfold badParameters; decide +kernel, ?_⟩,
    ⟨machine_inv _ _ _ _ _ _ _ (by decide), by decide +kernel⟩, ⟨machine_inv _ _ _ _ _ _ _ (by decide), by decide +kernel⟩⟩
  · have h := (samplePrime_eq_some 8 2 (some (4, 3)) (by decide) 7 0
      [0xA4#32, 0x12345677#32, 0#32, 0x53#32, 5#32, 100#32] (by decide) ⟨211, 3, []⟩).mp (by decide +kernel)
    obtain ⟨n, hn, hs⟩ := h
    obtain rfl : n = 3 := by simp only at hn; omega
    exact hs
  · rintro ⟨n, c, rest, h⟩
    exact no_sample_of_no_words _ _ _ _ _ h

theorem witness_GenprimeResultShape : let s := machine 2 [] 2 5 0 0 [0xFFFFFFFF#32]
    s.Inv ∧ exec (.genprime 5 false) s = .next (execAfter (.genprime 5 false) s) ∧
      (execAfter (.genprime 5 false) s).busy = false ∧ (execAfter (.genprime 5 false) s).ecode = .ok :=
  ⟨machine_inv _ _ _ _ _ _ _ (by decide), exec_after _ _, by decide +kernel⟩

theorem witness_NegativeOperandsAreOutOfRange : (Instr.powmod 3 0 1 2).wellFormed = true ∧
    ∃ r ∈ unsignedSources (.powmod 3 0 1 2), (machine 2 [(0, 4), (1, 13), (2, -1)]).src r < 0 :=
  ⟨by decide, 2, by decide, by decide +kernel⟩

/-- BITLEN 1, `W + 1` and 2; filters with `k = 1`, with `r = k`, with a common divisor. -/
theorem witness_GenprimeParametersAreChecked :
    (machine 2 [] 1).Inv ∧ (machine 2 [] 1).srcBitlen < 2 ∧ (machine 2 [] 65).width < (machine 2 [] 65).srcBitlen ∧
    (machine 2 [] 8 0 1 0).srcFiltMod < 2 ∧ (machine 2 [] 8 0 4 4).srcFiltMod ≤ (machine 2 [] 8 0 4 4).srcFiltRes ∧
    Nat.gcd (machine 2 [] 8 0 4 2).srcFiltRes (machine 2 [] 8 0 4 2).srcFiltMod ≠ 1 ∧
    ¬badParameters (machine 2 [] 2 0 0 0) false ∧ ¬badParameters (machine 2 [] 64 0 2 1) true :=
  ⟨machine_inv _ _ _ _ _ _ _ (by decide), by unfold badParameters; decide +kernel⟩

theorem witness_FailedPreconditionsAreMathErrors :
    (Instr.modinv 2 0 1).wellFormed = true ∧ (∀ r ∈ unsignedSources (.modinv 2 0 1), 0 ≤ (machine 2 [(0, 6), (1, 9)]).src r) ∧
    failsMath (machine 2 [(0, 6), (1, 9)]) (.modinv 2 0 1) ∧ failsMath (machine 2 []) (.powmod 3 0 1 2) ∧
    failsMath (machine 2 [(2, 8)]) (.montmul 3 0 1 2) ∧ failsMath (machine 2 [(1, 1)]) (.modsqrt 2 3 0 1) := by
  unfold failsMath; decide +kernel

/-- Completions with each code: I-5, E-12, P-14; and R-30, where MODSQRT finds no inverse. -/
theorem witness_ErrorCausesAreComplete :
    (∀ (i : Instr) (s : State), exec i s = .next (execAfter i s)) ∧
    (execAfter (.modinv 2 0 1) (machine 2 [(0, 6), (1, 9)])).ecode = .mathError ∧
    (execAfter (.modsqrt 2 3 0 1) (machine 2 [(0, 6), (1, 15)])).ecode = .mathError ∧
    (execAfter (.xgcd 1 1 4 2 3) (machine 2 [])).ecode = .illegalCmd ∧
    (execAfter (.powmod 3 0 1 2) (machine 2 [(0, -4)])).ecode = .operandRange ∧
    (execAfter (.genprime 3 false) (machine 2 [])).ecode = .operandRange ∧
    (execAfter (.genprime 3 false) (machine 2 [])).busy = false := ⟨exec_after, by decide +kernel⟩

theorem witness_ErrorsWriteNoRegister : let s := (machine 2 []).accept 0x0000000C#32
    step s = .next (after s) ∧ s.busy = true ∧ (after s).busy = false ∧ (after s).ecode ≠ .ok ∧
      (after s).ecode ≠ .aborted := ⟨step_after _, by decide +kernel⟩

theorem witness_CommandFrame : exec (.isqrt 1 0) (machine 2 [(0, 16)]) = .next (execAfter (.isqrt 1 0) (machine 2 [(0, 16)])) ∧
    (0 : Reg) ∉ (Instr.isqrt 1 0).dests ∧ drawsWords (.isqrt 1 0) = false := ⟨exec_after _ _, by decide⟩

/-- Q-4, J-1, X-1. -/
theorem witness_ResultsAreReportedOnlyByTheirCommands : (∀ (i : Instr) (s : State), exec i s = .next (execAfter i s)) ∧
    (execAfter (.isqrt 1 0) (machine 2 [(0, 4)])).found = true ∧ (execAfter (.isqrt 1 0) (machine 2 [(0, 4)])).busy = false ∧
    (execAfter (.jacobi 0 1) (machine 2 [(0, 1001), (1, 9907)])).result ≠ 0#32 ∧
    (execAfter (.xgcd 2 3 4 0 1) (machine 2 [(0, 240), (1, 46)])).iter ≠ 0#32 := ⟨exec_after, by decide +kernel⟩

/-- Two states with the same latch, in one of which a source register has changed. -/
theorem witness_RunningCommandReadsOnlyItsLatch :
    let s := busyPowmod
    let s' := busyPowmod.writeReg 0 9
    ∃ l, s.running = some l ∧ s'.running = some l ∧ s.nword = s'.nword ∧ s.rng = s'.rng ∧
      exec (.powmod 3 0 1 2) s = .next (execAfter (.powmod 3 0 1 2) s) ∧
      exec (.powmod 3 0 1 2) s' = .next (execAfter (.powmod 3 0 1 2) s') ∧
      (execAfter (.powmod 3 0 1 2) s).busy = false ∧ s.reg 0 ≠ s'.reg 0 :=
  ⟨_, rfl, rfl, rfl, rfl, exec_after _ _, exec_after _ _, by decide +kernel⟩

theorem witness_IdleExecIsAcceptanceAndCompletion : (machine 2 []).running = none := rfl

theorem witness_StepKeepsTheInvariant : busyPowmod.Inv ∧ step busyPowmod = .next (after busyPowmod) :=
  ⟨accept_inv _ (machine_inv _ _ _ _ _ _ _ (by decide)) _, step_after _⟩

theorem witness_ResetMeetsTheInvariant : 2 ≤ 2 ∧ 2 ≤ 128 ∧ 2 ≤ 128 ∧ 128 ≤ 128 := by decide

theorem witness_ResetLeavesTheStatedValues : ∃ s, s = State.powerOn 128 0 ∧ 2 ≤ 128 ∧ 128 ≤ 128 := ⟨_, rfl, by decide⟩

theorem witness_PlatformReset : let s := { busyPowmod with agenda := [.reset] }
    s.agenda = .reset :: [] ∧ ({ machine 2 [] with agenda := [Event.reset] }).busy = false := by decide +kernel

/-- The three writers: SIGN, the register's own word, a command; and a reset of a machine whose `w0` is not what the free
values say it is afterwards. -/
theorem witness_RegistersChangeOnlyByTheirWriters :
    (∀ s : State, step s = .next (after s)) ∧
    (event (machine 2 []) (.write 7#11 1#32)).wide[(0 : Reg)] ≠ (machine 2 []).wide[(0 : Reg)] ∧
    (event (machine 2 []) (.write 0x401#11 1#32)).wide[(0 : Reg)] ≠ (machine 2 []).wide[(0 : Reg)] ∧
    (after busyPowmod).wide[(3 : Reg)] ≠ busyPowmod.wide[(3 : Reg)] := ⟨step_after, by decide +kernel⟩

theorem witness_AbortedNeedsARequest : step hanging = .next (after hanging) ∧ (after hanging).ecode = .aborted ∧
    ∃ l, hanging.running = some l ∧ l.abortReq = true :=
  ⟨step_after _, by decide +kernel, (hanging.running).get (by decide +kernel), by simp, by decide +kernel⟩

theorem witness_AbortRequestEndsTheCommand :
    (∃ l, ({ busyPowmod with agenda := [.write 2#11 2#32] }).running = some l) ∧ (2#32).getLsbD 1 = true ∧
    ({ machine 2 [] with agenda := [.write 2#11 2#32] }).running = none ∧
    (∃ l, ({ hanging with agenda := [.abort] }).running = some l ∧ l.abortReq = true) ∧
    hanging.agenda = [] ∧ (∃ u, exec (.genprime 3 true) hanging = .next u ∧ u.busy = true) :=
  ⟨⟨_, rfl⟩, by decide, rfl, ⟨(hanging.running).get (by decide +kernel), by simp, by decide +kernel⟩, by decide +kernel,
    _, exec_after _ _, by decide +kernel⟩

theorem witness_LatchIsHeldUntilCompletion : (∃ l, busyPowmod.running = some l) ∧
    step busyPowmod = .next (after busyPowmod) := ⟨⟨_, rfl⟩, step_after _⟩

theorem witness_OutcomeLastsUntilTheNextAcceptance :
    (let s := { machine 2 [] with done := true, found := true, agenda := [.write 3#11 2#32] };
      step s = .next (after s) ∧ s.busy = false ∧ (after s).busy = false ∧ (∀ rest, s.agenda ≠ .reset :: rest) ∧
      (after s).done ≠ s.done) ∧
    ((machine 2 []).busy = false ∧ (machine 2 []).agenda = []) ∧
    ∃ l, busyPowmod.running = some l ∧ l.abortReq = false :=
  ⟨⟨step_after _, by decide +kernel, by decide +kernel, by simp, by decide +kernel⟩, by decide +kernel, _, rfl, rfl⟩

/-- Boundary addresses: CMD, SIGN, FILT_RES, the last implemented word of `w7` at W = 64. -/
theorem witness_BusyProtectedWritesAreDropped :
    (∀ a ∈ [4#11, 7#11, 11#11, 0x781#11], a = 4#11 ∨ (7 ≤ a.toNat ∧ a.toNat ≤ 11) ∨
      (0x400 ≤ a.toNat ∧ a.toNat % 0x80 < busyPowmod.nword)) ∧ busyPowmod.busy = true ∧ busyPowmod.busywr = false ∧
    (event busyPowmod (.write 0x781#11 5#32)).busywr = true ∧
    (event { busyPowmod with busywr := true } (.write 3#11 0x80#32)).busywr = false ∧
    (event busyPowmod (.write 2#11 1#32)).ie = true := by decide +kernel

/-- While busy SIGN and the implemented magnitude words are free, the words beside them are not; while idle none is. -/
theorem witness_ReadsHaveNoSideEffect :
    ({ busyPowmod with agenda := [.read 7#11] }).agenda = .read 7#11 :: [] ∧
    (∀ a ∈ [7#11, 0x400#11, 0x781#11], readsFree busyPowmod a ∧ ¬readsFree (machine 2 []) a) ∧
    ∀ a ∈ [6#11, 8#11, 0x3FF#11, 0x402#11], ¬readsFree busyPowmod a := by
  unfold readsFree; decide +kernel

/-- Boundary addresses: the first and the last reserved CSR offset, the first word `w0` lacks at W = 64, the last word. -/
theorem witness_ReservedOffsetsReadZeroAndIgnoreWrites : ∀ a ∈ [12#11, 0x3FF#11, 0x402#11, 0x7FF#11],
    (12 ≤ a.toNat ∧ a.toNat < 0x400) ∨ (0x400 ≤ a.toNat ∧ (machine 2 []).nword ≤ a.toNat % 0x80) := by decide +kernel

theorem witness_MagnitudeWordsWriteAndRead : let s := { machine 2 [] with agenda := [.write (magIndex 7 1) 5#32] }
    s.Inv ∧ s.busy = false ∧ 1 < s.nword ∧ s.agenda = .write (magIndex 7 1) 5#32 :: [] ∧ magIndex 7 1 = 0x781#11 ∧
      magIndex 0 0 = 0x400#11 :=
  ⟨agenda_inv _ (machine_inv _ _ _ _ _ _ _ (by decide)) _, by decide +kernel⟩

theorem witness_SignWriteAndRead : let s := { machine 2 [] with agenda := [.write 7#11 0x80#32] }
    s.busy = false ∧ s.agenda = .write 7#11 0x80#32 :: [] := by decide +kernel

theorem witness_CtrlWriteAndRead : let s := { machine 2 [] with agenda := [.write 2#11 3#32] }
    let s' := { busyPowmod with agenda := [.write 2#11 3#32] }
    s.agenda = .write 2#11 3#32 :: [] ∧ s.running = none ∧ s'.agenda = .write 2#11 3#32 :: [] ∧
      ∃ l, s'.running = some l := ⟨rfl, rfl, rfl, _, rfl⟩

theorem witness_StatusLayoutAndWrite : let s := { machine 2 [] with agenda := [.write 3#11 0x82#32] }
    s.agenda = .write 3#11 0x82#32 :: [] ∧ (after hanging).ecode = .aborted ∧ busyPowmod.Inv ∧ busyPowmod.busy = true :=
  ⟨rfl, by decide +kernel, accept_inv _ (machine_inv _ _ _ _ _ _ _ (by decide)) _, by decide +kernel⟩

theorem witness_IrqFollowsDoneAndEnable : (∀ s : State, step s = .next (after s)) ∧ busyPowmod.busy = true ∧
    (after busyPowmod).busy = false ∧ busyPowmod.agenda = [] ∧ (0x82#32).getLsbD 1 = true ∧ (2#32).getLsbD 0 = false ∧
    (machine 2 []).busy = false := ⟨step_after, by decide +kernel⟩

theorem witness_ControlWordsReadAndWrite : (machine 2 []).nword ≤ 128 ∧ (machine 2 []).busy = false ∧
    ({ machine 2 [] with agenda := [.write 11#11 7#32] }).agenda = .write 11#11 7#32 :: [] ∧
    ({ machine 2 [] with agenda := [.write 6#11 7#32] }).agenda = .write 6#11 7#32 :: [] ∧
    (event (machine 2 []) (.write 11#11 7#32)).filtRes ≠ (machine 2 []).filtRes ∧
    (event (machine 2 []) (.write 2#11 1#32)).ie ≠ (machine 2 []).ie := by decide +kernel

theorem witness_ReadsWhileBusy : busyPowmod.Inv ∧ busyPowmod.busy = true :=
  ⟨accept_inv _ (machine_inv _ _ _ _ _ _ _ (by decide)) _, by decide +kernel⟩

theorem witness_RandomWordsAreTakenInOrder : let s := (machine 2 [(0, 221)] 0 1 0 0 [135#32]).accept 0x0000000A#32
    step s = .next (after s) ∧ (∀ w rest, s.agenda ≠ .supply w :: rest) ∧ (after s).rng ≠ s.rng ∧
      ({ s with agenda := [.supply 7#32] }).agenda = .supply 7#32 :: [] ∧
      (event s (.supply 7#32)).rng = [135#32, 7#32] := ⟨step_after _, fun _ _ => (List.cons_ne_nil _ _).symm, by decide +kernel⟩

theorem witness_DrawBitsTakesWholeWords : 1 ≤ 33 ∧ 32 * (2 - 1) < 33 ∧ 33 ≤ 32 * 2 ∧ 2 ≤ [14#32, 0xFFFFFFFE#32].length ∧
    [14#32].length < 2 := by decide

end Sys2Proof.Tests
end

/-! What every step keeps: the invariant of the machine, said once per operation on the state (R231 to R233, R63, R260),
then for every move of every agent; that a step always answers; and the Jacobi symbol (R166). -/

namespace Sys2Proof.Machine

section Invariant

variable {s : State}

/-! ## The invariant, operation by operation -/

/-- With nothing in execution the clauses about the latch and about a busy machine are empty. -/
theorem State.Inv.of_idle (hr : s.running = none) (width : 2 ≤ s.nword ∧ s.nword ≤ 128)
    (words : ∀ r : Reg, (s.wide[r]).words.length = s.nword)
    (codes : s.ecode ≠ .smallKey ∧ s.ecode ≠ .incorrectAlgorithm ∧ s.ecode ≠ .messageNotFound)
    (error : s.ecode ≠ .ok → s.found = false ∧ s.result = 0#32 ∧ s.iter = 0#32)
    (symbol : s.result = 0#32 ∨ s.result = 1#32 ∨ s.result = 0xFFFFFFFF#32) : s.Inv where
  width := width
  words := words
  latch l hl := by simp [hr] at hl
  clear hb := by simp [State.busy, hr] at hb
  codes := codes
  error := error
  symbol := symbol

/-- The invariant reads nothing of the environment: the agenda, the reply, the random words and the free values. -/
theorem State.Inv.withEnvironment (h : s.Inv) (agenda : List Event) (reply : Option Word) (rng : List Word)
    (drawn fresh : Nat) :
    State.Inv { s with agenda := agenda, reply := reply, rng := rng, drawn := drawn, fresh := fresh } :=
  ⟨h.width, h.words, h.latch, h.clear, h.codes, h.error, h.symbol⟩

/-- With nothing in execution no latch ties the wide registers and the parameters: any values of the right size do. -/
theorem State.Inv.withRegisters (h : s.Inv) (hr : s.running = none) (wide : Vector Wide 8)
    (words : ∀ r : Reg, (wide[r]).words.length = s.nword) (bitlen persist filtMod filtRes : Word) :
    State.Inv { s with
      wide := wide, bitlen := bitlen, persist := persist, filtMod := filtMod, filtRes := filtRes } :=
  .of_idle hr h.width words h.codes h.error h.symbol

/-- Acceptance latches the registers as they are and clears the outcome (R231). -/
theorem State.Inv.accept (h : s.Inv) (c : Word) : (s.accept c).Inv where
  width := h.width
  words := h.words
  latch l hl := by
    obtain rfl : s.latchOf c = l := by simpa using hl
    simp
  clear _ := by simp
  codes := by simp
  error := by simp
  symbol := by simp

theorem State.Inv.hold (h : s.Inv) (c : Word) : (s.hold c).Inv := by
  unfold State.hold
  split
  · exact h
  · exact h.accept c

theorem State.Inv.raise (h : s.Inv) (e : ErrorCode)
    (he : e ≠ .smallKey ∧ e ≠ .incorrectAlgorithm ∧ e ≠ .messageNotFound) : (s.raise e).Inv :=
  .of_idle rfl h.width h.words he (by simp) (by simp)

theorem State.Inv.complete (h : s.Inv) (ws : List (Reg × Int)) (f : Bool) (w n : Word)
    (hw : w = 0#32 ∨ w = 1#32 ∨ w = 0xFFFFFFFF#32) : (s.complete ws f w n).Inv :=
  .of_idle rfl (by simpa using h.width) (by simpa using s.writeRegs_words ws h.words) (by simp) (by simp) hw

theorem State.Inv.consumeTo (h : s.Inv) (rest : List Word) : (s.consumeTo rest).Inv :=
  h.withEnvironment _ _ _ _ _

/-! ## The commands and the sequencer -/

/-- Whatever a command does, it keeps the invariant (R232, R233, R83). -/
theorem Outcomes.inv {i : Instr} {t : State} (ho : Outcomes i s t) (h : s.Inv) : t.Inv := by
  rcases ho with ⟨e, rfl, he⟩ | ⟨⟨rest, ws, f, w, n, rfl, -, -, hw, -⟩⟩ | ⟨rfl, -⟩
  · exact h.raise e (by rcases he with rfl | rfl | rfl <;> decide)
  · exact (h.consumeTo rest).complete ws f w n hw
  · exact h.hold _

theorem State.Inv.abortNow (h : s.Inv) : s.abortNow.Inv :=
  State.Inv.raise (s := s.dropDraws) (h.withEnvironment _ _ _ _ _) .aborted (by decide)

theorem State.Inv.abortTurn (h : s.Inv) : s.abortTurn.Inv := by
  unfold State.abortTurn
  split
  · split
    · exact h.abortNow
    · exact h
  · exact h

theorem State.Inv.completeTurn {t : State} (h : s.Inv) (ht : s.completeTurn = .next t) : t.Inv := by
  rcases s.completeTurn_cases with ⟨-, hs⟩ | ⟨l, u, -, hs, hu⟩
  · obtain rfl : s = t := by simpa [hs] using ht
    exact h
  · obtain rfl : u = t := by simpa [hs] using ht
    rcases hu with ⟨e, -, rfl⟩ | ⟨i, -, -, ho, -⟩ | ⟨rfl, -⟩
    · exact h.raise .illegalCmd (by decide)
    · exact ho.inv h
    · exact h.abortNow

/-! ## Reset -/

/-- A wide register after reset has as many words as the width says (R21, R26). -/
theorem Wide.afterReset_length (nword draw i : Nat) : (Wide.afterReset nword draw i).words.length = nword := by
  simp [Wide.afterReset]

theorem State.powerOn_words (nword draw : Nat) (r : Reg) : ((State.powerOn nword draw).wide[r]).words.length = nword := by
  fin_cases r <;> exact Wide.afterReset_length _ _ _

theorem State.powerOn_inv (nword draw : Nat) (hw : 2 ≤ nword ∧ nword ≤ 128) : (State.powerOn nword draw).Inv :=
  .of_idle rfl hw (State.powerOn_words nword draw) (by simp [State.powerOn]) (by simp [State.powerOn])
    (by simp [State.powerOn])

theorem State.Inv.platformReset (h : s.Inv) : s.platformReset.Inv :=
  (State.powerOn_inv s.nword s.dropDraws.fresh h.width).withEnvironment _ _ _ _ _

/-! ## The host port -/

/-- A write to SIGN changes no magnitude (R41). -/
theorem setSigns_words (wide : Vector Wide 8) (v : Word) (r : Reg) : ((setSigns wide v)[r]).words = (wide[r]).words := by
  simp [setSigns]

/-- A write to one word of a magnitude keeps how many there are (R66). -/
theorem length_words_set_setWord (wide : Vector Wide 8) (r r' : Reg) (j : Nat) (v : Word) :
    ((wide.set r ((wide[r]).setWord j v))[r']).words.length = (wide[r']).words.length := by
  simp only [Fin.getElem_fin, Vector.getElem_set]
  split
  · rename_i heq
    simp [Wide.setWord, heq]
  · rfl

/-- A write to CTRL changes of the latch only the abort request (R37, R243). -/
theorem State.Inv.writeCtrl (h : s.Inv) (v : Word) : (s.writeCtrl v).Inv where
  width := h.width
  words := h.words
  latch l hl := by
    obtain ⟨l, hr, rfl⟩ : ∃ l', s.running = some l' ∧ { l' with abortReq := l'.abortReq || v.getLsbD 1 } = l := by
      simpa using hl
    exact h.latch l hr
  clear hb := h.clear (by simpa [State.busy] using hb)
  codes := h.codes
  error := h.error
  symbol := h.symbol

/-- A write to STATUS can only clear DONE, which is clear already while busy (R38). -/
theorem State.Inv.writeStatus (h : s.Inv) (v : Word) : (s.writeStatus v).Inv where
  width := h.width
  words := h.words
  latch := h.latch
  clear hb := by
    obtain ⟨hd, hrest⟩ := h.clear hb
    exact ⟨by simp [hd], hrest⟩
  codes := h.codes
  error := h.error
  symbol := h.symbol

/-- A write that is performed: while busy only an unprotected word is written (R270), so that the latch still agrees with
the registers. -/
theorem State.Inv.writeWord (h : s.Inv) (v : Word) (p : PortWord) (hp : s.busy = true → p.isProtected = false) :
    (s.writeWord v p).Inv := by
  have idle (hpr : p.isProtected = true) : s.running = none := by
    cases hr : s.running with
    | none => rfl
    | some l => simp [hp (by simp [State.busy, hr])] at hpr
  cases p with
  | id | cap | result | iter | reserved => exact h
  | ctrl => exact h.writeCtrl v
  | status => exact h.writeStatus v
  | cmd => exact h.accept v
  | sign => exact h.withRegisters (idle rfl) _ (fun r => by rw [setSigns_words]; exact h.words r) _ _ _ _
  | bitlen | persist | filtMod | filtRes => exact h.withRegisters (idle rfl) s.wide h.words _ _ _ _
  | mag r j =>
    exact h.withRegisters (idle rfl) _ (fun r' => by rw [length_words_set_setWord]; exact h.words r') _ _ _ _

theorem State.Inv.hostWrite (h : s.Inv) (a : PortIndex) (v : Word) : (s.hostWrite a v).Inv := by
  unfold State.hostWrite
  split
  · exact ⟨h.width, h.words, h.latch, h.clear, h.codes, h.error, h.symbol⟩
  · rename_i hfree
    exact h.writeWord v _ fun hb => by simpa [hb] using hfree

end Invariant

/-! ## A step always answers -/

/-- The sequencer's turn always answers (R17). -/
theorem State.completeTurn_answers (s : State) : ∃ t, s.completeTurn = .next t := by
  rcases s.completeTurn_cases with ⟨-, hs⟩ | ⟨l, t, -, hs, -⟩
  · exact ⟨s, hs⟩
  · exact ⟨t, hs⟩

/-- Every event answers: all but the sequencer's turn are functions to a next state (R61). -/
theorem State.handle_answers (s : State) (e : Event) : ∃ t, s.handle e = .next t := by
  cases e with
  | complete => exact s.completeTurn_answers
  | read | write | abort | supply | reset => exact ⟨_, rfl⟩

/-! ## The Jacobi symbol -/

/-- JACOBI with no operand error completes with the symbol in RESULT (R166, R235). -/
theorem exec_jacobi_of_legal {s : State} {ra rm : Reg} (ha : 0 ≤ s.src ra) (hm : 0 ≤ s.src rm) (hodd : s.src rm % 2 = 1) :
    exec (.jacobi ra rm) s =
      .next (s.complete [] false (sext32 (jacobi (s.src ra).toNat (s.src rm).toNat)) 0#32) := by
  rw [exec, execJacobi, if_neg (by omega), if_neg (by omega), if_neg (by omega)]

/-! ## The statements -/

/-- Settles O40: after reset nothing runs, every register has `nword` words, and the outcome is clear. -/
theorem resetMeetsTheInvariant : Obligations.ResetMeetsTheInvariant :=
  ⟨State.powerOn_inv _ _ (by decide), fun nword draw h2 h128 => State.powerOn_inv nword draw ⟨h2, h128⟩⟩

/-- Settles O39, by the moves of the agents: taking the event off the agenda keeps the invariant, and so does each
move. -/
theorem stepKeepsTheInvariant : Obligations.StepKeepsTheInvariant := by
  intro s t hs ht
  obtain ⟨u, rfl, hmove⟩ := step_cases ht
  have hu : State.Inv { s with agenda := s.agenda.tail } := hs.withEnvironment _ _ _ _ _
  rcases hmove with ⟨a, -, rfl⟩ | ⟨a, v, -, rfl⟩ | ⟨w, -, rfl⟩ | ⟨-, rfl⟩ | ⟨-, rfl⟩ | ⟨-, hturn⟩
  · exact hu.withEnvironment _ _ _ _ _
  · exact hu.hostWrite a v
  · exact hu.withEnvironment _ _ _ _ _
  · exact hu.platformReset
  · exact hu.abortTurn
  · exact hu.completeTurn hturn

/-- Settles O43: a step is an event or the sequencer's turn, and every command has one of the outcomes of
`exec_cases`. -/
theorem everyStepAnswersANextState : Obligations.EveryStepAnswersANextState := by
  refine ⟨fun s => ?_, fun i s => ?_⟩
  · cases ha : s.agenda with
    | nil =>
      obtain ⟨t, ht⟩ := s.completeTurn_answers
      exact ⟨t, by rw [step, ha]; exact ht⟩
    | cons e rest =>
      rw [step_of_event ha]
      exact State.handle_answers _ e
  · obtain ⟨t, ht, -⟩ := exec_cases i s
    exact ⟨t, ht⟩

/-- Settles O20: the algorithm computes `jacobiSym`, which is one of three numbers, and each has its word in RESULT. -/
theorem jacobiReportsTheSymbol : Obligations.JacobiReportsTheSymbol := by
  intro s ra rm n ha hm hodd
  have hsym : jacobi (s.src ra).toNat (s.src rm).toNat = jacobiSym (s.src ra) n := by
    rw [hm, Int.toNat_natCast, jacobi_eq _ _ hodd, Int.toNat_of_nonneg ha]
  have hexec := exec_jacobi_of_legal ha (rm := rm) (by omega) (by omega)
  rw [hsym] at hexec
  refine ⟨_, hexec, s.complete_completed [] false _ 0#32 (by simp) (by simp), ⟨by simp, by simp⟩, ?_⟩
  rw [State.complete_result]
  rcases jacobiSym.trichotomy (s.src ra) n with h | h | h <;> rw [h] <;> decide

end Sys2Proof.Machine

/-! What a command computes from and what it reports, said once for all twelve: the frame (R232), the results only some
commands report (R32 to R34), and that a command in execution reads nothing but its latch (R50, R277). -/

namespace Sys2Proof.Machine

/-! ## The frame of a command -/

/-- No command writes a setting or touches another agent's state (R232). -/
theorem Outcomes.sameSettings {i : Instr} {s t : State} (h : Outcomes i s t) : SameSettings s t := by
  rcases h with ⟨e, rfl, -⟩ | ⟨⟨rest, ws, f, w, n, rfl, -⟩⟩ | ⟨rfl, -⟩
  · constructor <;> simp
  · constructor <;> simp
  · unfold State.hold; split <;> constructor <;> simp

@[simp] theorem State.hold_wide (s : State) (c : Word) : (s.hold c).wide = s.wide := by
  unfold State.hold; split <;> rfl

/-- Only the destinations of a command are written (R24, R232). -/
theorem Outcomes.wide_of_not_dest {i : Instr} {s t : State} (h : Outcomes i s t) {r : Reg} (hr : r ∉ i.dests) :
    t.wide[r] = s.wide[r] := by
  rcases h with ⟨e, rfl, -⟩ | ⟨⟨rest, ws, f, w, n, rfl, -, hws, -⟩⟩ | ⟨rfl, -⟩
  · rfl
  · have hother : r ∉ ws.map Prod.fst := fun hmem => by
      obtain ⟨p, hp, rfl⟩ := List.mem_map.mp hmem
      exact hr (hws p hp)
    rw [State.complete_wide, State.writeRegs_get_other _ _ _ hother, State.consumeTo_wide]
  · rw [State.hold_wide]

/-! ## What a command reads and reports -/

/-- The commands that report FOUND (R32). -/
def reportsFound (i : Instr) : Prop :=
  (∃ rd ra, i = .isqrt rd ra) ∨ (∃ rd rd2 ra rm, i = .modsqrt rd rd2 ra rm) ∨ ∃ ra, i = .isprime ra

/-- The command that reports RESULT (R33). -/
def reportsResult (i : Instr) : Prop := ∃ ra rm, i = .jacobi ra rm

/-- The commands that report ITER (R34). -/
def reportsIter (i : Instr) : Prop :=
  (∃ rd rd2 rd3 ra rb, i = .xgcd rd rd2 rd3 ra rb) ∨ (∃ rd ra rm, i = .modinv rd ra rm) ∨ ∃ rd f, i = .genprime rd f

/-- How a command ends, apart from the state it ends in: with an error (R233), completed (R232) with the random words
left over, the register writes and the results, or not yet (R83). -/
inductive Ending where
  | error (e : ErrorCode)
  | completion (rest : List Word) (writes : List (Reg × Int)) (found : Bool) (result iter : Word)
  | waiting

/-- The state `s` after this ending of the command `i`. -/
def State.endWith (s : State) (i : Instr) : Ending → State
  | .error e => s.raise e
  | .completion rest writes found result iter => (s.consumeTo rest).complete writes found result iter
  | .waiting => s.hold (encode i)

/-- The ending reports nothing that is not `i`'s to report (R32 to R34). -/
def Ending.ReportedBy (i : Instr) : Ending → Prop
  | .completion _ _ found result iter =>
    (found = true → reportsFound i) ∧ (result ≠ 0#32 → reportsResult i) ∧ (iter ≠ 0#32 → reportsIter i)
  | .error _ | .waiting => True

/-- `t` and `t'` are `s` and `s'` after one and the same ending of the command `i`. -/
def EndAlike (i : Instr) (s s' t t' : State) : Prop :=
  ∃ E : Ending, E.ReportedBy i ∧ t = s.endWith i E ∧ t' = s'.endWith i E

/-- All that a command may read (R50): what it latched, the width, the random words. -/
structure SameInputs (s s' : State) : Prop where
  latched : s'.latched = s.latched
  nword : s'.nword = s.nword
  rng : s'.rng = s.rng

section Alike

variable {s s' : State}

theorem SameInputs.src (h : SameInputs s s') (r : Reg) : s'.src r = s.src r := by rw [State.src, h.latched, State.src]

theorem SameInputs.width (h : SameInputs s s') : s'.width = s.width := by rw [State.width, h.nword, State.width]

theorem SameInputs.srcBitlen (h : SameInputs s s') : s'.srcBitlen = s.srcBitlen := by
  rw [State.srcBitlen, h.latched, State.srcBitlen]

theorem SameInputs.srcPersist (h : SameInputs s s') : s'.srcPersist = s.srcPersist := by
  rw [State.srcPersist, h.latched, State.srcPersist]

theorem SameInputs.filter (h : SameInputs s s') (f : Bool) : s'.filter f = s.filter f := by
  simp only [State.filter, State.srcFiltMod, State.srcFiltRes, h.latched]

theorem EndAlike.error (i : Instr) (e : ErrorCode) : EndAlike i s s' (s.raise e) (s'.raise e) :=
  ⟨.error e, trivial, rfl, rfl⟩

theorem EndAlike.waiting (i : Instr) : EndAlike i s s' (s.hold (encode i)) (s'.hold (encode i)) :=
  ⟨.waiting, trivial, rfl, rfl⟩

/-- A completion that reports only what is its command's to report: of a given command, given results, `simp` decides
it. -/
theorem EndAlike.drawing (i : Instr) (rest : List Word) (ws : List (Reg × Int)) (f : Bool) (w n : Word)
    (hE : (Ending.completion rest ws f w n).ReportedBy i := by
      simp [Ending.ReportedBy, reportsFound, reportsResult, reportsIter]) :
    EndAlike i s s' ((s.consumeTo rest).complete ws f w n) ((s'.consumeTo rest).complete ws f w n) :=
  ⟨.completion rest ws f w n, hE, rfl, rfl⟩

/-- A completion that draws nothing. -/
theorem EndAlike.plain (h : SameInputs s s') (i : Instr) (ws : List (Reg × Int)) (f : Bool) (w n : Word)
    (hE : (Ending.completion s.rng ws f w n).ReportedBy i := by
      simp [Ending.ReportedBy, reportsFound, reportsResult, reportsIter]) :
    EndAlike i s s' (s.complete ws f w n) (s'.complete ws f w n) := by
  have := EndAlike.drawing (s := s) (s' := s') i s.rng ws f w n hE
  rwa [State.consumeTo_self, ← h.rng, State.consumeTo_self] at this

/-- From the same inputs a command ends alike: every check, value and draw of its rule reads the inputs only. -/
theorem exec_alike (i : Instr) (h : SameInputs s s') :
    ∃ t t', exec i s = .next t ∧ exec i s' = .next t' ∧ EndAlike i s s' t t' := by
  cases i with
  | nop => exact ⟨_, _, rfl, rfl, .plain h ..⟩
  | powmod rd ra rb rm =>
    refine ⟨_, _, rfl, rfl, ?_⟩
    simp only [h.src]
    split_ifs
    exacts [.error _ _, .error _ _, .plain h ..]
  | xgcd rd rd2 rd3 ra rb =>
    refine ⟨_, _, rfl, rfl, ?_⟩
    simp only [h.src]
    split_ifs
    exacts [.error _ _, .error _ _, .plain h ..]
  | modinv rd ra rm =>
    refine ⟨_, _, rfl, rfl, ?_⟩
    simp only [h.src]
    split_ifs
    exacts [.error _ _, .error _ _, .error _ _, .plain h ..]
  | modred rd ra rm =>
    refine ⟨_, _, rfl, rfl, ?_⟩
    simp only [h.src]
    split_ifs
    exacts [.error _ _, .error _ _, .plain h ..]
  | montmul rd ra rb rm =>
    refine ⟨_, _, rfl, rfl, ?_⟩
    simp only [h.src, h.width]
    split_ifs
    exacts [.error _ _, .error _ _, .error _ _, .plain h ..]
  | montin rd ra rm =>
    refine ⟨_, _, rfl, rfl, ?_⟩
    simp only [h.src, h.width]
    split_ifs
    exacts [.error _ _, .error _ _, .error _ _, .plain h ..]
  | jacobi ra rm =>
    refine ⟨_, _, rfl, rfl, ?_⟩
    simp only [h.src]
    split_ifs
    exacts [.error _ _, .error _ _, .error _ _, .plain h ..]
  | isqrt rd ra =>
    refine ⟨_, _, rfl, rfl, ?_⟩
    simp only [h.src]
    split_ifs
    · exact .error _ _
    · split
      exacts [.plain h ..,
        .plain h ..]
  | modsqrt rd rd2 ra rm =>
    refine ⟨_, _, rfl, rfl, ?_⟩
    simp only [h.src]
    split_ifs
    · exact .error _ _
    · exact .error _ _
    · exact .error _ _
    · exact .error _ _
    · exact .error _ _
    · split
      exacts [.plain h .., .error _ _,
        .plain h ..]
  | isprime ra =>
    refine ⟨_, _, rfl, rfl, ?_⟩
    simp only [h.src, h.srcPersist, h.rng]
    split_ifs
    · exact .error _ _
    · split
      exacts [.drawing .., .waiting _]
  | genprime rd f =>
    refine ⟨_, _, rfl, rfl, ?_⟩
    simp only [h.width, h.srcBitlen, h.srcPersist, h.filter, h.rng]
    split_ifs
    · exact .error _ _
    · exact .error _ _
    · split
      exacts [.drawing .., .waiting _]

end Alike

/-- A register that a list of writes names ends with a value that depends on the list and the width only. -/
theorem State.writeRegs_get_alike {s s' : State} (hn : s'.nword = s.nword) (ws : List (Reg × Int)) (r : Reg)
    (hr : s.wide[r] = s'.wide[r] ∨ r ∈ ws.map Prod.fst) : (s.writeRegs ws).wide[r] = (s'.writeRegs ws).wide[r] := by
  induction ws generalizing s s' with
  | nil => exact hr.resolve_right (by simp)
  | cons p ws ih =>
    refine ih (s := s.writeReg p.1 p.2) (s' := s'.writeReg p.1 p.2) (by simpa using hn) ?_
    rw [State.writeReg_get, State.writeReg_get, hn]
    rw [List.map_cons, List.mem_cons] at hr
    split
    · exact .inl rfl
    · rename_i hne
      rcases hr with hr | hr | hr
      · exact .inl hr
      · exact absurd hr.symm hne
      · exact .inr hr

/-- After one and the same ending each wide register is written the same in both states or left alone in both. -/
theorem EndAlike.wide {i : Instr} {s s' t t' : State} (h : EndAlike i s s' t t') (hn : s'.nword = s.nword) (r : Reg) :
    t.wide[r] = t'.wide[r] ∨ (t.wide[r] = s.wide[r] ∧ t'.wide[r] = s'.wide[r]) := by
  obtain ⟨E, -, rfl, rfl⟩ := h
  cases E with
  | error e => exact .inr ⟨rfl, rfl⟩
  | waiting => exact .inr ⟨by simp [State.endWith], by simp [State.endWith]⟩
  | completion rest ws f w n =>
    simp only [State.endWith, State.complete_wide]
    by_cases hr : r ∈ ws.map Prod.fst
    · exact .inl (State.writeRegs_get_alike (by simpa using hn) ws r (.inr hr))
    · exact .inr ⟨State.writeRegs_get_other _ _ _ hr, State.writeRegs_get_other _ _ _ hr⟩

/-! ## The statements about commands -/

/-- Settles O35: each clause is one reading of the outcomes of `exec_cases`. -/
theorem commandFrame : Obligations.CommandFrame := by
  intro i s t ht
  obtain ⟨u, hu, ho⟩ := exec_cases i s
  obtain rfl : u = t := by simpa [hu] using ht
  refine ⟨fun r hr => ho.wide_of_not_dest hr, ho.sameSettings, ho.rng, ho.drawn, fun hi => ?_⟩
  obtain ⟨hrng, hdrawn⟩ := ho.rng_of_not_drawsWords hi
  exact ⟨hrng, hdrawn⟩

/-- Settles O36: an error reports nothing, and a completion only what its command reports. -/
theorem resultsAreReportedOnlyByTheirCommands : Obligations.ResultsAreReportedOnlyByTheirCommands := by
  intro i s t ht hidle
  obtain ⟨u, -, hu, -, E, hE, rfl, -⟩ := exec_alike i (s := s) ⟨rfl, rfl, rfl⟩
  obtain rfl : s.endWith i E = t := by simpa [hu] using ht
  cases E with
  | error e => simp [State.endWith]
  | completion rest ws f w n => exact hE
  | waiting => simp [State.endWith] at hidle

/-- Settles O37: the two states give the command the same inputs, so it has the same ending in both. -/
theorem runningCommandReadsOnlyItsLatch : Obligations.RunningCommandReadsOnlyItsLatch := by
  intro i s s' t t' l hl hl' hn hrng ht ht'
  have hin : SameInputs s s' := ⟨by simp [State.latched, hl, hl'], hn.symm, hrng.symm⟩
  obtain ⟨u, u', hu, hu', halike⟩ := exec_alike i hin
  obtain rfl : u = t := by simpa [hu] using ht
  obtain rfl : u' = t' := by simpa [hu'] using ht'
  have hwide := halike.wide hn.symm
  obtain ⟨E, -, rfl, rfl⟩ := halike
  cases E with
  | error e => exact ⟨rfl, by simpa [State.endWith] using hrng, fun _ => ⟨rfl, rfl, rfl, rfl⟩, hwide⟩
  | completion rest ws f w n => exact ⟨rfl, by simp [State.endWith], fun _ => ⟨rfl, rfl, rfl, rfl⟩, hwide⟩
  | waiting =>
    refine ⟨by simp [State.endWith], ?_, fun hidle => ?_, hwide⟩
    · simpa [State.endWith, State.hold, hl, hl'] using hrng
    · simp [State.endWith] at hidle

end Sys2Proof.Machine

/-! What one step can change: the words of the port by their index, the moves of the agents in one list, and from it who
writes a wide register (R24), how long a command is held (R50), how long its outcome lasts (R274), and who writes the
control words (R254). -/

namespace Sys2Proof.Machine

/-! ## The words of the port -/

/-- The register space below 0x400 is the CSRs (R64). -/
theorem portWord_csr (n : Nat) {a : PortIndex} (h : a.toNat < 0x400) : portWord n a = csrAt a.toNat := if_pos h

/-- A CSR other than SIGN reads its defined word, busy or not (R271). -/
theorem State.portRead_csr (s : State) {a : PortIndex} (h : a.toNat < 0x400 := by decide)
    (hsign : a ≠ 7#11 := by decide) : s.portRead a = s.wordAt (csrAt a.toNat) := by
  have hfree : ¬readsFree s a := by
    rintro ⟨-, heq | ⟨hge, -⟩⟩
    · exact hsign heq
    · omega
  rw [State.portRead_of_not_free hfree, portWord_csr _ h]

/-- The word index of STATUS, of SIGN and of each magnitude word (R64, R66). -/
theorem index_of_registerWord {n : Nat} {a : PortIndex} {p : PortWord} (h : portWord n a = p) :
    (p = .status → a = 3#11) ∧ (p = .sign → a = 7#11) ∧ ∀ r j, p = .mag r j → j < n ∧ a = magIndex r j := by
  subst h
  unfold portWord
  split
  · unfold csrAt
    split <;> simp <;> exact BitVec.eq_of_toNat_eq (by simpa)
  · split
    · rename_i hge hj
      refine ⟨by simp, by simp, ?_⟩
      rintro r j heq
      obtain ⟨rfl, rfl⟩ := PortWord.mag.inj heq
      refine ⟨hj, BitVec.eq_of_toNat_eq ?_⟩
      have hlt := a.isLt
      simp only [magIndex, BitVec.toNat_ofNat, Fin.ofNat]
      omega
    · simp

/-- With nothing in execution every write is performed (R63, R270). -/
theorem State.hostWrite_of_idle {s : State} (hb : s.busy = false) (a : PortIndex) (v : Word) :
    s.hostWrite a v = s.writeWord v (portWord s.nword a) := by
  unfold State.hostWrite
  rw [hb, Bool.false_and, if_neg (by decide)]

/-- A write is dropped, and then only BUSYWR changes, or performed; while busy it is performed on unprotected words only
(R63, R270). -/
theorem State.hostWrite_cases (s : State) (a : PortIndex) (v : Word) :
    (s.busy = true ∧ s.hostWrite a v = { s with busywr := true }) ∨
    ((s.busy = true → (portWord s.nword a).isProtected = false) ∧
      s.hostWrite a v = s.writeWord v (portWord s.nword a)) := by
  cases hb : s.busy with
  | false => exact .inr ⟨by simp, s.hostWrite_of_idle hb a v⟩
  | true =>
    cases hp : (portWord s.nword a).isProtected with
    | true => exact .inl ⟨rfl, s.hostWrite_of_protected v hb hp⟩
    | false => exact .inr ⟨fun _ => rfl, s.hostWrite_of_not_protected v hp⟩

/-- A write to a CSR that is performed (R63). -/
theorem step_write_csr {s : State} {a : PortIndex} {v : Word} {rest : List Event} (h : s.agenda = .write a v :: rest)
    (hp : s.busy = false ∨ (csrAt a.toNat).isProtected = false) (ha : a.toNat < 0x400 := by decide) :
    step s = .next (State.writeWord { s with agenda := rest } v (csrAt a.toNat)) := by
  rw [step_of_event h, State.handle, ← portWord_csr s.nword ha]
  rcases hp with hb | hp
  · rw [State.hostWrite_of_idle (s := { s with agenda := rest }) hb]
  · rw [← portWord_csr s.nword ha] at hp
    rw [State.hostWrite_of_not_protected (s := { s with agenda := rest }) v hp]

/-! ## What a write leaves -/

section Write

variable (s : State) (v : Word) (p : PortWord)

@[simp] theorem State.writeWord_nword : (s.writeWord v p).nword = s.nword := by cases p <;> rfl

theorem State.writeWord_ie : (s.writeWord v p).ie = if p = .ctrl then v.getLsbD 0 else s.ie := by cases p <;> rfl

theorem State.writeWord_bitlen : (s.writeWord v p).bitlen = if p = .bitlen then v else s.bitlen := by cases p <;> rfl

theorem State.writeWord_persist : (s.writeWord v p).persist = if p = .persist then v else s.persist := by
  cases p <;> rfl

theorem State.writeWord_filtMod : (s.writeWord v p).filtMod = if p = .filtMod then v else s.filtMod := by
  cases p <;> rfl

theorem State.writeWord_filtRes : (s.writeWord v p).filtRes = if p = .filtRes then v else s.filtRes := by
  cases p <;> rfl

theorem State.writeWord_done :
    (s.writeWord v p).done = if p = .cmd then false else if p = .status then s.done && !v.getLsbD 1 else s.done := by
  cases p <;> rfl

variable {p}

/-- A write that is no acceptance leaves the outcome, but for DONE (R274). -/
theorem State.writeWord_outcome (hp : p ≠ .cmd) :
    (s.writeWord v p).ecode = s.ecode ∧ (s.writeWord v p).found = s.found ∧ (s.writeWord v p).result = s.result ∧
      (s.writeWord v p).iter = s.iter := by
  cases p with
  | cmd => exact absurd rfl hp
  | _ => exact ⟨rfl, rfl, rfl, rfl⟩

/-- A write to an unprotected word leaves the latch, but for the abort request (R50, R243). -/
theorem State.writeWord_running (hp : p.isProtected = false) :
    ∃ req, (s.writeWord v p).running = s.running.map fun l => { l with abortReq := l.abortReq || req } := by
  cases p with
  | cmd | sign | bitlen | persist | filtMod | filtRes | mag => cases hp
  | ctrl => exact ⟨v.getLsbD 1, rfl⟩
  | _ => exact ⟨false, by simp [State.writeWord]⟩

/-- A write changes a wide register only at SIGN or at one of its own words (R41, R66). -/
theorem State.writeWord_wide (r : Reg) (hp : p ≠ .sign) (hm : ∀ j, p ≠ .mag r j) :
    (s.writeWord v p).wide[r] = s.wide[r] := by
  cases p with
  | sign => exact absurd rfl hp
  | mag r' j =>
    have hne : r' ≠ r := fun heq => hm j (heq ▸ rfl)
    simp only [State.writeWord, Fin.getElem_fin]
    exact Vector.getElem_set_ne _ _ (Fin.val_ne_of_ne hne)
  | _ => rfl

end Write

/-! ## The moves of the agents -/

theorem State.busy_eq_false_iff (s : State) : s.busy = false ↔ s.running = none := by simp [State.busy]

/-- What the sequencer does in its turn or at an abort event: nothing, or it ends or goes on with the command held, by
an illegal word (R104), by the command's meaning (R232), or by the abort (R243). -/
def SequencerMove (s t : State) : Prop :=
  t = s ∨ ∃ l, s.running = some l ∧
    (t = s.raise .illegalCmd ∨ (∃ i, decode l.cmd = .ok i ∧ Outcomes i s t) ∨ t = s.abortNow)

theorem State.abortTurn_move (s : State) : SequencerMove s s.abortTurn := by
  unfold State.abortTurn
  cases hr : s.running with
  | none => exact .inl rfl
  | some l =>
    cases ha : l.abortReq with
    | false => exact .inl (by simp [ha])
    | true => exact .inr ⟨l, hr, .inr (.inr (by simp [ha]))⟩

theorem State.completeTurn_move {s t : State} (h : s.completeTurn = .next t) : SequencerMove s t := by
  rcases s.completeTurn_cases with ⟨-, hs⟩ | ⟨l, u, hr, hs, hu⟩
  · exact .inl (by simpa [hs] using h.symm)
  · obtain rfl : u = t := by simpa [hs] using h
    rcases hu with ⟨e, -, rfl⟩ | ⟨i, hd, -, ho, -⟩ | ⟨rfl, -⟩
    · exact .inr ⟨l, hr, .inl rfl⟩
    · exact .inr ⟨l, hr, .inr (.inl ⟨i, hd, ho⟩)⟩
    · exact .inr ⟨l, hr, .inr (.inr rfl)⟩

/-- The moves of a step (R71), those alike in what they can change put together. -/
inductive Move (s t : State) : Prop where
  /-- A host read or a word supplied: nothing of the NTK changes (R62, R80). -/
  | environment (agenda : List Event) (reply : Option Word) (rng : List Word) (fresh : Nat)
      (next : t = { s with agenda := agenda, reply := reply, rng := rng, fresh := fresh })
  | write (a : PortIndex) (v : Word) (rest : List Event) (event : s.agenda = .write a v :: rest)
      (next : t = State.hostWrite { s with agenda := rest } a v)
  | reset (rest : List Event) (event : s.agenda = .reset :: rest)
      (next : t = State.platformReset { s with agenda := rest })
  | sequencer (rest : List Event) (move : SequencerMove { s with agenda := rest } t)

theorem step_move {s t : State} (h : step s = .next t) : Move s t := by
  obtain ⟨u, rfl, hmove⟩ := step_cases h
  rcases hmove with ⟨a, -, rfl⟩ | ⟨a, v, he, rfl⟩ | ⟨w, -, rfl⟩ | ⟨he, rfl⟩ | ⟨-, rfl⟩ | ⟨-, hturn⟩
  · exact .environment _ _ _ _ rfl
  · obtain ⟨rest, ha⟩ := List.head?_eq_some_iff.mp he
    exact .write a v rest ha (by rw [ha, List.tail_cons])
  · exact .environment _ _ _ _ rfl
  · obtain ⟨rest, ha⟩ := List.head?_eq_some_iff.mp he
    exact .reset rest ha (by rw [ha, List.tail_cons])
  · exact .sequencer _ (State.abortTurn_move _)
  · exact .sequencer _ (State.completeTurn_move hturn)

/-! ## What the sequencer can change -/

section Sequencer

variable {s t : State}

/-- An idle sequencer does nothing (R280). -/
theorem SequencerMove.eq_of_idle (h : SequencerMove s t) (hb : s.busy = false) : t = s := by
  rcases h with rfl | ⟨l, hr, -⟩
  · rfl
  · simp [(s.busy_eq_false_iff).mp hb] at hr

/-- A command's meaning ends it, with DONE, or leaves its latch alone (R232, R233, R83). -/
theorem Outcomes.running {i : Instr} {l : Latch} (h : Outcomes i s t) (hr : s.running = some l) :
    (t.running = none ∧ t.done = true) ∨ t.running = some l := by
  rcases h with ⟨e, rfl, -⟩ | ⟨⟨rest, ws, f, w, n, rfl, -⟩⟩ | ⟨rfl, -⟩
  · exact .inl ⟨rfl, rfl⟩
  · exact .inl ⟨rfl, rfl⟩
  · exact .inr (by rw [State.hold, hr]; exact hr)

theorem SequencerMove.running {l : Latch} (h : SequencerMove s t) (hr : s.running = some l) :
    (t.running = none ∧ t.done = true) ∨ t.running = some l := by
  rcases h with rfl | ⟨l', -, rfl | ⟨i, -, ho⟩ | rfl⟩
  · exact .inr hr
  · exact .inl ⟨rfl, rfl⟩
  · exact ho.running hr
  · exact .inl ⟨rfl, rfl⟩

/-- A command changes a wide register only by a completion without error, and only a destination (R24, R232). -/
theorem Outcomes.dest_of_wide_ne {i : Instr} {r : Reg} (h : Outcomes i s t) (hne : t.wide[r] ≠ s.wide[r]) :
    r ∈ i.dests ∧ t.running = none ∧ t.done = true ∧ t.ecode = .ok := by
  refine ⟨by_contra fun hr => hne (h.wide_of_not_dest hr), ?_⟩
  rcases h with ⟨e, rfl, -⟩ | ⟨⟨rest, ws, f, w, n, rfl, -⟩⟩ | ⟨rfl, -⟩
  · exact absurd rfl hne
  · exact ⟨rfl, rfl, rfl⟩
  · exact absurd (by rw [State.hold_wide]) hne

theorem SequencerMove.dest_of_wide_ne {r : Reg} (h : SequencerMove s t) (hne : t.wide[r] ≠ s.wide[r]) :
    ∃ l i, s.running = some l ∧ decode l.cmd = .ok i ∧ r ∈ i.dests ∧ t.running = none ∧ t.done = true ∧
      t.ecode = .ok := by
  rcases h with rfl | ⟨l, hr, rfl | ⟨i, hd, ho⟩ | rfl⟩
  · exact absurd rfl hne
  · exact absurd rfl hne
  · exact ⟨l, i, hr, hd, ho.dest_of_wide_ne hne⟩
  · exact absurd rfl hne

/-- The sequencer writes neither the width nor CTRL nor a parameter register (R232, R233, R243). -/
theorem SequencerMove.settings (h : SequencerMove s t) :
    t.nword = s.nword ∧ t.ie = s.ie ∧ t.bitlen = s.bitlen ∧ t.persist = s.persist ∧ t.filtMod = s.filtMod ∧
      t.filtRes = s.filtRes := by
  rcases h with rfl | ⟨l, -, rfl | ⟨i, -, ho⟩ | rfl⟩
  · exact ⟨rfl, rfl, rfl, rfl, rfl, rfl⟩
  · exact ⟨rfl, rfl, rfl, rfl, rfl, rfl⟩
  · exact ho.settings
  · exact ⟨rfl, rfl, rfl, rfl, rfl, rfl⟩

end Sequencer

/-! ## The sequencer while idle or without a request -/

theorem State.completeTurn_of_idle {s : State} (hb : s.busy = false) : s.completeTurn = .next s := by
  obtain ⟨t, ht⟩ := s.completeTurn_answers
  rw [ht, (State.completeTurn_move ht).eq_of_idle hb]

theorem State.abortTurn_of_idle {s : State} (hb : s.busy = false) : s.abortTurn = s :=
  s.abortTurn_move.eq_of_idle hb

/-- Without a request an abort event does nothing (R234). -/
theorem State.abortTurn_of_no_request {s : State} {l : Latch} (hr : s.running = some l) (ha : l.abortReq = false) :
    s.abortTurn = s := by
  simp [State.abortTurn, hr, ha]

/-! ## The statements about a step -/

/-- Settles O44, by the moves of a step: a write reaches a wide register by SIGN or its own words, the sequencer by the
completion of a command. -/
theorem registersChangeOnlyByTheirWriters : Obligations.RegistersChangeOnlyByTheirWriters := by
  intro s t r hstep hne
  cases step_move hstep with
  | environment agenda reply rng fresh next => exact absurd (by rw [next]) hne
  | reset rest event next => exact .inr (.inl ⟨rest, event⟩)
  | sequencer rest move => exact .inr (.inr (move.dest_of_wide_ne hne))
  | write a v rest event next =>
    subst next
    rcases State.hostWrite_cases { s with agenda := rest } a v with ⟨-, hw⟩ | ⟨hfree, hw⟩
    · exact absurd (by rw [hw]) hne
    · rw [hw] at hne
      obtain ⟨-, hsign, hmag⟩ := index_of_registerWord (rfl : portWord s.nword a = _)
      have hp : portWord s.nword a = .sign ∨ ∃ j, portWord s.nword a = .mag r j := by
        by_contra! hother
        exact hne (State.writeWord_wide _ v r hother.1 hother.2)
      have hidle : s.busy = false := by
        by_contra hb
        have := hfree (Bool.not_eq_false _ ▸ hb)
        rcases hp with hp | ⟨j, hp⟩ <;> simp [hp, PortWord.isProtected] at this
      refine .inl ⟨hidle, a, v, rest, event, hp.imp hsign ?_⟩
      rintro ⟨j, hp⟩
      obtain ⟨hj, ha⟩ := hmag r j hp
      exact ⟨j, hj, ha⟩

/-- Settles O47, by the moves of a step: while busy no acceptance is performed, and the sequencer ends the command or
leaves its latch. -/
theorem latchIsHeldUntilCompletion : Obligations.LatchIsHeldUntilCompletion := by
  intro s t l hstep hr
  cases step_move hstep with
  | environment agenda reply rng fresh next =>
    subst next
    exact .inr ⟨l, hr, rfl, rfl, rfl, rfl, rfl, rfl⟩
  | reset rest event next =>
    subst next
    exact .inl ⟨rfl, .inr ⟨rest, event⟩⟩
  | sequencer rest move =>
    rcases move.running hr with ⟨hidle, hdone⟩ | hheld
    · exact .inl ⟨hidle, .inl hdone⟩
    · exact .inr ⟨l, hheld, rfl, rfl, rfl, rfl, rfl, rfl⟩
  | write a v rest event next =>
    subst next
    refine .inr ?_
    rcases State.hostWrite_cases { s with agenda := rest } a v with ⟨-, hw⟩ | ⟨hfree, hw⟩
    · rw [hw]
      exact ⟨l, hr, rfl, rfl, rfl, rfl, rfl, rfl⟩
    · have hb : s.busy = true := by simp [State.busy, hr]
      obtain ⟨req, hrun⟩ := State.writeWord_running { s with agenda := rest } v (hfree hb)
      exact ⟨{ l with abortReq := l.abortReq || req }, by rw [hw, hrun, hr, Option.map_some],
        rfl, rfl, rfl, rfl, rfl, rfl⟩

/-- Settles O48: while idle only a write to STATUS touches the outcome without being an acceptance, and the sequencer
does nothing. -/
theorem outcomeLastsUntilTheNextAcceptance : Obligations.OutcomeLastsUntilTheNextAcceptance := by
  refine ⟨fun s t hstep hb hbt hreset => ?_, fun s hb ha => ?_, fun s rest hb ha => ?_, fun s l rest hr hreq ha => ?_⟩
  · cases step_move hstep with
    | environment agenda reply rng fresh next =>
      subst next
      exact ⟨rfl, rfl, rfl, rfl, rfl, fun hne => absurd rfl hne⟩
    | reset rest event next => exact absurd event (hreset rest)
    | sequencer rest move =>
      obtain rfl := move.eq_of_idle hb
      exact ⟨rfl, rfl, rfl, rfl, rfl, fun hne => absurd rfl hne⟩
    | write a v rest event next =>
      subst next
      rw [State.hostWrite_of_idle (s := { s with agenda := rest }) hb] at hbt ⊢
      have hcmd : portWord s.nword a ≠ .cmd := fun hp => by simp [hp, State.writeWord] at hbt
      obtain ⟨he, hf, hres, hit⟩ := State.writeWord_outcome { s with agenda := rest } v hcmd
      refine ⟨he, by simp only [State.err, he], hf, hres, hit, fun hne => ?_⟩
      rw [State.writeWord_done, if_neg hcmd] at hne ⊢
      split at hne
      · rename_i hp
        obtain rfl := (index_of_registerWord hp).1 rfl
        refine ⟨v, rest, event, ?_⟩
        rw [if_pos hp]
        revert hne
        cases s.done <;> cases v.getLsbD 1 <;> simp
      · exact absurd rfl hne
  · rw [step, ha]
    exact State.completeTurn_of_idle hb
  · rcases ha with ha | ha
    · rw [step_of_event ha]
      exact State.completeTurn_of_idle hb
    · rw [step_of_event ha, State.handle, State.abortTurn_of_idle (s := { s with agenda := rest }) hb]
  · rw [step_of_event ha, State.handle, State.abortTurn_of_no_request (s := { s with agenda := rest }) hr hreq]

end Sys2Proof.Machine

/-! The control and status words (R35 to R44): what they read as, what a write does to them, what alone changes them,
and what a reset makes of them (R55, R260). -/

namespace Sys2Proof.Machine

/-! ## The bits of the status words -/

/-- A flag stands at its own bit alone. -/
theorem flagAt_getLsbD (b : Bool) {k : Nat} (hk : k < 32) (j : Nat) :
    (flagAt b k).getLsbD j = (decide (j = k) && b) := by
  rcases lt_trichotomy j k with h | rfl | h
  · simp [flagAt, h, h.ne]
  · simp [flagAt, hk]
  · simp [flagAt, h.ne', show j - k ≠ 0 by omega]

theorem State.err_eq (s : State) : s.err = decide (s.ecode ≠ .ok) := by
  unfold State.err
  cases s.ecode <;> rfl

/-- The code stands in bits 6:4 (R38). -/
theorem ErrorCode.bits_shifted_getLsbD (e : ErrorCode) (k : Nat) :
    (e.bits.setWidth 32 <<< 4).getLsbD k = (decide (4 ≤ k) && e.bits.getLsbD (k - 4)) := by
  by_cases hk : k < 32
  · by_cases h4 : k < 4
    · simp [h4]
    · simp [hk, h4, show 4 ≤ k by omega]
  · rw [BitVec.getLsbD_of_ge _ _ (by omega), BitVec.getLsbD_of_ge e.bits _ (by omega), Bool.and_false]

theorem State.statusWord_getLsbD (s : State) (k : Nat) :
    s.statusWord.getLsbD k = (decide (k = 0) && s.busy || decide (k = 1) && s.done || decide (k = 2) && s.err ||
      decide (k = 3) && s.found || decide (4 ≤ k) && s.ecode.bits.getLsbD (k - 4) || decide (k = 7) && s.busywr) := by
  simp only [State.statusWord, BitVec.getLsbD_or, flagAt_getLsbD, Nat.reduceLT, ErrorCode.bits_shifted_getLsbD]

theorem State.statusWord_code (s : State) : s.statusWord.extractLsb' 4 3 = s.ecode.bits := by
  refine BitVec.eq_of_getLsbD_eq fun k hk => ?_
  rw [BitVec.getLsbD_extractLsb', State.statusWord_getLsbD]
  interval_cases k <;> simp

/-- With the outcome clear only BUSY and BUSYWR can stand in STATUS (R38, R55, R231). -/
theorem State.statusWord_of_clear {s : State} (hdone : s.done = false) (hcode : s.ecode = .ok)
    (hfound : s.found = false) : s.statusWord = flagAt s.busy 0 ||| flagAt s.busywr 7 := by
  rw [State.statusWord, State.err, hdone, hcode, hfound]
  cases s.busy <;> cases s.busywr <;> rfl

theorem State.statusWord_eq_zero {s : State} (hidle : s.busy = false) (hdone : s.done = false) (hcode : s.ecode = .ok)
    (hfound : s.found = false) (hbusywr : s.busywr = false) : s.statusWord = 0#32 := by
  rw [State.statusWord_of_clear hdone hcode hfound, hidle, hbusywr]
  rfl

theorem State.portRead_status (s : State) : s.portRead 3#11 = s.statusWord := s.portRead_csr

/-- CAP holds the width in words and the number of registers side by side (R36). -/
theorem State.capWord_toNat (s : State) (hn : s.nword ≤ 128) : s.capWord.toNat = s.nword + 8 * 2 ^ 8 := by
  have hlt : s.nword < 2 ^ 8 := by omega
  have hnum : (BitVec.ofNat 8 s.nword).toNat = s.nword := by rw [BitVec.toNat_ofNat, Nat.mod_eq_of_lt hlt]
  rw [State.capWord, BitVec.toNat_or, BitVec.toNat_setWidth, hnum, Nat.mod_eq_of_lt (by omega), Nat.or_comm]
  have := Nat.two_pow_add_eq_or_of_lt hlt 8
  rw [show ((BitVec.ofNat 4 Config.nreg).setWidth 32 <<< 8).toNat = 2 ^ 8 * 8 from rfl]
  omega

theorem State.portRead_cap (s : State) (hn : s.nword ≤ 128) : (s.portRead 1#11).toNat = s.nword + 8 * 2 ^ 8 := by
  rw [s.portRead_csr]
  exact s.capWord_toNat hn

/-! ## SIGN -/

theorem State.signWord_getLsbD (s : State) (r : Reg) : s.signWord.getLsbD r = (s.wide[r]).sign := by
  simp only [State.signWord, BitVec.getLsbD_or, flagAt_getLsbD, Nat.reduceLT]
  fin_cases r <;> simp

theorem State.signWord_reserved (s : State) {k : Nat} (hk : 8 ≤ k) : s.signWord.getLsbD k = false := by
  simp only [State.signWord, BitVec.getLsbD_or, flagAt_getLsbD, Nat.reduceLT]
  simp
  omega

/-- A write to SIGN reads back its low byte (R41). -/
theorem State.signWord_setSigns (s : State) (v : Word) :
    State.signWord { s with wide := setSigns s.wide v } = v &&& 0x000000FF#32 := by
  have hmask (k : Nat) : (0x000000FF#32).getLsbD k = decide (k < 8) := by
    rw [show 0x000000FF#32 = BitVec.ofNat 32 (2 ^ 8 - 1) from rfl, BitVec.getLsbD_ofNat, Nat.testBit_two_pow_sub_one]
    simp
    omega
  refine BitVec.eq_of_getLsbD_eq fun k _ => ?_
  rw [BitVec.getLsbD_and, hmask]
  by_cases hk : k < 8
  · rw [State.signWord_getLsbD _ ⟨k, hk⟩]
    simp [setSigns, hk]
  · rw [State.signWord_reserved _ (by omega)]
    simp [hk]

theorem setSigns_sign (wide : Vector Wide 8) (v : Word) (r : Reg) : ((setSigns wide v)[r]).sign = v.getLsbD r := by
  simp [setSigns]

/-- A write to SIGN puts each magnitude under its new sign; negative zero is 0 (R25, R41). -/
theorem setSigns_value (wide : Vector Wide 8) (v : Word) (r : Reg) :
    ((setSigns wide v)[r]).value = if v.getLsbD r then -((wide[r]).mag : Int) else (wide[r]).mag := by
  rw [Wide.value, setSigns_sign, Wide.mag, setSigns_words, Wide.mag]

/-- While idle SIGN reads the sign bits (R41). -/
theorem State.portRead_sign {s : State} (hb : s.busy = false) : s.portRead 7#11 = s.signWord :=
  State.portRead_of_not_free fun ⟨hbusy, _⟩ => by simp [hb] at hbusy

/-- While busy the reserved bits of SIGN still read 0 (R271). -/
theorem State.portRead_sign_of_busy {s : State} (hb : s.busy = true) :
    s.portRead 7#11 = Config.busyRead s.fresh &&& 0x000000FF#32 := by
  unfold State.portRead
  rw [hb]
  rfl

/-! ## Reset -/

theorem State.powerOn_wide (nword draw : Nat) (r : Reg) :
    (State.powerOn nword draw).wide[r] = Wide.afterReset nword draw r := by
  fin_cases r <;> rfl

/-- With nothing in execution no words are anybody's to drop (R82, R243). -/
theorem State.dropDraws_noDraws {s : State} (hb : s.busy = false) : NoDraws s s.dropDraws := by
  have h0 : s.drawsAhead = 0 := by
    by_contra h
    obtain ⟨l, i, hr, -⟩ := s.drawsAhead_pos h
    simp [s.busy_eq_false_iff.mp hb] at hr
  have hrng : s.dropDraws.rng = s.rng := by simp [State.dropDraws, h0]
  exact ⟨hrng, by rw [State.dropDraws_drawn, hrng, Nat.sub_self, Nat.add_zero]⟩

/-! ## Who writes a parameter register -/

/-- A performed write leaves a parameter register alone or, while idle, is the write to it: `q` is the register's word
and `index` where it stands. -/
theorem parameter_written {s : State} {a index : PortIndex} {v x y : Word} {rest : List Event} {p q : PortWord}
    (event : s.agenda = .write a v :: rest) (hfree : s.busy = true → p.isProtected = false)
    (hq : q.isProtected = true) (hindex : p = q → a = index) (hx : x = if p = q then v else y) :
    x = y ∨ s.busy = false ∧ ∃ rest, s.agenda = .write index x :: rest := by
  by_cases hp : p = q
  · rw [if_pos hp] at hx
    refine .inr ⟨?_, rest, by rw [event, hindex hp, hx]⟩
    by_contra hb
    have := hfree (Bool.not_eq_false _ ▸ hb)
    rw [hp, hq] at this
    cases this
  · exact .inl (by rw [hx, if_neg hp])

/-! ## The statements about the control words and reset -/

/-- Settles O41: the reset state is a record of constants. -/
theorem resetLeavesTheStatedValues : Obligations.ResetLeavesTheStatedValues := by
  refine ⟨⟨8, by decide, by decide, rfl⟩, ?_⟩
  rintro nword draw _ - hn rfl
  exact ⟨rfl, rfl, rfl, rfl, rfl, rfl, rfl, State.statusWord_eq_zero rfl rfl rfl rfl rfl,
    rfl, rfl, rfl, rfl, rfl, rfl, rfl, rfl, State.portRead_csr _, State.portRead_cap _ hn,
    State.powerOn_words nword draw⟩

/-- Settles O42: a reset event answers the reset state but for the environment, and what it takes from the random words
is what `dropDraws` takes. -/
theorem platformReset : Obligations.PlatformReset := by
  intro s rest ha
  obtain ⟨hsuffix, -⟩ := State.dropDraws_rng { s with agenda := rest }
  refine ⟨_, step_of_event ha, rfl, rfl, rfl, rfl, State.statusWord_eq_zero rfl rfl rfl rfl rfl,
    rfl, rfl, rfl, rfl, rfl, rfl, rfl, rfl, State.powerOn_wide _ _, rfl, hsuffix, rfl, fun hb => ?_⟩
  obtain ⟨hrng, hdrawn⟩ := State.dropDraws_noDraws (s := { s with agenda := rest }) hb
  exact ⟨hrng, hdrawn⟩

/-- Settles O53, by the bits of SIGN and what a write makes of each register. -/
theorem signWriteAndRead : Obligations.SignWriteAndRead := by
  refine ⟨fun s r hb => ?_, fun s v rest hb ha => ?_⟩
  · rw [State.portRead_sign hb, State.signWord_getLsbD]
  · refine ⟨_, step_write_csr ha (.inl hb), rfl, ?_, fun r =>
      ⟨setSigns_words _ _ _, setSigns_sign _ _ _, setSigns_value _ _ _⟩⟩
    rw [State.portRead_sign (by exact hb)]
    exact State.signWord_setSigns { s with agenda := rest } v

/-- Settles O54: CTRL is not protected, so a write is performed busy or not. -/
theorem ctrlWriteAndRead : Obligations.CtrlWriteAndRead := by
  refine ⟨fun s => ⟨rfl, ?_⟩, fun nword draw => rfl, fun s v rest ha => ?_⟩
  · rw [s.portRead_csr]
    change flagAt s.ie 0 = _
    cases s.ie <;> rfl
  · refine ⟨_, step_write_csr ha (.inr rfl), rfl, fun hr => ?_, fun l hr => ?_⟩
    · exact congrArg (Option.map _) hr
    · exact congrArg (Option.map _) hr

/-- Settles O55, by the bits of STATUS. -/
theorem statusLayoutAndWrite : Obligations.StatusLayoutAndWrite := by
  refine ⟨fun s => ?_, fun s e n hmem he => ?_, fun s v rest ha => ?_, fun s hs hboth => ?_⟩
  · rw [s.portRead_status]
    refine ⟨?_, ?_, ?_, ?_, s.statusWord_code, ?_, fun k hk => ?_⟩
    · rw [State.statusWord_getLsbD]; simp
    · rw [State.statusWord_getLsbD]; simp
    · rw [State.statusWord_getLsbD, State.err_eq]; simp
    · rw [State.statusWord_getLsbD]; simp
    · rw [State.statusWord_getLsbD]; simp
    · rw [State.statusWord_getLsbD, BitVec.getLsbD_of_ge s.ecode.bits _ (by omega)]
      simp
      omega
  · rw [s.portRead_status, s.statusWord_code, he]
    clear he
    revert n
    cases e <;> decide
  · exact step_write_csr ha (.inr rfl)
  · obtain ⟨hdone, -⟩ := hs.clear hboth.1
    exact absurd (hdone.symm.trans hboth.2) (by decide)

/-- Settles O58: the invariant clears the outcome while busy, and the reserved bits of SIGN are masked. -/
theorem readsWhileBusy : Obligations.ReadsWhileBusy := by
  intro s hs hb
  obtain ⟨hdone, hcode, hfound, hresult, hiter⟩ := hs.clear hb
  refine ⟨?_, ?_, ?_, ?_⟩
  · exact s.portRead_csr.trans hresult
  · exact s.portRead_csr.trans hiter
  · rw [State.portRead_sign_of_busy hb, BitVec.and_assoc]
    exact BitVec.and_zero
  · rw [s.portRead_status, State.statusWord_of_clear hdone hcode hfound, hb]
    cases s.busywr <;> rfl

/-- Settles O57: the reads by the address map, the writes by the word they name, and what alone changes a control word
by the moves of a step. -/
theorem controlWordsReadAndWrite : Obligations.ControlWordsReadAndWrite := by
  refine ⟨fun s => ?_, fun s a v rest ha event => ?_, fun s v rest hb => ?_, fun s t hstep => ?_⟩
  · exact ⟨s.portRead_csr, s.portRead_csr, s.portRead_csr, s.portRead_csr, s.portRead_csr, s.portRead_csr,
      s.portRead_csr, s.portRead_csr, s.portRead_cap⟩
  · rcases ha with rfl | rfl | rfl | rfl <;> exact step_write_csr event (.inr rfl)
  · exact ⟨(step_write_csr · (.inl hb)), (step_write_csr · (.inl hb)), (step_write_csr · (.inl hb)),
      (step_write_csr · (.inl hb))⟩
  · cases step_move hstep with
    | environment agenda reply rng fresh next =>
      subst next
      exact ⟨rfl, .inr ⟨.inl rfl, .inl rfl, .inl rfl, .inl rfl, .inl rfl⟩⟩
    | reset rest event next =>
      subst next
      exact ⟨rfl, .inl ⟨rest, event⟩⟩
    | sequencer rest move =>
      obtain ⟨hn, hie, hb, hp, hm, hr⟩ := move.settings
      exact ⟨hn, .inr ⟨.inl hie, .inl hb, .inl hp, .inl hm, .inl hr⟩⟩
    | write a v rest event next =>
      subst next
      rcases State.hostWrite_cases { s with agenda := rest } a v with ⟨-, hw⟩ | ⟨hfree, hw⟩
      · rw [hw]
        exact ⟨rfl, .inr ⟨.inl rfl, .inl rfl, .inl rfl, .inl rfl, .inl rfl⟩⟩
      · rw [hw]
        obtain ⟨hctrl, hbitlen, hpersist, hfiltMod, hfiltRes⟩ := index_of_portWord (rfl : portWord s.nword a = _)
        refine ⟨State.writeWord_nword _ _ _, .inr ⟨?_,
          parameter_written event hfree rfl hbitlen (State.writeWord_bitlen _ _ _),
          parameter_written event hfree rfl hpersist (State.writeWord_persist _ _ _),
          parameter_written event hfree rfl hfiltMod (State.writeWord_filtMod _ _ _),
          parameter_written event hfree rfl hfiltRes (State.writeWord_filtRes _ _ _)⟩⟩
        rw [State.writeWord_ie]
        split
        · rename_i hp
          exact .inr ⟨v, rest, by rw [event, hctrl hp], rfl⟩
        · exact .inl rfl

end Sys2Proof.Machine

/-! The words that go in and out of the machine: the magnitude words and the reserved offsets of the port (R62, R65,
R66), and the random words of the source (R80 to R83). -/

namespace Sys2Proof.Machine

/-! ## Words as an integer -/

/-- Words read as an integer are their sum, least significant first (R66, R81). -/
theorem natOfWords_take (n : Nat) (ws : List Word) :
    natOfWords (ws.take n) = ∑ j ∈ Finset.range n, (ws.getD j 0#32).toNat * 2 ^ (32 * j) := by
  induction n generalizing ws with
  | zero => rfl
  | succ n ih =>
    cases ws with
    | nil => simp [natOfWords]
    | cons w ws =>
      have hshift (j : Nat) : 2 ^ (32 * (j + 1)) = 2 ^ 32 * 2 ^ (32 * j) := by rw [Nat.mul_succ, Nat.add_comm, pow_add]
      rw [List.take_succ_cons, natOfWords, ih, Finset.sum_range_succ', Finset.mul_sum, Nat.add_comm]
      simp only [hshift, Nat.mul_left_comm (2 ^ 32), List.getD_cons_succ, List.getD_cons_zero, mul_zero, pow_zero,
        mul_one]

/-- The number of words of a draw is the least that hold its bits (R81). -/
theorem drawWords_eq {k nw : Nat} (hlo : 32 * (nw - 1) < k) (hhi : k ≤ 32 * nw) : drawWords k = nw := by
  unfold drawWords
  omega

/-! ## Random words in order -/

/-- From `s` to `t` the random words leave by the front and are counted, and only for a prime command (R80, R82). -/
structure TakesInOrder (s t : State) : Prop where
  suffix : t.rng <:+ s.rng
  drawn : t.drawn = s.drawn + (s.rng.length - t.rng.length)
  prime : t.rng ≠ s.rng → ∃ l, s.running = some l ∧ ∃ i, decode l.cmd = .ok i ∧ drawsWords i = true

section Random

variable {s t : State}

theorem NoDraws.takesInOrder (h : NoDraws s t) : TakesInOrder s t where
  suffix := h.rng ▸ List.suffix_refl _
  drawn := by rw [h.rng, h.drawn, Nat.sub_self, Nat.add_zero]
  prime hne := absurd h.rng hne

/-- A host write touches no random word (R63). -/
theorem State.hostWrite_noDraws (s : State) (a : PortIndex) (v : Word) : NoDraws s (s.hostWrite a v) := by
  rcases s.hostWrite_cases a v with ⟨-, hw⟩ | ⟨-, hw⟩ <;> rw [hw]
  · exact ⟨rfl, rfl⟩
  · cases portWord s.nword a <;> exact ⟨rfl, rfl⟩

/-- A command that waits takes no random word (log entry 5). -/
theorem State.hold_noDraws (s : State) (c : Word) : NoDraws s (s.hold c) := by
  unfold State.hold
  split <;> exact ⟨rfl, rfl⟩

/-- What an abort or a reset takes is the prime command's in execution (R243, R260). -/
theorem State.dropDraws_takesInOrder (s : State) : TakesInOrder s s.dropDraws where
  suffix := s.dropDraws_rng.1
  drawn := s.dropDraws_drawn
  prime hne := by
    obtain ⟨l, i, hr, hd, hi⟩ := s.drawsAhead_pos fun h0 => hne (by simp [State.dropDraws, h0])
    exact ⟨l, hr, i, hd, hi⟩

theorem Outcomes.takesInOrder {i : Instr} {l : Latch} (h : Outcomes i s t) (hr : s.running = some l)
    (hd : decode l.cmd = .ok i) : TakesInOrder s t where
  suffix := h.rng
  drawn := h.drawn
  prime hne := ⟨l, hr, i, hd, by_contra fun hi => hne (h.rng_of_not_drawsWords (Bool.not_eq_true _ ▸ hi)).1⟩

theorem SequencerMove.takesInOrder (h : SequencerMove s t) : TakesInOrder s t := by
  rcases h with rfl | ⟨l, hr, rfl | ⟨i, hd, ho⟩ | rfl⟩
  · exact NoDraws.takesInOrder ⟨rfl, rfl⟩
  · exact NoDraws.takesInOrder ⟨rfl, rfl⟩
  · exact ho.takesInOrder hr hd
  · obtain ⟨hsuffix, hdrawn, hprime⟩ := s.dropDraws_takesInOrder
    exact ⟨hsuffix, hdrawn, hprime⟩

end Random

/-! ## The words of the port -/

/-- Index `0x400 + 0x80*i + j` is word `j` of the magnitude of `wi` (R64, R66). -/
theorem portWord_magIndex {n j : Nat} (i : Reg) (hn : n ≤ 128) (hj : j < n) :
    portWord n (magIndex i j) = .mag i j := by
  have hi := i.isLt
  have hidx : (magIndex i j).toNat = 0x400 + 0x80 * i.val + j := by
    rw [magIndex, BitVec.toNat_ofNat, Nat.mod_eq_of_lt (by omega)]
  have hreg : (0x400 + 0x80 * i.val + j - 0x400) / 128 = i.val := by omega
  have hword : (0x400 + 0x80 * i.val + j) % 128 = j := by omega
  rw [portWord, hidx, if_neg (by omega), hword, if_pos hj, hreg, Fin.ofNat_val_eq_self]

/-- A reserved index is one above the CSRs, or one of a slot's words that are not implemented (R65). -/
theorem portWord_reserved {n : Nat} {a : PortIndex}
    (h : (12 ≤ a.toNat ∧ a.toNat < 0x400) ∨ (0x400 ≤ a.toNat ∧ n ≤ a.toNat % 0x80)) : portWord n a = .reserved := by
  rcases h with ⟨h12, hcsr⟩ | ⟨hslot, hn⟩
  · obtain ⟨k, hk⟩ : ∃ k, a.toNat = k + 12 := ⟨a.toNat - 12, by omega⟩
    rw [portWord_csr n hcsr, hk]
    rfl
  · rw [portWord, if_neg (by omega), if_neg (by omega)]

theorem State.portRead_of_idle {s : State} (hb : s.busy = false) (a : PortIndex) :
    s.portRead a = s.wordAt (portWord s.nword a) :=
  State.portRead_of_not_free fun ⟨hbusy, _⟩ => by simp [hb] at hbusy

/-- While idle word `j` of a magnitude reads at its index (R66). -/
theorem State.portRead_magIndex {s : State} (hb : s.busy = false) (hn : s.nword ≤ 128) (i : Reg) {j : Nat}
    (hj : j < s.nword) : s.portRead (magIndex i j) = (s.wide[i]).words.getD j 0#32 := by
  rw [State.portRead_of_idle hb, portWord_magIndex i hn hj]
  rfl

/-- SIGN reads the sign bits and nothing else of the state (R41). -/
theorem State.signWord_congr {s t : State} (h : ∀ r : Reg, (t.wide[r]).sign = (s.wide[r]).sign) :
    t.signWord = s.signWord := by
  refine BitVec.eq_of_getLsbD_eq fun k _ => ?_
  by_cases hk : k < 8
  · rw [t.signWord_getLsbD ⟨k, hk⟩, s.signWord_getLsbD ⟨k, hk⟩, h]
  · rw [t.signWord_reserved (by omega), s.signWord_reserved (by omega)]

/-- A write replaces word `j` of a magnitude (R66). -/
theorem Wide.setWord_getD (w : Wide) {j : Nat} (hj : j < w.words.length) (v : Word) :
    (w.setWord j v).words.getD j 0#32 = v := by
  simp [Wide.setWord, hj]

/-- A write to word `j` of a magnitude leaves its other words (R66). -/
theorem Wide.setWord_getD_ne (w : Wide) {j k : Nat} (hne : j ≠ k) (v : Word) :
    (w.setWord j v).words.getD k 0#32 = w.words.getD k 0#32 := by
  simp [Wide.setWord, List.getElem?_set_ne hne]

/-- The registers after a write to one word of `wr` (R66). -/
theorem State.writeWord_mag_get (s : State) (v : Word) (r r' : Reg) (j : Nat) :
    (s.writeWord v (.mag r j)).wide[r'] = if r = r' then (s.wide[r]).setWord j v else s.wide[r'] := by
  simp only [State.writeWord, Fin.getElem_fin, Vector.getElem_set, Fin.val_inj]

/-- A write to a magnitude word leaves every other word of the register space (R66). -/
theorem State.wordAt_writeWord_mag (s : State) (v : Word) {r : Reg} {j : Nat} {p : PortWord} (hp : p ≠ .mag r j) :
    (s.writeWord v (.mag r j)).wordAt p = s.wordAt p := by
  cases p with
  | sign =>
    refine State.signWord_congr fun r' => ?_
    rw [State.writeWord_mag_get]
    split
    · rename_i heq
      rw [heq]
      rfl
    · rfl
  | mag r' j' =>
    simp only [State.wordAt, State.writeWord_mag_get]
    split
    · rename_i heq
      subst heq
      exact Wide.setWord_getD_ne _ (fun hj : j = j' => hp (hj ▸ rfl)) v
    · rfl
  | _ => rfl

/-! ## The statements -/

/-- Settles O60: the words taken are those of the draw, read as their sum. -/
theorem drawBitsTakesWholeWords : Obligations.DrawBitsTakesWholeWords := by
  intro k nw ws _ hlo hhi
  have hnw := drawWords_eq hlo hhi
  refine ⟨fun hlen => ?_, fun hlen => ?_⟩
  · rw [drawBits_eq_some, hnw, natOfWords_take]
    exact ⟨hlen, rfl, rfl⟩
  · rw [drawBits, hnw, if_pos hlen]

/-- Settles O27: no base that the words hold is a witness, so the rounds end without a verdict and the command is
held. -/
theorem isprimeWaitsForRandomWords : Obligations.IsprimeWaitsForRandomWords := by
  intro s ra n hsrc h5 hodd hfew hliars
  have hnone : millerRabin (s.src ra).toNat s.srcPersist s.rng = none := by
    rw [hsrc, Int.toNat_natCast, millerRabin, if_neg (by omega), if_neg (by omega), if_neg (by omega)]
    exact mrRounds_none _ _ _ _ _ hfew fun k hk => (basePasses_iff_strongLiar n _ h5 hodd).mpr (hliars k hk)
  have hheld : Outcomes (.isprime ra) s (s.hold (encode (.isprime ra))) := .inr (.inr ⟨rfl, .inl ⟨ra, rfl⟩⟩)
  refine ⟨_, ?_, s.hold_busy _, s.hold_wide _, hheld.sameSettings, s.hold_noDraws _⟩
  rw [exec, execIsprime, if_neg (by omega), hnone]

/-- Settles O59, by the moves of a step: reads and writes touch no random word, a reset drops what its command took, and
the sequencer takes words only for a prime command. -/
theorem randomWordsAreTakenInOrder : Obligations.RandomWordsAreTakenInOrder := by
  refine ⟨fun s w rest ha => step_of_event ha, fun s t hstep hsupply => ?_⟩
  obtain ⟨u, rfl, hmove⟩ := step_cases hstep
  have htakes : TakesInOrder { s with agenda := s.agenda.tail } t := by
    rcases hmove with ⟨a, -, rfl⟩ | ⟨a, v, -, rfl⟩ | ⟨w, he, -⟩ | ⟨-, rfl⟩ | ⟨-, rfl⟩ | ⟨-, hturn⟩
    · exact NoDraws.takesInOrder ⟨rfl, rfl⟩
    · exact (State.hostWrite_noDraws _ a v).takesInOrder
    · obtain ⟨rest, ha⟩ := List.head?_eq_some_iff.mp he
      exact absurd ha (hsupply w rest)
    · obtain ⟨hsuffix, hdrawn, hprime⟩ := State.dropDraws_takesInOrder { s with agenda := s.agenda.tail }
      exact ⟨hsuffix, hdrawn, hprime⟩
    · exact (State.abortTurn_move _).takesInOrder
    · exact (State.completeTurn_move hturn).takesInOrder
  obtain ⟨hsuffix, hdrawn, hprime⟩ := htakes
  exact ⟨hsuffix, hdrawn, hprime⟩

/-- Settles O52: the words of the window are those of the magnitude, and a write to one leaves every word at
another index of the register space. -/
theorem magnitudeWordsWriteAndRead : Obligations.MagnitudeWordsWriteAndRead := by
  refine ⟨fun s i hs hb => ?_, fun s i j v rest hs hb hj ha => ?_⟩
  · rw [Wide.mag, ← List.take_length (l := (s.wide[i]).words), hs.words, natOfWords_take]
    refine Finset.sum_congr rfl fun j hj => ?_
    rw [State.portRead_magIndex hb hs.width.2 i (Finset.mem_range.mp hj)]
  · have hword := portWord_magIndex i hs.width.2 hj
    have hstep : step s = .next (State.writeWord { s with agenda := rest } v (.mag i j)) := by
      rw [step_of_event ha, State.handle, State.hostWrite_of_idle (s := { s with agenda := rest }) hb, hword]
    refine ⟨_, hstep, rfl, ?_, fun a hne => ?_⟩
    · rw [State.portRead_magIndex (by exact hb) (by exact hs.width.2) i (by exact hj), State.writeWord_mag_get,
        if_pos rfl]
      exact Wide.setWord_getD _ (by rwa [hs.words i]) v
    · have hp : portWord s.nword a ≠ .mag i j := fun hp =>
        hne ((index_of_registerWord hp).2.2 i j rfl).2
      rw [State.portRead_of_idle (by exact hb), State.portRead_of_idle hb]
      exact State.wordAt_writeWord_mag { s with agenda := rest } v hp

/-- Settles O50: a read moves only the reply and, where it took one, the number of the next free value. -/
theorem readsHaveNoSideEffect : Obligations.ReadsHaveNoSideEffect := by
  intro s a rest ha
  refine ⟨_, step_of_event ha, rfl, fun hfree => ?_, fun hfree => ?_, fun b hb => ?_⟩
  · exact if_pos ((readsFree_iff s a).mp hfree)
  · exact if_neg (mt (readsFree_iff s a).mpr hfree)
  · rw [State.portRead_of_not_free hb]
    exact State.portRead_of_not_free (s := State.hostRead { s with agenda := rest } a) hb

/-- Settles O51: a reserved word is neither free nor protected, reads 0 and ignores writes. -/
theorem reservedOffsetsReadZeroAndIgnoreWrites : Obligations.ReservedOffsetsReadZeroAndIgnoreWrites := by
  intro s a ha
  have hword := portWord_reserved ha
  refine ⟨?_, fun v rest hagenda => ?_⟩
  · have hfree : ¬readsFree s a := by simp [readsFree_iff, hword, PortWord.readsFreeWhileBusy]
    rw [State.portRead_of_not_free hfree, hword]
    rfl
  · rw [step_of_event hagenda, State.handle, State.hostWrite_of_not_protected (s := { s with agenda := rest }) v, hword]
    · rfl
    · rw [hword]
      rfl

end Sys2Proof.Machine

/-! The command word: a row of the opcode map (R95) keeps every field of the words it takes, so that decoding and
encoding agree in both directions (R96, R107); then what the sequencer makes of the word it holds, legal or not (R103,
R104). -/

namespace Sys2Proof

/-! ## Commands, fields and rows -/

/-- The row that the opcode of a command selects reads the command back from its fields (R93, R95). -/
theorem Instr.make_fields (i : Instr) :
    opcodeRows[i.fields.opc.toNat]?.map (fun row => row.make i.fields) = some i := by
  cases i with
  | genprime rd f => cases f <;> rfl
  | _ => rfl

/-- The word of a command satisfies the row that its opcode selects: no unused field of it is set (R93, R95). -/
theorem Instr.word_fits_row (i : Instr) : Laws.RowMatch.Statement i := by
  cases i with
  | nop => exact Laws.RowMatch.nop
  | powmod => exact Laws.RowMatch.powmod _ _ _ _
  | xgcd => exact Laws.RowMatch.xgcd _ _ _ _ _
  | modinv => exact Laws.RowMatch.modinv _ _ _
  | modred => exact Laws.RowMatch.modred _ _ _
  | montmul => exact Laws.RowMatch.montmul _ _ _ _
  | montin => exact Laws.RowMatch.montin _ _ _
  | jacobi => exact Laws.RowMatch.jacobi _ _
  | isqrt => exact Laws.RowMatch.isqrt _ _
  | modsqrt => exact Laws.RowMatch.modsqrt _ _ _ _
  | isprime => exact Laws.RowMatch.isprime _
  | genprime => exact Laws.RowMatch.genprime _ _

/-! A field under a full mask is the field itself, and a one-bit field is its flag. -/

@[simp] theorem opc_and_full (x : BitVec 8) : x &&& 255#8 = x := BitVec.and_allOnes

@[simp] theorem reg_and_full (x : BitVec 3) : x &&& 7#3 = x := BitVec.and_allOnes

@[simp] theorem f_and_full (x : BitVec 1) : x &&& 1#1 = x := BitVec.and_allOnes

@[simp] theorem rsv_and_full (x : BitVec 5) : x &&& 31#5 = x := BitVec.and_allOnes

@[simp] theorem ofBool_beq_one (x : BitVec 1) : BitVec.ofBool (x == 1#1) = x := by decide +revert

/-- The row keeps every field of a word that its mask and match take: what `make` drops is zero, and the opcode is the
row's own (R93, R95). -/
def OpcodeRow.KeepsFields (row : OpcodeRow) : Prop :=
  ∀ x : Fields, x.and (Fields.ofWord row.mask) = Fields.ofWord row.mtch → (row.make x).fields = x

/-- Row by row: a field is either read into the command or under the mask, and then the match says what it is. -/
theorem opcodeRows_keepFields : ∀ row ∈ opcodeRows, row.KeepsFields := by
  simp only [opcodeRows, List.forall_mem_cons, OpcodeRow.KeepsFields]
  refine ⟨?_, ?_, ?_, ?_, ?_, ?_, ?_, ?_, ?_, ?_, ?_, ?_, by simp⟩
  all_goals
    rintro ⟨opc, rd, ra, rb, rm, rd2, rd3, f, rsv⟩ h
    refine Eq.symm ?_
    simpa [Instr.fields, Fields.and, Fields.ofWord] using h

/-! ## Decoding and encoding -/

theorem decode_of_no_row {c : Word} (h : opcodeRows[(Fields.ofWord c).opc.toNat]? = none) :
    decode c = .error .reservedOpcode := by
  simp only [decode, h]

theorem decode_of_row {c : Word} {row : OpcodeRow} (h : opcodeRows[(Fields.ofWord c).opc.toNat]? = some row) :
    decode c = if c &&& row.mask = row.mtch then .ok (row.make (Fields.ofWord c)) else .error .nonZeroUnusedField := by
  simp only [decode, h]

theorem ofWord_encode (i : Instr) : Fields.ofWord (encode i) = i.fields := Fields.ofWord_toWord _

/-- A word that fits a row of the map is the word of the command the row makes of it (R95, R107). -/
theorem encode_make {row : OpcodeRow} (hrow : row ∈ opcodeRows) {c : Word} (hfit : c &&& row.mask = row.mtch) :
    encode (row.make (Fields.ofWord c)) = c := by
  rw [← Fields.toWord_ofWord c, Fields.toWord_masked] at hfit
  rw [encode, opcodeRows_keepFields row hrow _ hfit, Fields.toWord_ofWord]

/-- Settles O1: the word fits the row of its opcode, and that row reads the command back. -/
theorem decodeOfEncodeIsTheCommand : Obligations.DecodeOfEncodeIsTheCommand := by
  intro i
  obtain ⟨row, hrow, hfit⟩ := i.word_fits_row
  have hmake : row.make i.fields = i := by simpa [hrow] using i.make_fields
  rw [decode_of_row (by rwa [ofWord_encode]), if_pos hfit, ofWord_encode, hmake]

/-- Settles O2: the row that took the word keeps all its fields. -/
theorem encodeOfDecodeIsTheWord : Obligations.EncodeOfDecodeIsTheWord := by
  intro c i h
  cases hrow : opcodeRows[(Fields.ofWord c).opc.toNat]? with
  | none => simp [decode_of_no_row hrow] at h
  | some row =>
    rw [decode_of_row hrow] at h
    split_ifs at h with hfit
    obtain rfl := Except.ok.inj h
    exact encode_make (List.mem_of_getElem? hrow) hfit

/-- A word decodes to a command exactly if it is the command's word. -/
theorem decode_eq_ok_iff (c : Word) (i : Instr) : decode c = .ok i ↔ encode i = c :=
  ⟨encodeOfDecodeIsTheWord c i, fun h => h ▸ decodeOfEncodeIsTheCommand i⟩

/-- A word decodes to a command exactly if it fits the row of the command's opcode and the row reads the command from
its fields (R95). -/
theorem decode_eq_ok_iff_row (c : Word) {i : Instr} {row : OpcodeRow}
    (hrow : opcodeRows[i.fields.opc.toNat]? = some row) :
    decode c = .ok i ↔ c &&& row.mask = row.mtch ∧ row.make (Fields.ofWord c) = i := by
  rw [decode_eq_ok_iff]
  constructor
  · rintro rfl
    obtain ⟨row', hrow', hfit⟩ := i.word_fits_row
    obtain rfl : row = row' := Option.some.inj (hrow.symm.trans hrow')
    exact ⟨hfit, by simpa [hrow, ofWord_encode] using i.make_fields⟩
  · rintro ⟨hfit, rfl⟩
    exact encode_make (List.mem_of_getElem? hrow) hfit

/-- A word is refused for its opcode exactly if the map has no row for it (R95, R104). -/
theorem decode_eq_reservedOpcode_iff (c : Word) :
    decode c = .error .reservedOpcode ↔ 0x0B < (c.extractLsb' 0 8).toNat := by
  have hnone : opcodeRows[(Fields.ofWord c).opc.toNat]? = none ↔ 0x0B < (c.extractLsb' 0 8).toNat :=
    List.getElem?_eq_none_iff
  rw [← hnone]
  cases hrow : opcodeRows[(Fields.ofWord c).opc.toNat]? with
  | none => simp [decode_of_no_row hrow]
  | some row =>
    rw [decode_of_row hrow]
    split_ifs <;> simp

/-! ## The operands at their bit positions -/

theorem regOfBits_eq_iff (b : BitVec 3) (r : Reg) : regOfBits b = r ↔ b.toNat = r := Fin.ext_iff

theorem extract_f_beq_one (c : Word) : (c.extractLsb' 26 1 == 1#1) = c.getLsbD 26 := by
  have h : c.extractLsb' 26 1 = BitVec.ofBool (c.getLsbD 26) := by ext i hi; simp [show i = 0 by omega]
  rw [h]
  cases c.getLsbD 26 <;> rfl

/-- Settles O3: each row read at the bit positions of its fields. -/
theorem rowsDecideTheCommand : Obligations.RowsDecideTheCommand := by
  intro c
  refine ⟨?_, ?_, ?_, ?_, ?_, ?_, ?_, ?_, ?_, ?_, ?_, ?_, decode_eq_reservedOpcode_iff c⟩
  all_goals
    intros
    exact (decode_eq_ok_iff_row c rfl).trans (by simp [regOfBits_eq_iff, extract_f_beq_one, Fields.ofWord])

/-- Settles O4: each word decodes by evaluation, field by field. -/
theorem specWordsDecode : Obligations.SpecWordsDecode := by
  unfold Obligations.SpecWordsDecode
  decide

/-! ## Illegal words -/

/-- The fields of a command that decide its legality: the opcode is in the map, RSV is 0, F is GENPRIME's (R93). -/
theorem Instr.fields_legal (i : Instr) :
    i.fields.opc.toNat ≤ 0x0B ∧ i.fields.rsv = 0#5 ∧ (i.fields.f = 0#1 ∨ i.fields.opc = 0x0B#8) := by
  cases i <;> simp [Instr.fields]

/-- A word that is no command's is refused. -/
theorem decode_error_of_forall_ne {c : Word} (h : ∀ i, encode i ≠ c) : ∃ e, decode c = .error e := by
  cases hd : decode c with
  | error e => exact ⟨e, rfl⟩
  | ok i => exact absurd ((decode_eq_ok_iff c i).mp hd) (h i)

theorem encode_opc (i : Instr) : (encode i).extractLsb' 0 8 = i.fields.opc := congrArg Fields.opc (ofWord_encode i)

theorem encode_rsv (i : Instr) : (encode i).extractLsb' 27 5 = i.fields.rsv := congrArg Fields.rsv (ofWord_encode i)

theorem encode_getLsbD_f (i : Instr) : (encode i).getLsbD 26 = (i.fields.f == 1#1) := by
  rw [← extract_f_beq_one, ← ofWord_encode]; rfl

/-- A word is refused for an unused field exactly if its opcode is in the map and it is no command's word (R104). -/
theorem decode_eq_nonZeroUnusedField_iff (c : Word) :
    decode c = .error .nonZeroUnusedField ↔ (c.extractLsb' 0 8).toNat ≤ 0x0B ∧ ∀ i, encode i ≠ c := by
  have hok (i : Instr) := decode_eq_ok_iff c i
  have hreserved := decode_eq_reservedOpcode_iff c
  constructor
  · intro h
    simp only [h, Except.error.injEq, reduceCtorEq, false_iff] at hok hreserved
    exact ⟨by omega, hok⟩
  · rintro ⟨hopc, hne⟩
    obtain ⟨e, he⟩ := decode_error_of_forall_ne hne
    cases e with
    | reservedOpcode => exact absurd (hreserved.mp he) (by omega)
    | nonZeroUnusedField => exact he

end Sys2Proof

namespace Sys2Proof.Machine

/-! ## Duplicate destinations -/

theorem wellFormed_eq_false_iff (i : Instr) : i.wellFormed = false ↔
    (∃ rd rd2 rd3 ra rb, i = .xgcd rd rd2 rd3 ra rb ∧ (rd = rd2 ∨ rd = rd3 ∨ rd2 = rd3)) ∨
    (∃ rd rd2 ra rm, i = .modsqrt rd rd2 ra rm ∧ rd = rd2) := by
  cases i with
  | xgcd rd rd2 rd3 ra rb => simp [Instr.wellFormed, Instr.dests, or_assoc, imp_iff_not_or]
  | modsqrt rd rd2 ra rm => simpa [Instr.wellFormed, Instr.dests] using eq_comm
  | _ => simp [Instr.wellFormed, Instr.dests]

/-- A command with duplicate destinations ends with ILLEGAL_CMD before any other check (R103, R234). -/
theorem exec_of_not_wellFormed {i : Instr} (h : i.wellFormed = false) (s : State) :
    exec i s = .next (s.raise .illegalCmd) := by
  rcases (wellFormed_eq_false_iff i).mp h with ⟨rd, rd2, rd3, ra, rb, rfl, heq⟩ | ⟨rd, rd2, ra, rm, rfl, heq⟩
  · rw [exec, execXgcd, if_pos heq]
  · rw [exec, execModsqrt, if_pos heq]

/-- Settles O7: the destinations are listed twice in two commands only, whose first check this is. -/
theorem duplicateDestinationsAreIllegal : Obligations.DuplicateDestinationsAreIllegal :=
  ⟨wellFormed_eq_false_iff, fun _ s h => ⟨_, exec_of_not_wellFormed h s, s.raise_failed _⟩⟩

/-! ## The command held -/

/-- The word `c` is no command, or a command with duplicate destinations (R104). -/
def IllegalWord (c : Word) : Prop :=
  (∃ e, decode c = .error e) ∨ ∃ i, decode c = .ok i ∧ i.wellFormed = false

theorem State.runLatched_of_decode {s : State} {l : Latch} {i : Instr} (hr : s.running = some l)
    (hd : decode l.cmd = .ok i) : s.runLatched = exec i s := by
  simp only [State.runLatched, hr, hd]

/-- An illegal word ends with ILLEGAL_CMD (R104). -/
theorem State.runLatched_of_illegal {s : State} {l : Latch} (hr : s.running = some l) (hc : IllegalWord l.cmd) :
    s.runLatched = .next (s.raise .illegalCmd) := by
  rcases hc with ⟨e, he⟩ | ⟨i, hi, hwf⟩
  · simp only [State.runLatched, hr, he]
  · rw [State.runLatched_of_decode hr hi, exec_of_not_wellFormed hwf]

/-- Where the command completes, that is the sequencer's turn, whether an abort is requested or not (log entry 8). -/
theorem State.completeTurn_of_completes {s t : State} (h : s.runLatched = .next t) (ht : t.busy = false) :
    s.completeTurn = .next t := by
  simp [State.completeTurn, h, ht]

/-- Without an abort request the sequencer's turn is the command's meaning (R96, R232). -/
theorem State.completeTurn_of_no_request {s : State} {l : Latch} {i : Instr} (hr : s.running = some l)
    (hd : decode l.cmd = .ok i) (ha : l.abortReq = false) : s.completeTurn = exec i s := by
  obtain ⟨t, ht, -⟩ := exec_cases i s
  have hl : s.latched = l := by simp [State.latched, hr]
  simp [State.completeTurn, State.runLatched_of_decode hr hd, ht, hl, ha]

theorem step_of_no_event {s : State} (h : s.agenda = []) : step s = s.completeTurn := by
  unfold step; rw [h]

/-- A held illegal word ends with ILLEGAL_CMD in the next step (R104). -/
theorem step_of_illegal {s : State} {l : Latch} (hr : s.running = some l) (hag : s.agenda = [])
    (hc : IllegalWord l.cmd) : step s = .next (s.raise .illegalCmd) := by
  rw [step_of_no_event hag, State.completeTurn_of_completes (State.runLatched_of_illegal hr hc) rfl]

/-- Settles O5: a step with nothing or a completion on the agenda is the sequencer's turn, and an accepted word carries
no abort request. -/
theorem stepRunsTheDecodedCommand : Obligations.StepRunsTheDecodedCommand := by
  refine ⟨fun s l i hr hd ha => ⟨fun hag => ?_, fun rest hag => ?_⟩,
    fun s t l i hr hd hag he ht => ?_, fun s w i hd => ?_⟩
  · rw [step_of_no_event hag, State.completeTurn_of_no_request hr hd ha]
  · rw [step_of_event hag, State.handle]
    exact State.completeTurn_of_no_request hr hd ha
  · rw [step_of_no_event hag]
    exact State.completeTurn_of_completes ((State.runLatched_of_decode hr hd).trans he) ht
  · have hword : BitVec.ofNat 32 (w % 2 ^ 32) = BitVec.ofNat 32 w := BitVec.eq_of_toNat_eq (by simp)
    rw [step_of_no_event rfl]
    exact State.completeTurn_of_no_request (l := s.latchOf (BitVec.ofNat 32 (w % 2 ^ 32))) rfl (hword ▸ hd) rfl

/-- Settles O6: a write to CMD is an acceptance, the step after it finds the illegal word in the latch, and the fields
of a command exclude the words named. -/
theorem illegalWordEndsWithIllegalCmd : Obligations.IllegalWordEndsWithIllegalCmd := by
  refine ⟨fun s c hb hc => ?_, fun c hc => decode_error_of_forall_ne ?_, fun c e => ?_⟩
  · have haccept := step_write_csr (s := { s with agenda := [.write 4#11 c] }) rfl (.inl hb)
    refine ⟨_, _, haccept, rfl, step_of_illegal rfl rfl hc, State.raise_failed _ _, ?_, rfl, rfl⟩
    rw [State.portRead_status, State.statusWord_code]
    rfl
  · rintro i rfl
    obtain ⟨hopc, hrsv, hf⟩ := i.fields_legal
    rw [encode_opc, encode_rsv, encode_getLsbD_f] at hc
    rcases hc with habove | hne | ⟨hset, hother⟩
    · omega
    · exact hne hrsv
    · rcases hf with hzero | hgenprime
      · simp [hzero] at hset
      · exact hother hgenprime
  · cases e with
    | reservedOpcode => simp [decode_eq_reservedOpcode_iff]
    | nonZeroUnusedField => simp [decode_eq_nonZeroUnusedField_iff]

end Sys2Proof.Machine

/-! POWMOD, and the two checks that stand first in every command (R234): a negative value in an unsigned position, then
a modulus the command has no meaning for. -/

namespace Sys2Proof.Machine

variable {s : State}

/-! ## Operands in range as integers -/

/-- A completion itself takes no random word (R82). -/
theorem State.complete_noDraws (s : State) (ws : List (Reg × Int)) (f : Bool) (w n : Word) :
    NoDraws s (s.complete ws f w n) :=
  ⟨State.complete_rng s ws f w n, State.complete_drawn s ws f w n⟩

/-- A remainder by an operand fits a register, as the operand does (R21). -/
theorem State.Inv.emod_src_fits (h : s.Inv) {r : Reg} (hm : 0 < s.src r) (v : Int) :
    (v % s.src r).natAbs < 2 ^ s.width := by
  have hfits := h.reg_lt s r
  rw [← h.src_eq] at hfits
  have hnonneg := Int.emod_nonneg v hm.ne'
  have hlt := Int.emod_lt_of_pos v hm
  omega

/-- The power of R122 as an integer remainder. -/
theorem powMod_toNat {b m : Int} (hb : 0 ≤ b) (hm : 0 < m) (e : Nat) :
    (powMod b.toNat e m.toNat : Int) = b ^ e % m := by
  rw [powMod_eq _ _ _ (by omega), Int.natCast_emod, Int.natCast_pow, Int.toNat_of_nonneg hb, Int.toNat_of_nonneg hm.le]

/-- `XGCD_ALG` of two operands in range returns their greatest common divisor (R131). -/
theorem xgcdAlg_g_toNat {a b : Int} (ha : 0 ≤ a) (hb : 0 ≤ b) : (xgcdAlg a.toNat b.toNat).g = Int.gcd a b := by
  lift a to ℕ using ha
  lift b to ℕ using hb
  exact (xgcdAlg_spec a b).1

/-! ## POWMOD -/

/-- POWMOD with no operand error completes with the power (R122, R235). -/
theorem exec_powmod_of_legal {ra rb rm : Reg} (ha : 0 ≤ s.src ra) (hb : 0 ≤ s.src rb) (hm : 0 < s.src rm)
    (rd : Reg) : exec (.powmod rd ra rb rm) s =
      .next (s.complete [(rd, s.src ra ^ (s.src rb).toNat % s.src rm)] false 0#32 0#32) := by
  rw [exec, execPowmod, if_neg (by omega), if_neg (by omega), powMod_toNat ha hm]

/-- Settles O10: the power is a remainder by the modulus, so it fits the destination. -/
theorem powmodWritesThePower : Obligations.PowmodWritesThePower := by
  intro s rd ra rb rm hs ha hb hm
  refine ⟨_, exec_powmod_of_legal ha hb hm rd, s.complete_completed _ _ _ _ (by simp) ?_, s.complete_noDraws ..⟩
  simpa using hs.emod_src_fits hm _

/-- Settles O11: what O10 says is written is a remainder by the modulus. -/
theorem powmodModulusOneGivesZero : Obligations.PowmodModulusOneGivesZero := by
  intro s rd ra rb rm hs ha hb hm
  obtain ⟨t, ht, hcompleted, -⟩ := powmodWritesThePower s rd ra rb rm hs ha hb hm
  have hrd : t.reg rd = s.src ra ^ (s.src rb).toNat % s.src rm := hcompleted.written _ (List.mem_singleton_self _)
  have hnonneg : 0 ≤ t.reg rd := hrd ▸ Int.emod_nonneg _ hm.ne'
  have hlt : t.reg rd < s.src rm := hrd ▸ Int.emod_lt_of_pos _ hm
  exact ⟨t, ht, hcompleted.ecode, hnonneg, hlt, fun _ => by omega⟩

/-! ## The checks on the operands -/

/-- The destinations of a legal XGCD are distinct (R103). -/
theorem distinct_of_wellFormed_xgcd {rd rd2 rd3 ra rb : Reg} (h : (Instr.xgcd rd rd2 rd3 ra rb).wellFormed = true) :
    ¬(rd = rd2 ∨ rd = rd3 ∨ rd2 = rd3) := fun heq => by
  simp [(wellFormed_eq_false_iff _).mpr (.inl ⟨rd, rd2, rd3, ra, rb, rfl, heq⟩)] at h

/-- The destinations of a legal MODSQRT are distinct (R103). -/
theorem distinct_of_wellFormed_modsqrt {rd rd2 ra rm : Reg} (h : (Instr.modsqrt rd rd2 ra rm).wellFormed = true) :
    rd ≠ rd2 := fun heq => by
  simp [(wellFormed_eq_false_iff _).mpr (.inr ⟨rd, rd2, ra, rm, rfl, heq⟩)] at h

/-- After the legality of its destinations a command checks the signs of its sources, before anything else (R234). -/
theorem exec_of_negative_source {i : Instr} (hwf : i.wellFormed = true) (h : ∃ r ∈ unsignedSources i, s.src r < 0) :
    exec i s = .next (s.raise .operandRange) := by
  cases i <;>
    simp only [unsignedSources, List.mem_cons, List.not_mem_nil, exists_eq_or_imp, or_false, exists_eq_left,
      false_and, exists_false] at h
  case powmod => rw [exec, execPowmod, if_pos h]
  case xgcd => rw [exec, execXgcd, if_neg (distinct_of_wellFormed_xgcd hwf), if_pos h]
  case modinv => rw [exec, execModinv, if_pos h]
  case modred => rw [exec, execModred, if_pos h]
  case montmul => rw [exec, execMontmul, if_pos h]
  case montin => rw [exec, execMontin, if_pos h]
  case jacobi => rw [exec, execJacobi, if_pos h]
  case isqrt => rw [exec, execIsqrt, if_pos h]
  case modsqrt => rw [exec, execModsqrt, if_neg (distinct_of_wellFormed_modsqrt hwf), if_pos h]
  case isprime => rw [exec, execIsprime, if_pos h]

/-- MODINV modulo 0, or of an operand that has no inverse (R136, R235). -/
theorem exec_modinv_of_no_inverse {ra rm : Reg} (ha : 0 ≤ s.src ra) (hm : 0 ≤ s.src rm)
    (h : s.src rm = 0 ∨ Int.gcd (s.src ra) (s.src rm) ≠ 1) (rd : Reg) :
    exec (.modinv rd ra rm) s = .next (s.raise .mathError) := by
  rw [← xgcdAlg_g_toNat ha hm] at h
  rw [exec, execModinv, if_neg (by omega), ← ite_or, if_pos h]

/-- With operands in range the modulus is checked next (R234, R235). -/
theorem exec_of_failsMath {i : Instr} (hwf : i.wellFormed = true) (hsrc : ∀ r ∈ unsignedSources i, 0 ≤ s.src r)
    (h : failsMath s i) : exec i s = .next (s.raise .mathError) := by
  cases i <;> simp only [failsMath, unsignedSources, List.forall_mem_cons, List.not_mem_nil, false_imp_iff,
    implies_true, and_true] at h hsrc
  case powmod => rw [exec, execPowmod, if_neg (by omega), if_pos h]
  case modred => rw [exec, execModred, if_neg (by omega), if_pos h]
  case modinv => exact exec_modinv_of_no_inverse hsrc.1 hsrc.2 h _
  case montmul => rw [exec, execMontmul, if_neg (by omega), ← ite_or, if_pos h]
  case montin => rw [exec, execMontin, if_neg (by omega), ← ite_or, if_pos h]
  case jacobi => rw [exec, execJacobi, if_neg (by omega), ← ite_or, if_pos h]
  case modsqrt =>
    rw [exec, execModsqrt, if_neg (distinct_of_wellFormed_modsqrt hwf), if_neg (by omega), ← ite_or, ← ite_or,
      if_pos (or_assoc.mpr h)]

/-- Settles O30: the sign check is the first after the destinations. -/
theorem negativeOperandsAreOutOfRange : Obligations.NegativeOperandsAreOutOfRange :=
  fun _ s hwf h => ⟨_, exec_of_negative_source hwf h, s.raise_failed _⟩

/-- Settles O32: the modulus is checked before anything is computed, but for the inverse, which `XGCD_ALG` decides. -/
theorem failedPreconditionsAreMathErrors : Obligations.FailedPreconditionsAreMathErrors :=
  fun _ s hwf hsrc h => ⟨_, exec_of_failsMath hwf hsrc h, s.raise_failed _⟩

end Sys2Proof.Machine

/-! Extended Euclid: one round of `XGCD_ALG` as an equation and what follows from it (R131, R133), XGCD (R132), MODINV
(R136), and MODINV as XGCD followed by MODRED (R137). -/

namespace Sys2Proof.Machine

variable {s : State}

/-! ## The rounds of XGCD_ALG -/

@[simp] theorem xgcdAlg_zero (a : Nat) : xgcdAlg a 0 = ⟨a, 1, 0, 0⟩ := xgcdLoop_of_zero ..

/-- One round of R131: the loop goes on as from `(b, a mod b)`, whose answer its columns carry over linearly. -/
theorem xgcdAlg_of_pos (a : Nat) {b : Nat} (hb : 0 < b) :
    xgcdAlg a b = ⟨(xgcdAlg b (a % b)).g, (xgcdAlg b (a % b)).v,
      (xgcdAlg b (a % b)).u - (a / b : Nat) * (xgcdAlg b (a % b)).v, (xgcdAlg b (a % b)).steps + 1⟩ := by
  have hfuel : xgcdAlg b (a % b) = xgcdLoop b b (a % b) 1 0 0 1 0 :=
    xgcdLoop_fuel _ _ _ _ _ _ _ _ _ (Nat.lt_succ_self _) (Nat.mod_lt a hb)
  rw [xgcdAlg, xgcdLoop_of_pos _ _ _ _ _ _ _ _ hb.ne', xgcdLoop_linear _ _ _ _ _ _ _ _ _ hfuel, Bezout.mk.injEq]
  exact ⟨rfl, by ring, by ring, by ring⟩

/-- A first operand that the second divides takes one round (R133 items 4 and 5). -/
theorem xgcdAlg_of_dvd {a b : Nat} (hb : 0 < b) (h : b ∣ a) : xgcdAlg a b = ⟨b, 0, 1, 1⟩ := by
  simp [xgcdAlg_of_pos a hb, Nat.mod_eq_zero_of_dvd h]

/-- A smaller first operand takes one round more, which exchanges the operands (R133 item 6). -/
theorem xgcdAlg_of_lt {a b : Nat} (h : a < b) :
    xgcdAlg a b = ⟨(xgcdAlg b a).g, (xgcdAlg b a).v, (xgcdAlg b a).u, (xgcdAlg b a).steps + 1⟩ := by
  simp [xgcdAlg_of_pos a (Nat.zero_lt_of_lt h), Nat.mod_eq_of_lt h, Nat.div_eq_of_lt h]

/-- Settles O13: the round is linear in the coefficient columns, the bounds are the loop's invariant, and the special
operands are one round each. -/
theorem xgcdAlgProperties : Obligations.XgcdAlgProperties := by
  intro a b
  obtain ⟨hg, hbezout, hu, hv⟩ := xgcdAlg_spec a b
  refine ⟨?_, hg, hbezout, hu, hv, xgcdAlg_zero a, fun hb => xgcdAlg_of_dvd hb (dvd_zero b),
    fun ha => xgcdAlg_of_dvd ha dvd_rfl, fun _ hlt => ?_, fun fuel hf => ?_⟩
  · rintro hb x rfl
    exact xgcdAlg_of_pos a hb
  · rw [xgcdAlg_of_lt hlt]
    exact ⟨rfl, rfl, rfl⟩
  · exact xgcdLoop_fuel _ _ _ _ _ _ _ _ _ hf (Nat.lt_succ_self b)

/-! ## XGCD_ALG of operands -/

/-- The identity of R131 over the integers of the operands. -/
theorem xgcdAlg_bezout_toNat {a b : Int} (ha : 0 ≤ a) (hb : 0 ≤ b) :
    (xgcdAlg a.toNat b.toNat).u * a + (xgcdAlg a.toNat b.toNat).v * b = (xgcdAlg a.toNat b.toNat).g := by
  lift a to ℕ using ha
  lift b to ℕ using hb
  exact (xgcdAlg_spec a b).2.1

/-- The gcd fits where the larger operand does, 0 included. -/
theorem xgcdAlg_g_le (a b : Nat) : (xgcdAlg a b).g ≤ max a b := by
  rw [(xgcdAlg_spec a b).1]
  rcases Nat.eq_zero_or_pos a with rfl | ha
  · simp
  · exact (Nat.gcd_le_left b ha).trans (le_max_left a b)

theorem State.Inv.src_toNat_lt (h : s.Inv) (r : Reg) : (s.src r).toNat < 2 ^ s.width := by
  have hfits := h.reg_lt s r
  rw [← h.src_eq] at hfits
  omega

/-- What XGCD writes fits a register, as the operands do (R21, R133 item 2). -/
theorem State.Inv.xgcdAlg_fits (h : s.Inv) {ra rb : Reg} {x : Bezout}
    (hx : x = xgcdAlg (s.src ra).toNat (s.src rb).toNat) :
    x.g < 2 ^ s.width ∧ x.u.natAbs < 2 ^ s.width ∧ x.v.natAbs < 2 ^ s.width := by
  subst hx
  obtain ⟨-, -, hu, hv⟩ := xgcdAlg_spec (s.src ra).toNat (s.src rb).toNat
  have hg := xgcdAlg_g_le (s.src ra).toNat (s.src rb).toNat
  have ha := h.src_toNat_lt ra
  have hb := h.src_toNat_lt rb
  have hone : 1 < 2 ^ s.width := Nat.one_lt_two_pow (by have := h.width; rw [State.width]; omega)
  have hmax : max (max (s.src ra).toNat (s.src rb).toNat) 1 < 2 ^ s.width := max_lt (max_lt ha hb) hone
  exact ⟨hg.trans_lt (max_lt ha hb), hu.trans_lt hmax, hv.trans_lt hmax⟩

/-- ITER holds the step count exactly: it is at most twice the width (R34). -/
theorem State.Inv.iter_xgcdAlg (h : s.Inv) (a : Nat) (r : Reg) :
    (BitVec.ofNat 32 (xgcdAlg a (s.src r).toNat).steps).toNat = (xgcdAlg a (s.src r).toNat).steps := by
  have hsteps := xgcdAlg_steps_le a _ _ (h.src_toNat_lt r)
  obtain ⟨-, hwidth⟩ := h.width
  rw [State.width] at hsteps
  exact Nat.mod_eq_of_lt (by omega)

/-! ## XGCD -/

/-- XGCD with no error completes with the answer of `XGCD_ALG` (R132). -/
theorem exec_xgcd_of_legal {rd rd2 rd3 ra rb : Reg} (hd : [rd, rd2, rd3].Nodup) (ha : 0 ≤ s.src ra)
    (hb : 0 ≤ s.src rb) {x : Bezout} (hx : x = xgcdAlg (s.src ra).toNat (s.src rb).toNat) :
    exec (.xgcd rd rd2 rd3 ra rb) s =
      .next (s.complete [(rd, x.g), (rd2, x.u), (rd3, x.v)] false 0#32 (BitVec.ofNat 32 x.steps)) := by
  subst hx
  have hdistinct := distinct_of_wellFormed_xgcd (ra := ra) (rb := rb) (decide_eq_true hd)
  rw [exec, execXgcd, if_neg hdistinct, if_neg (by omega)]

/-- Settles O12: the answer of `XGCD_ALG` fits the destinations, and its step count ITER. -/
theorem xgcdWritesGcdAndBezoutPair : Obligations.XgcdWritesGcdAndBezoutPair := by
  intro s rd rd2 rd3 ra rb x hs hd ha hb hx
  refine ⟨_, exec_xgcd_of_legal hd ha hb hx, s.complete_completed _ _ _ _ hd ?_, ?_, ?_, ?_, s.complete_noDraws ..⟩
  · simpa using hs.xgcdAlg_fits hx
  · rw [hx]
    exact hs.iter_xgcdAlg _ rb
  · rw [hx, xgcdAlg_g_toNat ha hb]
  · rw [hx, xgcdAlg_bezout_toNat ha hb]

/-! ## MODINV and MODRED -/

/-- A completion that writes a remainder by an operand holds it exactly (R22). -/
theorem State.Inv.complete_emod (h : s.Inv) {r : Reg} (hm : 0 < s.src r) (rd : Reg) (v : Int) (n : Word) :
    Completed s (s.complete [(rd, v % s.src r)] false 0#32 n) [(rd, v % s.src r)] false 0#32 n :=
  s.complete_completed _ _ _ _ (by simp) (by simpa using h.emod_src_fits hm v)

theorem State.Inv.reg_complete_emod (h : s.Inv) {r : Reg} (hm : 0 < s.src r) (rd : Reg) (v : Int) (n : Word) :
    (s.complete [(rd, v % s.src r)] false 0#32 n).reg rd = v % s.src r :=
  (h.complete_emod hm rd v n).written _ (List.mem_singleton_self _)

/-- MODINV of an operand that has an inverse completes with the first coefficient of `XGCD_ALG`, reduced (R136). -/
theorem exec_modinv_of_coprime {ra rm : Reg} (ha : 0 ≤ s.src ra) (hm : 0 < s.src rm)
    (hg : Int.gcd (s.src ra) (s.src rm) = 1) (rd : Reg) {x : Bezout}
    (hx : x = xgcdAlg (s.src ra).toNat (s.src rm).toNat) :
    exec (.modinv rd ra rm) s = .next (s.complete [(rd, x.u % s.src rm)] false 0#32 (BitVec.ofNat 32 x.steps)) := by
  subst hx
  rw [← xgcdAlg_g_toNat ha hm.le] at hg
  rw [exec, execModinv, if_neg (by omega), if_neg hm.ne', if_neg (not_not_intro hg)]

/-- MODRED by a positive modulus completes with the remainder (R146). -/
theorem exec_modred_of_pos {rm : Reg} (hm : 0 < s.src rm) (rd ra : Reg) :
    exec (.modred rd ra rm) s = .next (s.complete [(rd, s.src ra % s.src rm)] false 0#32 0#32) := by
  rw [exec, execModred, if_neg hm.not_gt, if_neg hm.ne']

/-- A first Bézout coefficient of gcd 1 is an inverse modulo the second operand (R136). -/
theorem mul_emod_modEq_one {a m u v : Int} (h : u * a + v * m = 1) : a * (u % m) ≡ 1 [ZMOD m] :=
  calc a * (u % m) ≡ a * u [ZMOD m] := (Int.mod_modEq u m).mul_left a
    _ ≡ 1 [ZMOD m] := Int.modEq_iff_dvd.mpr ⟨v, by linear_combination -h⟩

/-- Settles O14: the first coefficient of `XGCD_ALG` is an inverse, and so is its remainder by the modulus. -/
theorem modinvWritesTheInverse : Obligations.ModinvWritesTheInverse := by
  intro s rd ra rm hs ha hm hg
  have hbezout := xgcdAlg_bezout_toNat ha hm.le
  rw [xgcdAlg_g_toNat ha hm.le, hg, Nat.cast_one] at hbezout
  exact ⟨_, _, exec_modinv_of_coprime ha hm hg rd rfl, hs.complete_emod hm rd _ _, Int.emod_nonneg _ hm.ne',
    Int.emod_lt_of_pos _ hm, mul_emod_modEq_one hbezout, hs.iter_xgcdAlg _ rm, s.complete_noDraws ..⟩

/-- A command keeps the invariant (R232, R233). -/
theorem exec_keeps_inv {i : Instr} {t : State} (h : s.Inv) (ht : exec i s = .next t) : t.Inv := by
  obtain ⟨u, hu, houtcomes⟩ := exec_cases i s
  obtain rfl : u = t := by simpa [hu] using ht
  exact houtcomes.inv h

/-- Settles O15: both ways reduce the one first coefficient by the one modulus, which XGCD leaves in its register. -/
theorem modinvAgreesWithXgcdThenModred : Obligations.ModinvAgreesWithXgcdThenModred := by
  intro s rd rg ru rv ra rm hs hidle hd hrm ha hm
  rw [← s.src_of_idle hidle] at ha hm
  obtain ⟨x, hx⟩ : ∃ x, x = xgcdAlg (s.src ra).toNat (s.src rm).toNat := ⟨_, rfl⟩
  obtain ⟨t1, ht1, hxgcd, -, hg, -⟩ := xgcdWritesGcdAndBezoutPair s rg ru rv ra rm x hs hd ha hm.le hx
  have hreg_g : t1.reg rg = x.g := hxgcd.written (rg, (x.g : Int)) (by simp)
  have hsrc_u : t1.src ru = x.u := (t1.src_of_idle hxgcd.idle ru).trans (hxgcd.written (ru, x.u) (by simp))
  have hsrc_m : t1.src rm = s.src rm := by
    rw [t1.src_of_idle hxgcd.idle, s.src_of_idle hidle, State.reg, State.reg, hxgcd.others rm hrm]
  rw [hg] at hreg_g
  by_cases hone : Int.gcd (s.src ra) (s.src rm) = 1
  · refine ⟨t1, _, ht1, exec_modinv_of_coprime ha hm hone rd hx, fun _ => ?_,
      fun hne => absurd (by simp [hreg_g, hone]) hne⟩
    have hm1 : 0 < t1.src rm := hsrc_m ▸ hm
    refine ⟨_, exec_modred_of_pos hm1 rd ru, rfl, rfl, ?_⟩
    rw [(exec_keeps_inv hs ht1).reg_complete_emod hm1, hs.reg_complete_emod hm, hsrc_u, hsrc_m]
  · exact ⟨t1, _, ht1, exec_modinv_of_no_inverse ha hm.le (.inr hone) rd,
      fun h => absurd (by exact_mod_cast hreg_g ▸ h) hone, fun _ => s.raise_failed _⟩

end Sys2Proof.Machine

/-! MODRED, the signed reduction (R146), and Montgomery arithmetic: what MONTMUL (R150) and MONTIN (R153) write, and the
plain modular product as the one after the other (R154). -/

namespace Sys2Proof.Machine

variable {s : State}

/-! ## MODRED -/

/-- A value that is not negative is written with sign bit 0 (R21, R22). -/
theorem State.complete_sign_of_nonneg (s : State) {v : Int} (hv : 0 ≤ v) (rd : Reg) (f : Bool) (w n : Word) :
    ((s.complete [(rd, v)] f w n).wide[rd]).sign = false := by
  rw [State.complete_wide, s.writeRegs_get _ (by simp) _ (List.mem_singleton_self _), Wide.ofInt_sign]
  exact decide_eq_false hv.not_gt

/-- Settles O16: a remainder by the modulus is in its range, so it is written exactly and with sign bit 0. -/
theorem modredWritesTheResidue : Obligations.ModredWritesTheResidue := by
  intro s rd ra rm hs hm
  have hnonneg := Int.emod_nonneg (s.src ra) hm.ne'
  have hreg := hs.reg_complete_emod hm rd (s.src ra) 0#32
  exact ⟨_, exec_modred_of_pos hm rd ra, hs.complete_emod hm rd _ _, hnonneg.trans_eq hreg.symm,
    hreg.trans_lt (Int.emod_lt_of_pos _ hm), s.complete_sign_of_nonneg hnonneg .., s.complete_noDraws ..⟩

/-! ## The radix and its inverse -/

/-- `Rinv` inverts the radix modulo an odd operand (R148). -/
theorem radix_mul_montRinv_toNat (width : Nat) {n : Int} (hn : 0 < n) (hodd : n % 2 = 1) :
    2 ^ width * (montRinv width n.toNat : Int) ≡ 1 [ZMOD n] := by
  lift n to ℕ using hn.le
  exact_mod_cast Int.natCast_modEq_iff.mpr (mul_montRinv width n (by omega))

/-- The Montgomery product of operands in range as an integer remainder (R148). -/
theorem montMul_toNat (width : Nat) {x y n : Int} (hx : 0 ≤ x) (hy : 0 ≤ y) (hn : 0 ≤ n) :
    (montMul width x.toNat y.toNat n.toNat : Int) = x * y * montRinv width n.toNat % n := by
  rw [montMul, Int.natCast_emod, Int.natCast_mul, Int.natCast_mul, Int.toNat_of_nonneg hx, Int.toNat_of_nonneg hy,
    Int.toNat_of_nonneg hn]

/-- A factor of the radix and its inverse cancel (R148). -/
theorem mul_montRinv_mul_radix_modEq (width : Nat) {n : Int} (hn : 0 < n) (hodd : n % 2 = 1) (z : Int) :
    z * montRinv width n.toNat * 2 ^ width ≡ z [ZMOD n] :=
  calc z * montRinv width n.toNat * 2 ^ width = z * (2 ^ width * montRinv width n.toNat) := by ring
    _ ≡ z * 1 [ZMOD n] := (radix_mul_montRinv_toNat width hn hodd).mul_left z
    _ = z := mul_one z

/-! ## MONTMUL and MONTIN -/

/-- MONTMUL with no operand error completes with the Montgomery product (R150, R235). -/
theorem exec_montmul_of_legal {ra rb rm : Reg} (ha : 0 ≤ s.src ra) (hb : 0 ≤ s.src rb) (hm : 0 < s.src rm)
    (hodd : s.src rm % 2 = 1) (rd : Reg) : exec (.montmul rd ra rb rm) s =
      .next (s.complete [(rd, s.src ra * s.src rb * montRinv s.width (s.src rm).toNat % s.src rm)] false 0#32 0#32) := by
  rw [exec, execMontmul, if_neg (by omega), if_neg hm.ne', if_neg (by omega), montMul_toNat _ ha hb hm.le]

/-- MONTIN with no operand error completes with the Montgomery form (R153, R235). -/
theorem exec_montin_of_legal {ra rm : Reg} (ha : 0 ≤ s.src ra) (hm : 0 < s.src rm) (hodd : s.src rm % 2 = 1) (rd : Reg) :
    exec (.montin rd ra rm) s = .next (s.complete [(rd, s.src ra * 2 ^ s.width % s.src rm)] false 0#32 0#32) := by
  rw [exec, execMontin, if_neg (by omega), if_neg hm.ne', if_neg (by omega)]

/-- Settles O17: times the radix, the inverse in the Montgomery product cancels. -/
theorem montmulWritesTheMontgomeryProduct : Obligations.MontmulWritesTheMontgomeryProduct := by
  intro s rd ra rb rm hs ha hb hm hodd
  exact ⟨_, _, exec_montmul_of_legal ha hb hm hodd rd, hs.complete_emod hm rd _ _, Int.emod_nonneg _ hm.ne',
    Int.emod_lt_of_pos _ hm,
    ((Int.mod_modEq _ _).mul_right _).trans (mul_montRinv_mul_radix_modEq s.width hm hodd _), s.complete_noDraws ..⟩

/-- Settles O18: the Montgomery form is a remainder by the modulus, so it fits the destination. -/
theorem montinWritesTheMontgomeryForm : Obligations.MontinWritesTheMontgomeryForm := by
  intro s rd ra rm hs ha hm hodd
  exact ⟨_, exec_montin_of_legal ha hm hodd rd, hs.complete_emod hm rd _ _, s.complete_noDraws ..⟩

/-! ## There and back -/

/-- The Montgomery product of a Montgomery form and a plain operand is the plain product (R148, identity 3). -/
theorem montgomeryForm_mul_montRinv_modEq (width : Nat) {n : Int} (hn : 0 < n) (hodd : n % 2 = 1) (a b : Int) :
    a * 2 ^ width % n * b * montRinv width n.toNat ≡ a * b [ZMOD n] :=
  calc a * 2 ^ width % n * b * montRinv width n.toNat
    _ ≡ a * 2 ^ width * b * montRinv width n.toNat [ZMOD n] := ((Int.mod_modEq _ n).mul_right b).mul_right _
    _ = a * b * montRinv width n.toNat * 2 ^ width := by ring
    _ ≡ a * b [ZMOD n] := mul_montRinv_mul_radix_modEq width hn hodd _

/-- MONTMUL of a Montgomery form and a plain operand completes with the plain product (R154). -/
theorem exec_montmul_of_montgomeryForm {ra rb rm : Reg} {a : Int} (ha : s.src ra = a * 2 ^ s.width % s.src rm)
    (hb : 0 ≤ s.src rb) (hm : 0 < s.src rm) (hodd : s.src rm % 2 = 1) (rd : Reg) :
    exec (.montmul rd ra rb rm) s = .next (s.complete [(rd, a * s.src rb % s.src rm)] false 0#32 0#32) := by
  rw [exec_montmul_of_legal (ha ▸ Int.emod_nonneg _ hm.ne') hb hm hodd, ha,
    montgomeryForm_mul_montRinv_modEq s.width hm hodd]

/-- Settles O19: MONTIN leaves the second operand and the modulus, so MONTMUL finds them beside the Montgomery form. -/
theorem montgomeryRoundTrip : Obligations.MontgomeryRoundTrip := by
  intro s rd rt ra rb rm hs hidle hrb hrm ha hb hm hodd
  simp only [← s.src_of_idle hidle] at ha hb hm hodd ⊢
  obtain ⟨t1, ht1, hmontin, -⟩ := montinWritesTheMontgomeryForm s rt ra rm hs ha hm hodd
  have hwidth : t1.width = s.width := congrArg (32 * ·) hmontin.settings.nword
  have hsrc_other (r : Reg) (hr : rt ≠ r) : t1.src r = s.src r := by
    rw [t1.src_of_idle hmontin.idle, s.src_of_idle hidle, State.reg, State.reg, hmontin.others r (by simpa using hr.symm)]
  have hsrc_t : t1.src rt = s.src ra * 2 ^ s.width % s.src rm :=
    (t1.src_of_idle hmontin.idle rt).trans (hmontin.written _ (List.mem_singleton_self _))
  have hsrc_b := hsrc_other rb hrb
  have hsrc_m := hsrc_other rm hrm
  rw [← hsrc_b] at hb ⊢
  rw [← hsrc_m] at hm hodd hsrc_t ⊢
  rw [← hwidth] at hsrc_t
  have hreg := (exec_keeps_inv hs ht1).reg_complete_emod hm rd (s.src ra * t1.src rb) 0#32
  exact ⟨t1, _, ht1, exec_montmul_of_montgomeryForm hsrc_t hb hm hodd rd, rfl, hreg,
    fun hone => by rw [hreg, hone, mul_one]⟩

end Sys2Proof.Machine

/-! ISQRT (R172): the root of a perfect square fits the destination, and of a non-square nothing is written. -/

namespace Sys2Proof.Machine

variable {s : State}

/-- ISQRT of an operand in range completes with the answer of `ISQRT_ALG`: the root, or nothing (R172). -/
theorem exec_isqrt_of_nonneg {ra : Reg} (ha : 0 ≤ s.src ra) (rd : Reg) {root : Option Nat}
    (hroot : isqrtAlg (s.src ra).toNat = root) : exec (.isqrt rd ra) s =
      .next (s.complete (root.toList.map fun r => (rd, (r : Int))) root.isSome 0#32 0#32) := by
  subst hroot
  rw [exec, execIsqrt, if_neg ha.not_gt]
  cases isqrtAlg (s.src ra).toNat <;> rfl

/-- A root of an operand fits a register, as the operand does (R21). -/
theorem State.Inv.root_lt (h : s.Inv) {ra : Reg} {r : Nat} (hr : (s.src ra).toNat = r * r) : r < 2 ^ s.width :=
  calc r ≤ r * r := Nat.le_mul_self r
    _ = (s.src ra).toNat := hr.symm
    _ < 2 ^ s.width := h.src_toNat_lt ra

/-- Settles O21: `ISQRT_ALG` finds a root exactly when there is one, and the root fits the destination. -/
theorem isqrtOfSquaresAndNonSquares : Obligations.IsqrtOfSquaresAndNonSquares := by
  intro s rd ra hs ha
  refine ⟨fun r hr => ?_, fun hnot => ?_⟩
  · have hsquare : (s.src ra).toNat = r * r := by rw [hr]; exact Int.toNat_natCast (r * r)
    exact ⟨_, exec_isqrt_of_nonneg ha rd ((isqrtAlg_eq_some _ r).mpr hsquare.symm),
      s.complete_completed _ _ _ _ (by simp) (by simpa using hs.root_lt hsquare), s.complete_noDraws ..⟩
  · have hnone : isqrtAlg (s.src ra).toNat = none := (isqrtAlg_eq_none _).mpr fun r hr => hnot r <| by
      rw [← Int.toNat_of_nonneg ha, ← hr, Nat.cast_mul]
    exact ⟨_, exec_isqrt_of_nonneg ha rd hnone, s.complete_completed _ _ _ _ (by simp) (by simp),
      s.complete_noDraws ..⟩

end Sys2Proof.Machine

/-! MODSQRT (R182): its steps as equations, the root it writes first, and how it ends modulo a prime and modulo any odd
number from 3 on. -/

namespace Sys2Proof.Machine

/-! ## The steps of MODSQRT -/

section Steps

variable {a p : Nat}

/-- Step 3 asks for the symbol of the operand itself (R13, R182). -/
theorem jacobi_mod_self (ho : p % 2 = 1) : jacobi (a % p) p = jacobiSym a p := by
  rw [jacobi_eq _ _ ho, Int.natCast_mod, ← jacobiSym.mod_left]

theorem modSqrt_of_one (h1 : a % p = 1) : modSqrt a p = .roots 1 (p - 1) := by rw [modSqrt, if_pos h1]

theorem modSqrt_of_symbol_neg_one (ho : p % 2 = 1) (h1 : a % p ≠ 1) (hj : jacobiSym a p = -1) :
    modSqrt a p = .nonResidue := by
  rw [modSqrt, if_neg h1, jacobi_mod_self ho, if_pos hj]

/-- Steps 2 and 4 agree where both apply: the integer root of 1 is 1 (R182). -/
theorem modSqrt_of_perfect_square (ho : p % 2 = 1) (hj : jacobiSym a p ≠ -1) {r : Nat} (hr : r * r = a % p) :
    modSqrt a p = .roots r ((p - r) % p) := by
  by_cases h1 : a % p = 1
  · obtain rfl : r = 1 := Nat.eq_one_of_mul_eq_one_left (hr.trans h1)
    rw [modSqrt_of_one h1, Nat.mod_eq_of_lt (by omega)]
  · rw [modSqrt, if_neg h1, jacobi_mod_self ho, if_neg hj, (isqrtAlg_eq_some _ r).mpr hr]

theorem modSqrt_of_not_perfect_square (ho : p % 2 = 1) (hj : jacobiSym a p ≠ -1) (hr : ∀ r, r * r ≠ a % p) :
    modSqrt a p = tonelli (a % p) p := by
  rw [modSqrt, if_neg (hr 1).symm, jacobi_mod_self ho, if_neg hj, (isqrtAlg_eq_none _).mpr hr]

/-- Roots of step 5 are those of the rule: where it has none, the step ends with MATH_ERROR (R182, R188). -/
theorem StepFiveRoot.of_tonelli (ho : p % 2 = 1) (h3 : 3 ≤ p) {r r2 : Nat} (h : tonelli a p = .roots r r2) :
    StepFiveRoot a p r := by
  obtain ⟨hroot, herror⟩ := tonelli_follows ho h3 a
  by_cases hcause : (∀ c : Nat, 2 ≤ c → c < p → jacobiSym c p ≠ -1) ∨ Nat.gcd a p ≠ 1
  · simp [herror hcause] at h
  · push Not at hcause
    obtain ⟨r', hr', hstep⟩ := hroot hcause.1 hcause.2
    obtain ⟨rfl, -⟩ : r' = r ∧ (p - r') % p = r2 := by simpa [hr'] using h
    exact hstep

theorem StepFiveRoot.lt (hp : 0 < p) {r : Nat} (h : StepFiveRoot a p r) : r < p := by
  obtain ⟨-, -, -, -, -, -, -, -, -, -, rfl⟩ := h
  exact Nat.mod_lt _ hp

/-- Modulo a perfect square no symbol is -1 (R187). -/
theorem jacobiSym_mul_self_ne_neg_one (c : Int) {k : Nat} (hk : k ≠ 0) : jacobiSym c (k * k) ≠ -1 := by
  have : NeZero k := ⟨hk⟩
  rw [jacobiSym.mul_right]
  exact fun h => by linarith [mul_self_nonneg (jacobiSym c k)]

/-- The second root is the first with the other sign (R182). -/
theorem cast_second_root {r : Nat} (hr : r ≤ p) : (((p - r) % p : Nat) : ZMod p) = -r := by
  rw [ZMod.natCast_mod, Nat.cast_sub hr, ZMod.natCast_self, zero_sub]

theorem modEq_of_cast_sq {r : Nat} (h : (r : ZMod p) ^ 2 = a) : r * r ≡ a [MOD p] := by
  rw [← ZMod.natCast_eq_natCast_iff, Nat.cast_mul, ← sq, h]

end Steps

/-! ## Modulo a prime -/

section Prime

variable {a p : Nat} [hp : Fact p.Prime]

theorem isSquare_natCast_iff : IsSquare (a : ZMod p) ↔ ∃ x : Nat, x * x ≡ a [MOD p] := by
  constructor
  · rintro ⟨y, hy⟩
    refine ⟨y.val, (ZMod.natCast_eq_natCast_iff _ _ _).mp ?_⟩
    rw [Nat.cast_mul, ZMod.natCast_zmod_val, hy]
  · rintro ⟨x, hx⟩
    refine ⟨x, ?_⟩
    rw [← Nat.cast_mul, (ZMod.natCast_eq_natCast_iff _ _ _).mpr hx]

/-- A number is no square modulo an odd prime exactly where its symbol is -1 (R13). -/
theorem jacobiSym_eq_neg_one_iff (h2 : p ≠ 2) : jacobiSym a p = -1 ↔ ¬IsSquare (a : ZMod p) := by
  rw [← jacobi_eq a p (hp.out.eq_two_or_odd.resolve_left h2), jacobi_eq_neg_one_iff h2]

/-- Which root MODSQRT writes first, where there is one (R182, R183). -/
theorem modSqrt_first_root (h2 : p ≠ 2) (hsq : IsSquare (a : ZMod p)) {r1 r2 : Nat} (h : modSqrt a p = .roots r1 r2) :
    (∀ r, r * r = a % p → r1 = r) ∧
    ((∀ r, r * r ≠ a % p) → StepFiveRoot (a % p) p r1 ∧ (p % 4 = 3 → r1 = a ^ ((p + 1) / 4) % p)) := by
  have ho : p % 2 = 1 := hp.out.eq_two_or_odd.resolve_left h2
  have hj : jacobiSym a p ≠ -1 := fun hj => (jacobiSym_eq_neg_one_iff h2).mp hj hsq
  refine ⟨fun r hr => ?_, fun hr => ?_⟩
  · rw [modSqrt_of_perfect_square ho hj hr, SqrtEnding.roots.injEq] at h
    exact h.1.symm
  · rw [modSqrt_of_not_perfect_square ho hj hr] at h
    have hstep := StepFiveRoot.of_tonelli ho (by have := hp.out.two_le; omega) h
    refine ⟨hstep, fun h34 => ?_⟩
    have hcast : ((a % p : Nat) : ZMod p) = a := ZMod.natCast_mod a p
    have hne : ((a % p : Nat) : ZMod p) ≠ 0 := fun h0 => hr 0 <| by
      rw [hcast, ZMod.natCast_eq_zero_iff] at h0
      exact (Nat.mod_eq_zero_of_dvd h0).symm
    rw [hstep.of_three_mod_four h34 hne (hcast.symm ▸ hsq), ← Nat.pow_mod]

/-- Modulo an odd prime MODSQRT has no MATH_ERROR to end with (R182). -/
theorem modSqrt_ne_mathError (h2 : p ≠ 2) : modSqrt a p ≠ .mathError := by
  obtain ⟨hroots, hnone⟩ := modSqrt_spec h2 a
  by_cases hsq : IsSquare (a : ZMod p)
  · obtain ⟨r, -, hr, -⟩ := hroots hsq
    simp [hr]
  · simp [hnone hsq]

end Prime

/-! ## The endings of MODSQRT -/

/-- The state after MODSQRT with these destinations has come to an ending of R182. -/
def State.endSqrt (s : State) (rd rd2 : Reg) : SqrtEnding → State
  | .nonResidue => s.complete [] false 0#32 0#32
  | .mathError => s.raise .mathError
  | .roots r1 r2 => s.complete [(rd, (r1 : Int)), (rd2, (r2 : Int))] true 0#32 0#32

/-- MODSQRT with no operand error ends as the steps of R182 do. -/
theorem exec_modsqrt_of_legal {s : State} {rd rd2 ra rm : Reg} (hd : rd ≠ rd2) (ha : 0 ≤ s.src ra) (hm : 1 < s.src rm)
    (hodd : s.src rm % 2 = 1) : exec (.modsqrt rd rd2 ra rm) s =
      .next (s.endSqrt rd rd2 (modSqrt (s.src ra).toNat (s.src rm).toNat)) := by
  rw [exec, execModsqrt, if_neg hd, if_neg (by omega), if_neg (by omega), if_neg (by omega), if_neg (by omega)]
  cases modSqrt (s.src ra).toNat (s.src rm).toNat <;> rfl

section Endings

variable {s : State} {rd rd2 ra rm : Reg} {a p : Nat} (hs : s.Inv) (hd : rd ≠ rd2) (ha : s.src ra = a)
  (hm : s.src rm = p) (ho : p % 2 = 1) (h3 : 3 ≤ p)

include hd ha hm ho h3

theorem exec_modsqrt_eq {e : SqrtEnding} (h : modSqrt a p = e) :
    exec (.modsqrt rd rd2 ra rm) s = .next (s.endSqrt rd rd2 e) := by
  rw [exec_modsqrt_of_legal hd (by omega) (by omega) (by omega), ha, hm, Int.toNat_natCast, Int.toNat_natCast, h]

theorem modsqrt_finds_nothing (h : modSqrt a p = .nonResidue) :
    ∃ t, exec (.modsqrt rd rd2 ra rm) s = .next t ∧ Completed s t [] false 0#32 0#32 ∧ NoDraws s t :=
  ⟨_, exec_modsqrt_eq hd ha hm ho h3 h, s.complete_completed _ _ _ _ (by simp) (by simp), s.complete_noDraws ..⟩

theorem modsqrt_fails (h : modSqrt a p = .mathError) :
    ∃ t, exec (.modsqrt rd rd2 ra rm) s = .next t ∧ Failed s t .mathError :=
  ⟨_, exec_modsqrt_eq hd ha hm ho h3 h, s.raise_failed _⟩

include hs

/-- Roots below the modulus fit the destinations, as the modulus fits its register (R21, R182). -/
theorem modsqrt_writes_roots {r1 r2 : Nat} (h : modSqrt a p = .roots r1 r2) (h1 : r1 < p) (h2 : r2 < p) :
    ∃ t, exec (.modsqrt rd rd2 ra rm) s = .next t ∧
      Completed s t [(rd, (r1 : Int)), (rd2, (r2 : Int))] true 0#32 0#32 ∧ NoDraws s t := by
  have hfits : p < 2 ^ s.width := by simpa [hm] using hs.src_toNat_lt rm
  exact ⟨_, exec_modsqrt_eq hd ha hm ho h3 h,
    s.complete_completed _ _ _ _ (by simpa using hd) (by simpa using ⟨h1.trans hfits, h2.trans hfits⟩),
    s.complete_noDraws ..⟩

/-- A root and the one of the other sign, this as an integer remainder (R182). -/
theorem modsqrt_writes_root_and_opposite {r : Nat} (h : modSqrt a p = .roots r ((p - r) % p)) (hr : r < p) :
    ∃ t, exec (.modsqrt rd rd2 ra rm) s = .next t ∧
      Completed s t [(rd, (r : Int)), (rd2, ((p : Int) - r) % p)] true 0#32 0#32 ∧ NoDraws s t := by
  rw [← Nat.cast_sub hr.le, ← Int.natCast_mod]
  exact modsqrt_writes_roots hs hd ha hm ho h3 h hr (Nat.mod_lt _ (by omega))

end Endings

/-! ## The statements about MODSQRT -/

/-- Settles O22: the roots of `modSqrt_spec` are below the modulus, and the step that found them says which is first. -/
theorem modsqrtFindsRootsModuloAPrime : Obligations.ModsqrtFindsRootsModuloAPrime := by
  intro s rd rd2 ra rm a p hs hd ha hm hp h2
  have : Fact p.Prime := ⟨hp⟩
  have ho : p % 2 = 1 := hp.eq_two_or_odd.resolve_left h2
  have h3 : 3 ≤ p := by have := hp.two_le; omega
  obtain ⟨hroots, hnone⟩ := modSqrt_spec h2 a
  rw [← isSquare_natCast_iff]
  refine ⟨fun hsq => ?_, fun hnsq => modsqrt_finds_nothing hd ha hm ho h3 (hnone hnsq)⟩
  obtain ⟨r, hr, hsqrt, hrr⟩ := hroots hsq
  obtain ⟨t, ht, hcompleted, hdraws⟩ := modsqrt_writes_roots hs hd ha hm ho h3 hsqrt hr (Nat.mod_lt _ hp.pos)
  have hopposite : (((p - r) % p : Nat) : ZMod p) ^ 2 = a := by rw [cast_second_root hr.le, neg_sq, hrr]
  exact ⟨t, r, _, ht, hcompleted, hdraws, hr, rfl, modEq_of_cast_sq hrr, modEq_of_cast_sq hopposite,
    modSqrt_first_root h2 hsq hsqrt⟩

/-- Settles O23: each step has its equation, and step 5 is `tonelli_follows`; modulo a perfect square it is reached
without a non-residue. -/
theorem modsqrtFollowsItsSteps : Obligations.ModsqrtFollowsItsSteps := by
  intro s rd rd2 ra rm a p hs hd ha hm ho h3
  have hstep5 : (∀ r : Nat, r * r ≠ a % p) → jacobiSym a p ≠ -1 →
      (∀ c : Nat, 2 ≤ c → c < p → jacobiSym c p ≠ -1) ∨ Nat.gcd (a % p) p ≠ 1 →
      ∃ t, exec (.modsqrt rd rd2 ra rm) s = .next t ∧ Failed s t .mathError := fun hr hj hcause =>
    modsqrt_fails hd ha hm ho h3 ((modSqrt_of_not_perfect_square ho hj hr).trans ((tonelli_follows ho h3 _).2 hcause))
  refine ⟨fun h1 => ?_, fun h1 hj => ?_, fun r _ hj hr => ?_, fun hj hr => ⟨fun hc hg => ?_, hstep5 hr hj⟩,
    fun k hk hr => ?_⟩
  · have := modsqrt_writes_roots hs hd ha hm ho h3 (modSqrt_of_one h1) (by omega) (by omega)
    rwa [Nat.cast_sub (by omega), Nat.cast_one] at this
  · exact modsqrt_finds_nothing hd ha hm ho h3 (modSqrt_of_symbol_neg_one ho h1 hj)
  · have hlt : r < p := by have := Nat.mod_lt a (show 0 < p by omega); nlinarith
    exact modsqrt_writes_root_and_opposite hs hd ha hm ho h3 (modSqrt_of_perfect_square ho hj hr) hlt
  · obtain ⟨r, htonelli, hstep⟩ := (tonelli_follows ho h3 _).1 hc hg
    obtain ⟨t, ht, hcompleted, hdraws⟩ := modsqrt_writes_root_and_opposite hs hd ha hm ho h3
      ((modSqrt_of_not_perfect_square ho hj hr).trans htonelli) (hstep.lt (by omega))
    exact ⟨t, r, ht, hstep, hcompleted, hdraws⟩
  · have hsymbol (c : Int) : jacobiSym c p ≠ -1 := by
      rw [hk]
      exact jacobiSym_mul_self_ne_neg_one c (by rintro rfl; omega)
    exact hstep5 hr (hsymbol a) (.inl fun c _ _ => hsymbol c)

end Sys2Proof.Machine

/-! The causes of the error codes (R235), command by command: the checks every command starts with, then what GENPRIME's
parameters and MODSQRT's steps add. -/

namespace Sys2Proof.Machine


/-- What the table of R235 requires of a command that ends with this code; the codes 1 to 3 and ABORTED are no ending of
a command's own (R230). -/
def ErrorCause (s : State) (i : Instr) : ErrorCode → Prop
  | .ok => True
  | .illegalCmd => i.wellFormed = false
  | .operandRange => (∃ r ∈ unsignedSources i, s.src r < 0) ∨ ∃ rd f, i = .genprime rd f ∧ badParameters s f
  | .mathError => failsMath s i ∨ ∃ rd rd2 ra rm, i = .modsqrt rd rd2 ra rm ∧ ¬(s.src rm).toNat.Prime
  | .smallKey | .incorrectAlgorithm | .messageNotFound | .aborted => False

/-- The command ends with a code that has its cause, or has not ended yet. -/
def EndsWithCause (i : Instr) (s : State) : Prop :=
  ∃ t, exec i s = .next t ∧ (t.busy = true ∨ ErrorCause s i t.ecode)

section Causes

variable {s : State}

theorem EndsWithCause.of_complete {i : Instr} {s' : State} {ws : List (Reg × Int)} {f : Bool} {w n : Word}
    (h : exec i s = .next (s'.complete ws f w n)) : EndsWithCause i s := ⟨_, h, .inr trivial⟩

theorem EndsWithCause.of_raise {i : Instr} {e : ErrorCode} (h : exec i s = .next (s.raise e)) (hc : ErrorCause s i e) :
    EndsWithCause i s := ⟨_, h, .inr hc⟩

/-- MATH_ERROR found while computing MODSQRT needs a modulus that is not prime (R182). -/
theorem modsqrt_endsWithCause {rd rd2 ra rm : Reg} (hd : rd ≠ rd2) (ha : 0 ≤ s.src ra) (hm : 1 < s.src rm)
    (hodd : s.src rm % 2 = 1) : EndsWithCause (.modsqrt rd rd2 ra rm) s := by
  have hexec := exec_modsqrt_of_legal hd ha hm hodd
  generalize hend : modSqrt (s.src ra).toNat (s.src rm).toNat = ending at hexec
  cases ending with
  | nonResidue => exact .of_complete hexec
  | roots r1 r2 => exact .of_complete hexec
  | mathError =>
    refine .of_raise (e := .mathError) hexec (.inr ⟨rd, rd2, ra, rm, rfl, fun hp => ?_⟩)
    have : Fact (s.src rm).toNat.Prime := ⟨hp⟩
    exact modSqrt_ne_mathError (by omega) hend

theorem isprime_endsWithCause {ra : Reg} (ha : 0 ≤ s.src ra) : EndsWithCause (.isprime ra) s := by
  rw [EndsWithCause, exec, execIsprime, if_neg ha.not_gt]
  cases millerRabin (s.src ra).toNat s.srcPersist s.rng with
  | none => exact ⟨_, rfl, .inl (s.hold_busy _)⟩
  | some x => exact ⟨_, rfl, .inr trivial⟩

/-- The two parameter checks of GENPRIME are those of R203 and R204. -/
theorem badParameters_iff (f : Bool) : badParameters s f ↔
    (s.srcBitlen < 2 ∨ s.width < s.srcBitlen) ∨ badFilter (s.filter f) = true := by
  cases f <;> simp [badParameters, State.filter, badFilter, or_assoc]

theorem genprime_endsWithCause (rd : Reg) (f : Bool) : EndsWithCause (.genprime rd f) s := by
  by_cases hbad : badParameters s f
  · refine .of_raise (e := .operandRange) ?_ (.inr ⟨rd, f, rfl, hbad⟩)
    rw [exec, execGenprime, ← ite_or, if_pos ((badParameters_iff f).mp hbad)]
  · rw [EndsWithCause, exec, execGenprime, ← ite_or, if_neg (hbad ∘ (badParameters_iff f).mpr)]
    cases samplePrime s.srcBitlen s.srcPersist (s.filter f) (s.rng.length + 1) 0 s.rng with
    | none => exact ⟨_, rfl, .inl (s.hold_busy _)⟩
    | some x => exact ⟨_, rfl, .inr trivial⟩

/-- Past the checks on the operands, only GENPRIME's parameters and MODSQRT's steps can still fail (R234, R235). -/
theorem legal_endsWithCause {i : Instr} (hwf : i.wellFormed = true) (hsrc : ∀ r ∈ unsignedSources i, 0 ≤ s.src r)
    (hmath : ¬failsMath s i) : EndsWithCause i s := by
  cases i <;> simp only [failsMath, unsignedSources, List.forall_mem_cons, List.not_mem_nil, false_imp_iff,
    implies_true, and_true, not_or, not_not] at hmath hsrc
  case nop => exact .of_complete rfl
  case powmod => exact .of_complete (exec_powmod_of_legal hsrc.1 hsrc.2.1 (by omega) _)
  case xgcd => exact .of_complete (exec_xgcd_of_legal (of_decide_eq_true hwf) hsrc.1 hsrc.2 rfl)
  case modinv => exact .of_complete (exec_modinv_of_coprime hsrc.1 (by omega) hmath.2 _ rfl)
  case modred => exact .of_complete (exec_modred_of_pos (by omega) _ _)
  case montmul => exact .of_complete (exec_montmul_of_legal hsrc.1 hsrc.2.1 (by omega) (by omega) _)
  case montin => exact .of_complete (exec_montin_of_legal hsrc.1 (by omega) (by omega) _)
  case jacobi => exact .of_complete (exec_jacobi_of_legal hsrc.1 hsrc.2 (by omega))
  case isqrt => exact .of_complete (exec_isqrt_of_nonneg hsrc _ rfl)
  case modsqrt => exact modsqrt_endsWithCause (distinct_of_wellFormed_modsqrt hwf) hsrc.1 (by omega) (by omega)
  case isprime => exact isprime_endsWithCause hsrc
  case genprime rd f => exact genprime_endsWithCause rd f

/-- Every check of R234, in its order, ends the command with the code of its cause. -/
theorem exec_endsWithCause (i : Instr) (s : State) : EndsWithCause i s := by
  by_cases hwf : i.wellFormed = true
  · by_cases hneg : ∃ r ∈ unsignedSources i, s.src r < 0
    · exact .of_raise (exec_of_negative_source hwf hneg) (.inl hneg)
    · have hsrc : ∀ r ∈ unsignedSources i, 0 ≤ s.src r := by push Not at hneg; exact hneg
      by_cases hmath : failsMath s i
      · exact .of_raise (exec_of_failsMath hwf hsrc hmath) (.inl hmath)
      · exact legal_endsWithCause hwf hsrc hmath
  · rw [Bool.not_eq_true] at hwf
    exact .of_raise (exec_of_not_wellFormed hwf s) hwf

end Causes

/-- Settles O33: the code a command ends with has its cause, each code its own. -/
theorem errorCausesAreComplete : Obligations.ErrorCausesAreComplete := by
  intro i s t ht hidle
  obtain ⟨u, hu, hend⟩ := exec_endsWithCause i s
  obtain rfl : u = t := by simpa [hu] using ht
  have hcause : ErrorCause s i u.ecode := hend.resolve_left (by simp [hidle])
  refine ⟨?_, fun h => by rwa [h] at hcause, fun h => by rwa [h] at hcause, fun h => by rwa [h] at hcause⟩
  cases h : u.ecode <;> simp [h, ErrorCause] at hcause ⊢

end Sys2Proof.Machine

/-! The prime commands (R197 to R206): what each ends with once the random words decide it, ISPRIME by the verdict of
the test on them, GENPRIME by the sample they yield, and the shape of a candidate. -/

namespace Sys2Proof.Machine

variable {s : State}

/-! ## Completions that draw -/

/-- A completion that takes random words is a completion like any other (R232). -/
theorem State.consumeTo_complete_completed (s : State) (rest : List Word) (ws : List (Reg × Int)) (f : Bool)
    (w n : Word) (hd : (ws.map Prod.fst).Nodup) (hb : ∀ p ∈ ws, p.2.natAbs < 2 ^ s.width) :
    Completed s ((s.consumeTo rest).complete ws f w n) ws f w n where
  __ := (s.consumeTo rest).complete_completed ws f w n hd hb
  settings := by constructor <;> simp

theorem State.consumeTo_complete_drew {rest : List Word} (h : rest <:+ s.rng) (ws : List (Reg × Int)) (f : Bool)
    (w n : Word) : Drew s ((s.consumeTo rest).complete ws f w n) rest where
  suffix := h
  rng := by simp
  drawn := by simp

/-! ## ISPRIME -/

/-- The numbers that the test decides without a base (R197 to R199). -/
theorem millerRabin_without_draws {n rounds : Nat} (h : n < 4 ∨ n % 2 = 0 ∨ rounds = 0) (ws : List Word) :
    millerRabin n rounds ws = some (decide (n = 2 ∨ (3 ≤ n ∧ n % 2 = 1)), ws) := by
  unfold millerRabin
  split_ifs with hlt hsmall heven
  · rw [decide_eq_false (by omega)]
  · rw [decide_eq_true (by omega)]
  · rw [decide_eq_false (by omega)]
  · obtain rfl : rounds = 0 := by omega
    rw [decide_eq_true (by omega), mrRounds]

/-- The test of an odd number from 5 on, where the words suffice for all rounds or hold a witness: it stops at the first
base that is no strong liar (R197). -/
theorem millerRabin_with_draws {n rounds : Nat} {ws : List Word} (h5 : 5 ≤ n) (hodd : n % 2 = 1)
    (hl : rounds * baseWords n ≤ ws.length ∨
      ∃ k, (k + 1) * baseWords n ≤ ws.length ∧ ¬StrongLiar n (roundBase n ws k)) :
    ∃ v run, millerRabin n rounds ws = some (v, ws.drop (run * baseWords n)) ∧ run ≤ rounds ∧
      run * baseWords n ≤ ws.length ∧ (∀ k, k + 1 < run → StrongLiar n (roundBase n ws k)) ∧
      (v = true → run = rounds ∧ ∀ k < rounds, StrongLiar n (roundBase n ws k)) ∧
      (v = false → 0 < run ∧ ¬StrongLiar n (roundBase n ws (run - 1))) := by
  have hmr : millerRabin n rounds ws =
      mrRounds n (splitTwos (n - 1) (n - 1)).1 (splitTwos (n - 1) (n - 1)).2 rounds ws := by
    rw [millerRabin, if_neg (by omega), if_neg (by omega), if_neg (by omega)]
  simp only [← basePasses_iff_strongLiar n _ h5 hodd, Bool.not_eq_true, hmr] at hl ⊢
  exact mrRounds_spec n _ _ rounds ws hl

/-- ISPRIME completes with the verdict of the test and leaves the words the test leaves (R198). -/
theorem exec_isprime_of_verdict {ra : Reg} {n : Nat} {v : Bool} {rest : List Word} (hsrc : s.src ra = n)
    (h : millerRabin n s.srcPersist s.rng = some (v, rest)) :
    ∃ t, exec (.isprime ra) s = .next t ∧ Completed s t [] v 0#32 0#32 ∧ Drew s t rest := by
  refine ⟨_, ?_, s.consumeTo_complete_completed rest [] v _ _ (by simp) (by simp),
    State.consumeTo_complete_drew (millerRabin_suffix _ _ _ _ _ h) ..⟩
  rw [exec, execIsprime, if_neg (by omega), hsrc, Int.toNat_natCast, h]

/-- Settles O26: the test decides these operands before its first draw. -/
theorem isprimeWithoutDraws : Obligations.IsprimeWithoutDraws := by
  intro s ra n hsrc h
  obtain ⟨t, ht, hcompleted, hdrew⟩ := exec_isprime_of_verdict hsrc (millerRabin_without_draws h s.rng)
  exact ⟨t, ht, hcompleted, hdrew.rng, by rw [hdrew.drawn, Nat.sub_self, Nat.add_zero]⟩

/-- Settles O25: a verdict of 1 needs every base, and one of 0 comes with the base that is no strong liar. -/
theorem isprimeVerdictIsThatOfTheDrawnBases : Obligations.IsprimeVerdictIsThatOfTheDrawnBases := by
  intro s ra n hsrc h5 hodd hl
  obtain ⟨v, run, hmr, hrun, hlen, hbefore, htrue, hfalse⟩ := millerRabin_with_draws h5 hodd hl
  obtain ⟨t, ht, hcompleted, hdrew⟩ := exec_isprime_of_verdict hsrc hmr
  obtain rfl : t.found = v := hcompleted.found
  refine ⟨t, run, ht, hcompleted, hdrew, hrun, hlen, ⟨fun hv => (htrue hv).2, fun hall => ?_⟩,
    fun hv => (htrue hv).1, hfalse, hbefore⟩
  by_contra hv
  obtain ⟨hpos, hwitness⟩ := hfalse (Bool.not_eq_true _ ▸ hv)
  exact hwitness (hall _ (by omega))

/-- Settles O24: 2 and 3 need no base, and every base is a strong liar for a larger prime, so O25's verdict is 1. -/
theorem isprimeNeverRejectsAPrime : Obligations.IsprimeNeverRejectsAPrime := by
  intro s ra n hsrc hp hl
  have h2 := hp.two_le
  by_cases h3 : n ≤ 3
  · have hmr := millerRabin_without_draws (rounds := s.srcPersist) (.inl (by omega : n < 4)) s.rng
    rw [decide_eq_true (by omega)] at hmr
    rw [if_pos h3]
    exact exec_isprime_of_verdict hsrc hmr
  · have h5 : 5 ≤ n := by
      have h4 : n ≠ 4 := by rintro rfl; exact absurd hp (by decide)
      omega
    have hodd : n % 2 = 1 := hp.eq_two_or_odd.resolve_left (by omega)
    obtain ⟨t, run, ht, hcompleted, hdrew, -, -, hverdict, hrun, -⟩ :=
      isprimeVerdictIsThatOfTheDrawnBases s ra n hsrc h5 hodd (.inl hl)
    have hfound : t.found = true := hverdict.mpr fun k _ =>
      have hbase := roundBase_range n h5 s.rng k
      strongLiar_of_prime n _ hp h5 hbase.1 hbase.2
    rw [if_neg h3, ← hrun hfound]
    rw [hfound] at hcompleted
    exact ⟨t, ht, hcompleted, hdrew⟩

/-! ## Candidates -/

/-- A candidate of `len` bits has its top bit and bit 0 set and no bit above (R205). -/
theorem candidateOfDraw_shape {len draw : Nat} (hl : 1 ≤ len) (hd : draw < 2 ^ len) :
    2 ^ (len - 1) ≤ candidateOfDraw len draw ∧ candidateOfDraw len draw < 2 ^ len ∧
      candidateOfDraw len draw % 2 = 1 := by
  refine ⟨?_, ?_, ?_⟩
  · exact Nat.ge_two_pow_of_testBit ((candidateOfDraw_testBit len draw _).mpr (.inr (.inl rfl)))
  · exact Nat.or_lt_two_pow (Nat.or_lt_two_pow hd (Nat.pow_lt_pow_right Nat.one_lt_two (by omega)))
      (Nat.one_lt_two_pow (by omega))
  · have hbit := (candidateOfDraw_testBit len draw 0).mpr (.inl rfl)
    simpa [Nat.testBit_zero] using hbit

/-- What the sampler finds has `len` bits, is odd, and passes the filter (R205). -/
theorem SamplesPrime.shape {len rounds : Nat} {filter : Option (Nat × Nat)} {ws rest : List Word} {n c : Nat}
    (h : SamplesPrime len rounds filter ws n c rest) (hl : 1 ≤ len) :
    (2 ^ (len - 1) ≤ c ∧ c < 2 ^ len ∧ c % 2 = 1) ∧ filterRejects filter c = false := by
  obtain ⟨ws', draw, w1, -, hdraw, rfl, hfilter, -⟩ := h.accepted
  exact ⟨candidateOfDraw_shape hl (drawBits_lt _ _ _ _ hdraw), hfilter⟩

theorem filterRejects_some_iff (k r c : Nat) : filterRejects (some (k, r)) c = true ↔ c % k ≠ r := bne_iff_ne

/-! ## GENPRIME -/

/-- The parameters are checked first (R203, R204, R234). -/
theorem exec_genprime_of_badParameters {f : Bool} (h : badParameters s f) (rd : Reg) :
    exec (.genprime rd f) s = .next (s.raise .operandRange) := by
  rw [exec, execGenprime, ← ite_or, if_pos ((badParameters_iff f).mp h)]

/-- A legal BITLEN is at least 1, so that a draw takes a word, and at most the width (R203). -/
theorem srcBitlen_bounds {f : Bool} (h : ¬badParameters s f) : 1 ≤ s.srcBitlen ∧ s.srcBitlen ≤ s.width := by
  unfold badParameters at h
  omega

/-- With legal parameters and words that yield a sample, GENPRIME completes with it (R205). -/
theorem exec_genprime_of_sample {f : Bool} (h : ¬badParameters s f) {n c : Nat} {rest : List Word}
    (hs : SamplesPrime s.srcBitlen s.srcPersist (s.filter f) s.rng n c rest) (rd : Reg) :
    exec (.genprime rd f) s = .next ((s.consumeTo rest).complete [(rd, (c : Int))] false 0#32 (saturate32 n)) := by
  have hloop := (samplePrime_eq_some s.srcBitlen s.srcPersist (s.filter f) (srcBitlen_bounds h).1 _ 0 _
    (Nat.lt_succ_self _) ⟨c, n, rest⟩).mpr ⟨n, (Nat.zero_add n).symm, hs⟩
  rw [exec, execGenprime, ← ite_or, if_neg (h ∘ (badParameters_iff f).mpr), hloop]

/-- With legal parameters and words that yield no sample, GENPRIME waits (R83, R206). -/
theorem exec_genprime_of_no_sample {f : Bool} (h : ¬badParameters s f)
    (hs : ¬∃ n c rest, SamplesPrime s.srcBitlen s.srcPersist (s.filter f) s.rng n c rest) (rd : Reg) :
    exec (.genprime rd f) s = .next (s.hold (encode (.genprime rd f))) := by
  have hloop : samplePrime s.srcBitlen s.srcPersist (s.filter f) (s.rng.length + 1) 0 s.rng = none := by
    refine Option.eq_none_iff_forall_ne_some.mpr fun x hx => hs ?_
    obtain ⟨n, -, hsample⟩ := (samplePrime_eq_some _ _ _ (srcBitlen_bounds h).1 _ 0 _
      (Nat.lt_succ_self _) x).mp hx
    exact ⟨n, x.prime, x.rest, hsample⟩
  rw [exec, execGenprime, ← ite_or, if_neg (h ∘ (badParameters_iff f).mpr), hloop]

/-- The sample fits the destination, as BITLEN is at most the width (R203). -/
theorem genprime_completes {f : Bool} (h : ¬badParameters s f) {n c : Nat} {rest : List Word}
    (hs : SamplesPrime s.srcBitlen s.srcPersist (s.filter f) s.rng n c rest) (rd : Reg) :
    ∃ t, exec (.genprime rd f) s = .next t ∧ Completed s t [(rd, (c : Int))] false 0#32 (saturate32 n) ∧
      Drew s t rest := by
  obtain ⟨hlen, hwidth⟩ := srcBitlen_bounds h
  obtain ⟨⟨-, hlt, -⟩, -⟩ := hs.shape hlen
  have hfits : c < 2 ^ s.width := hlt.trans_le (Nat.pow_le_pow_right Nat.two_pos hwidth)
  exact ⟨_, exec_genprime_of_sample h hs rd,
    s.consumeTo_complete_completed rest _ _ _ _ (by simp) (by simpa using hfits),
    State.consumeTo_complete_drew hs.suffix ..⟩

/-- Where the filter's class holds no odd number of BITLEN bits, GENPRIME never ends (R206). -/
theorem genprime_stays_busy_of_empty_class (h : ¬badParameters s true)
    (hempty : ∀ c, 2 ^ (s.srcBitlen - 1) ≤ c → c < 2 ^ s.srcBitlen → c % 2 = 1 → c % s.srcFiltMod ≠ s.srcFiltRes)
    (rd : Reg) : ∃ t, exec (.genprime rd true) s = .next t ∧ t.busy = true := by
  refine ⟨_, exec_genprime_of_no_sample h ?_ rd, s.hold_busy _⟩
  rintro ⟨n, c, rest, hs⟩
  obtain ⟨⟨hlo, hhi, hodd⟩, hfilter⟩ := hs.shape (srcBitlen_bounds h).1
  have hrejects : filterRejects (s.filter true) c = true := (filterRejects_some_iff _ _ c).mpr (hempty c hlo hhi hodd)
  rw [hrejects] at hfilter
  cases hfilter

/-- Settles O28: the fuelled loop is the relation, and the two classes 1 mod 4 and 1 mod 8 hold no odd number of 2 and
of 3 bits with the top bit set. -/
theorem genprimeCompletesIffWordsYieldAPrime : Obligations.GenprimeCompletesIffWordsYieldAPrime := by
  refine ⟨fun s rd f _ h => ⟨fun n c rest hs => genprime_completes h hs rd, fun hs => ?_⟩, candidateOfDraw_testBit,
    fun k r c => ⟨filterRejects_some_iff k r c, rfl⟩, fun s rd hs hlen hmod hres => ?_,
    fun s rd hs hlen hmod hres => ?_⟩
  · have hheld : Outcomes (.genprime rd f) s (s.hold (encode (.genprime rd f))) := .inr (.inr ⟨rfl, .inr ⟨rd, f, rfl⟩⟩)
    exact ⟨_, exec_genprime_of_no_sample h hs rd, s.hold_busy _, s.hold_wide _, hheld.sameSettings, s.hold_noDraws _⟩
  all_goals
    have hwidth := hs.width.1
    refine genprime_stays_busy_of_empty_class ?_ ?_ rd
    · simp only [badParameters, State.width, hlen, hmod, hres, Nat.gcd_one_left]
      omega
    · rw [hlen, hmod, hres]
      omega

/-- Settles O29: GENPRIME that completes has a sample, whose candidate comes from a draw and passed the test. -/
theorem genprimeResultShape : Obligations.GenprimeResultShape := by
  intro s t rd f _ ht hidle hok
  have hlegal : ¬badParameters s f := fun hbad => by
    obtain rfl : s.raise .operandRange = t := by simpa [exec_genprime_of_badParameters hbad] using ht
    cases hok
  have hsample : ∃ n c rest, SamplesPrime s.srcBitlen s.srcPersist (s.filter f) s.rng n c rest := by
    by_contra hnone
    obtain rfl : s.hold _ = t := by simpa [exec_genprime_of_no_sample hlegal hnone] using ht
    simp at hidle
  obtain ⟨n, c, rest, hs⟩ := hsample
  obtain ⟨u, hu, hcompleted, hdrew⟩ := genprime_completes hlegal hs rd
  obtain rfl : u = t := by simpa [hu] using ht
  have hreg : u.reg rd = c := hcompleted.written _ (List.mem_singleton_self _)
  obtain ⟨⟨hlo, hhi, hodd⟩, hfilter⟩ := hs.shape (srcBitlen_bounds hlegal).1
  obtain ⟨ws, draw, w1, hsuffix, hdraw, hc, -, htest⟩ := hs.accepted
  rw [hreg, hdrew.rng, Int.toNat_natCast]
  refine ⟨⟨by exact_mod_cast hlo, by exact_mod_cast hhi, by omega, ?_⟩, ws, w1, draw, hsuffix, hdraw,
    fun k => hc ▸ candidateOfDraw_testBit _ _ k, htest⟩
  rintro rfl
  have hclass : c % s.srcFiltMod = s.srcFiltRes := by
    by_contra hne
    exact Bool.false_ne_true (hfilter.symm.trans ((filterRejects_some_iff _ _ c).mpr hne))
  exact_mod_cast hclass

/-- A held command has no error code: an acceptance clears it (R231). -/
theorem State.Inv.hold_ecode (h : s.Inv) (c : Word) : (s.hold c).ecode = .ok :=
  ((h.hold c).clear (s.hold_busy c)).2.1

/-- Settles O31: the parameters are checked first, and past them GENPRIME completes or waits. -/
theorem genprimeParametersAreChecked : Obligations.GenprimeParametersAreChecked := by
  intro s rd f hs
  have hfails (h : badParameters s f) : ∃ t, exec (.genprime rd f) s = .next t ∧ Failed s t .operandRange :=
    ⟨_, exec_genprime_of_badParameters h rd, s.raise_failed _⟩
  refine ⟨fun h => hfails (or_assoc.mp (.inl h)), fun hf h => hfails (.inr (.inr ⟨hf, h⟩)), fun h => ?_⟩
  by_cases hsample : ∃ n c rest, SamplesPrime s.srcBitlen s.srcPersist (s.filter f) s.rng n c rest
  · obtain ⟨n, c, rest, hsample⟩ := hsample
    exact ⟨_, exec_genprime_of_sample h hsample rd, rfl⟩
  · exact ⟨_, exec_genprime_of_no_sample h hsample rd, hs.hold_ecode _⟩

end Sys2Proof.Machine

/-! NOP (R220): its word is 0 alone, and it completes in every state. Before it, what STATUS reads after any completion
without error (R38, R232). -/

namespace Sys2Proof

/-- The words with the opcode of NOP: 0 is NOP, and every other is refused for an unused field (R93, R95, R220). -/
theorem decode_of_opc_zero {c : Word} (hopc : c.extractLsb' 0 8 = 0#8) :
    decode c = if c = 0#32 then .ok .nop else .error .nonZeroUnusedField := by
  have hrow : opcodeRows[(Fields.ofWord c).opc.toNat]? = some ⟨0#32, BitVec.allOnes 32, fun _ => .nop⟩ := by
    rw [show (Fields.ofWord c).opc = 0#8 from hopc]
    rfl
  rw [decode_of_row hrow, BitVec.and_allOnes]

theorem decode_eq_nop_iff (c : Word) : decode c = .ok .nop ↔ c = 0#32 :=
  (decode_eq_ok_iff c .nop).trans eq_comm

end Sys2Proof

namespace Sys2Proof.Machine

section Completion

variable {s t : State} {ws : List (Reg × Int)} {f : Bool} {w n : Word}

theorem Completed.err (h : Completed s t ws f w n) : t.err = false := by
  rw [State.err_eq, h.ecode]
  rfl

/-- After a completion without error STATUS holds DONE, FOUND and the BUSYWR of before (R38, R232, R270). -/
theorem Completed.statusWord (h : Completed s t ws f w n) :
    t.statusWord = flagAt true 1 ||| flagAt f 3 ||| flagAt s.busywr 7 := by
  have hidle : t.busy = false := by rw [State.busy, h.idle]; rfl
  rw [State.statusWord, hidle, h.done, h.err, h.found, h.ecode, h.settings.busywr]
  cases f <;> cases s.busywr <;> rfl

end Completion

/-- Settles O9: NOP is the completion without register writes and results, and its word is decided by its row. -/
theorem nopOnlyClearsTheResults : Obligations.NopOnlyClearsTheResults := by
  refine ⟨fun s => ?_, decode_eq_nop_iff, fun c hopc hrest => ?_⟩
  · have hcompleted := s.complete_completed [] false 0#32 0#32 (by simp) (by simp)
    refine ⟨_, rfl, hcompleted, s.complete_noDraws .., hcompleted.err, fun hbusywr => ?_⟩
    rw [hcompleted.statusWord, hbusywr]
    rfl
  · have hne : c ≠ 0#32 := by
      rintro rfl
      exact hrest rfl
    rw [decode_of_opc_zero hopc, if_neg hne]

end Sys2Proof.Machine

/-! Acceptance, error completions and the busy rule: acceptance by a write to CMD and as part of an idle `exec` (R231,
log entry 6), what an error leaves (R233), the abort request (R243), the interrupt line (R240), and BUSYWR (R270). -/

namespace Sys2Proof.Machine

/-! ## Acceptance: an idle `exec` reads what an acceptance latches and overwrites what it clears -/

section Accept

variable {s : State}

theorem State.accept_src (hr : s.running = none) (c : Word) (r : Reg) : (s.accept c).src r = s.src r := by
  rw [s.src_of_idle hr, State.src_of_running _ _ rfl, State.latchOf_wide, State.reg]

theorem State.latched_of_idle (hr : s.running = none) : s.latched = s.latchOf 0#32 := by rw [State.latched, hr]

theorem State.accept_latched (c : Word) : (s.accept c).latched = s.latchOf c := rfl

theorem State.accept_srcBitlen (hr : s.running = none) (c : Word) : (s.accept c).srcBitlen = s.srcBitlen := by
  rw [State.srcBitlen, State.srcBitlen, State.accept_latched, State.latched_of_idle hr]
  rfl

theorem State.accept_srcPersist (hr : s.running = none) (c : Word) : (s.accept c).srcPersist = s.srcPersist := by
  rw [State.srcPersist, State.srcPersist, State.accept_latched, State.latched_of_idle hr]
  rfl

theorem State.accept_filter (hr : s.running = none) (c : Word) (f : Bool) : (s.accept c).filter f = s.filter f := by
  simp only [State.filter, State.srcFiltMod, State.srcFiltRes, State.accept_latched, State.latched_of_idle hr]
  rfl

theorem State.accept_width (c : Word) : (s.accept c).width = s.width := rfl

theorem State.accept_consumeTo (c : Word) (rest : List Word) :
    (s.accept c).consumeTo rest = (s.consumeTo rest).accept c := rfl

theorem State.accept_raise (c : Word) (e : ErrorCode) : (s.accept c).raise e = s.raise e := rfl

/-- A completion overwrites the outcome of before and the command held (R232). -/
theorem State.complete_overwrites (s : State) (running : Option Latch) (done : Bool) (ecode : ErrorCode) (found : Bool)
    (result iter : Word) (ws : List (Reg × Int)) (f : Bool) (w n : Word) :
    State.complete { s with
      running := running, done := done, ecode := ecode, found := found, result := result, iter := iter } ws f w n =
    s.complete ws f w n := by
  induction ws generalizing s with
  | nil => rfl
  | cons p ws ih => exact ih (s.writeReg p.1 p.2)

theorem State.accept_complete (c : Word) (ws : List (Reg × Int)) (f : Bool) (w n : Word) :
    (s.accept c).complete ws f w n = s.complete ws f w n := s.complete_overwrites ..

theorem State.hold_of_idle (hr : s.running = none) (c : Word) : s.hold c = s.accept c := by rw [State.hold, hr]

theorem State.accept_hold (c d : Word) : (s.accept c).hold d = s.accept c := rfl

end Accept

/-- Settles O38: every check, value and draw reads the same before and after the acceptance, and every ending leaves the
same state. -/
theorem idleExecIsAcceptanceAndCompletion : Obligations.IdleExecIsAcceptanceAndCompletion := by
  intro i s hr
  have hsrc (r : Reg) := State.accept_src hr (encode i) r
  cases i with
  | nop | powmod | xgcd | modinv | modred | montmul | montin | jacobi | isqrt | modsqrt =>
    simp only [exec, execNop, execPowmod, execXgcd, execModinv, execModred, execMontmul, execMontin, execJacobi,
      execIsqrt, execModsqrt, hsrc, State.accept_width, State.accept_raise, State.accept_complete]
  | isprime =>
    simp only [exec, execIsprime, hsrc, State.accept_srcPersist hr, State.accept_rng, State.accept_raise,
      State.accept_consumeTo, State.accept_complete, State.accept_hold, State.hold_of_idle hr]
  | genprime =>
    simp only [exec, execGenprime, State.accept_width, State.accept_srcBitlen hr, State.accept_srcPersist hr,
      State.accept_filter hr, State.accept_rng, State.accept_raise, State.accept_consumeTo, State.accept_complete,
      State.accept_hold, State.hold_of_idle hr]

/-- Settles O8: CMD is protected, so its write is performed while idle, as the acceptance, and dropped while busy. -/
theorem cmdWriteIsAcceptance : Obligations.CmdWriteIsAcceptance := by
  intro s c rest ha
  refine ⟨fun hb => ?_, fun hb => ?_⟩
  · exact ⟨_, _, step_write_csr ha (.inl hb), rfl, rfl, rfl, rfl, rfl, rfl, rfl, rfl, rfl, rfl, rfl, rfl, rfl, rfl, rfl,
      rfl, ⟨rfl, rfl, rfl, rfl, rfl, rfl, rfl, rfl, rfl, rfl⟩, rfl, rfl⟩
  · rw [step_of_event ha, State.handle, State.hostWrite_of_protected (s := { s with agenda := rest }) c hb rfl]

/-! ## What ends a command -/

section Ending

variable {s t : State}

/-- A host write ends no command (R273). -/
theorem State.hostWrite_busy (hb : s.busy = true) (a : PortIndex) (v : Word) : (s.hostWrite a v).busy = true := by
  rcases s.hostWrite_cases a v with ⟨-, hw⟩ | ⟨hfree, hw⟩
  · rw [hw]
    exact hb
  · obtain ⟨req, hrun⟩ := s.writeWord_running v (hfree hb)
    rw [hw, State.busy, hrun, Option.isSome_map]
    exact hb

/-- But for a reset only the sequencer ends a command (R273). -/
theorem sequencer_of_ends (hstep : step s = .next t) (hb : s.busy = true) (hbt : t.busy = false)
    (hreset : ∀ rest, s.agenda ≠ .reset :: rest) : ∃ rest, SequencerMove { s with agenda := rest } t := by
  cases step_move hstep with
  | environment agenda reply rng fresh next =>
    subst next
    exact absurd (hb.symm.trans hbt) (by decide)
  | write a v rest event next =>
    subst next
    exact absurd ((State.hostWrite_busy (s := { s with agenda := rest }) hb a v).symm.trans hbt) (by decide)
  | reset rest event next => exact absurd event (hreset rest)
  | sequencer rest move => exact ⟨rest, move⟩

/-- The sequencer ends a command with an error by `raise` alone, on the state as it is or, for an abort, with words
dropped (R233, R243). -/
theorem SequencerMove.error (h : SequencerMove s t) (hb : s.busy = true) (hbt : t.busy = false) (he : t.ecode ≠ .ok) :
    (∃ e, t = s.raise e) ∨ t = s.abortNow := by
  rcases h with rfl | ⟨l, -, rfl | ⟨i, -, ho⟩ | rfl⟩
  · exact absurd (hb.symm.trans hbt) (by decide)
  · exact .inl ⟨_, rfl⟩
  · rcases ho with ⟨e, rfl, -⟩ | ⟨⟨rest, ws, f, w, n, rfl, -⟩⟩ | ⟨rfl, -⟩
    · exact .inl ⟨e, rfl⟩
    · exact absurd rfl he
    · exact absurd (s.hold_busy _ ▸ hbt) (by decide)
  · exact .inr rfl

end Ending

/-- Settles O34: an error is the sequencer's, so it is a `raise`, after which an abort alone has words dropped. -/
theorem errorsWriteNoRegister : Obligations.ErrorsWriteNoRegister := by
  intro s t hstep hb hbt he
  have hreset (rest : List Event) : s.agenda ≠ .reset :: rest := fun ha => by
    rw [step_of_event ha, State.handle, Host.Outcome.next.injEq] at hstep
    exact he (hstep ▸ rfl)
  have herr : t.err = true := by simpa [State.err_eq] using he
  obtain ⟨rest, move⟩ := sequencer_of_ends hstep hb hbt hreset
  rcases move.error hb hbt he with ⟨e, rfl⟩ | rfl
  · exact ⟨rfl, herr, rfl, rfl, rfl, rfl, rfl, rfl, rfl, rfl, rfl, rfl, rfl, rfl, rfl, fun _ => ⟨rfl, rfl⟩⟩
  · exact ⟨rfl, herr, rfl, rfl, rfl, rfl, rfl, rfl, rfl, rfl, rfl, rfl, rfl, rfl, rfl, fun h => absurd rfl h⟩

/-! ## The interrupt line -/

/-- Settles O56: the sequencer ends a command with DONE and leaves IE, and each of the three writes clears one of the
two. -/
theorem irqFollowsDoneAndEnable : Obligations.IrqFollowsDoneAndEnable := by
  refine ⟨fun s => rfl, fun s t hstep hb hbt hreset => ?_, fun s t v rest hstep hwrite => ?_⟩
  · obtain ⟨rest', move⟩ := sequencer_of_ends hstep hb hbt hreset
    obtain ⟨-, hie, -⟩ := move.settings
    obtain ⟨l, hr⟩ := Option.isSome_iff_exists.mp hb
    rcases move.running hr with ⟨-, hdone⟩ | hheld
    · rw [State.irq, hie, hdone, Bool.and_true]
    · exact absurd hbt (by simp [State.busy, hheld])
  · rcases hwrite with ⟨ha, hbit⟩ | ⟨ha, hb⟩ | ⟨ha, hbit⟩
    · obtain rfl := Host.Outcome.next.inj ((step_write_csr ha (.inr rfl)).symm.trans hstep)
      change (s.ie && (s.done && !v.getLsbD 1)) = false
      rw [hbit, Bool.not_true, Bool.and_false, Bool.and_false]
    · obtain rfl := Host.Outcome.next.inj ((step_write_csr ha (.inl hb)).symm.trans hstep)
      exact Bool.and_false _
    · obtain rfl := Host.Outcome.next.inj ((step_write_csr ha (.inr rfl)).symm.trans hstep)
      change (v.getLsbD 0 && s.done) = false
      rw [hbit, Bool.false_and]

/-! ## The abort request -/

/-- The command in execution has an abort request (R243). -/
def State.AbortRequested (s : State) : Prop := ∃ l, s.running = some l ∧ l.abortReq = true

section Abort

variable {s t : State}

/-- An abort event ends the command exactly where a request stands (R234, R243). -/
theorem State.abortTurn_of_request {l : Latch} (hr : s.running = some l) (ha : l.abortReq = true) :
    s.abortTurn = s.abortNow := by
  simp [State.abortTurn, hr, ha]

theorem State.abortTurn_aborted (ht : s.abortTurn.ecode = .aborted) : s.ecode = .aborted ∨ s.AbortRequested := by
  cases hr : s.running with
  | none => exact .inl (State.abortTurn_of_idle ((s.busy_eq_false_iff).mpr hr) ▸ ht)
  | some l =>
    cases ha : l.abortReq with
    | false => exact .inl (State.abortTurn_of_no_request hr ha ▸ ht)
    | true => exact .inr ⟨l, hr, ha⟩

/-- No command ends with ABORTED by its own meaning (R235). -/
theorem Outcomes.aborted {i : Instr} (h : Outcomes i s t) (ht : t.ecode = .aborted) : s.ecode = .aborted := by
  rcases h with ⟨e, rfl, he⟩ | ⟨⟨rest, ws, f, w, n, rfl, -⟩⟩ | ⟨rfl, -⟩
  · simp [show e = .aborted from ht] at he
  · cases ht
  · unfold State.hold at ht
    split at ht
    · exact ht
    · cases ht

theorem State.completeTurn_aborted (h : s.completeTurn = .next t) (ht : t.ecode = .aborted) :
    s.ecode = .aborted ∨ s.AbortRequested := by
  rcases s.completeTurn_cases with ⟨-, hs⟩ | ⟨l, u, hr, hs, hu⟩
  · obtain rfl : s = t := by simpa [hs] using h
    exact .inl ht
  · obtain rfl : u = t := by simpa [hs] using h
    rcases hu with ⟨e, -, rfl⟩ | ⟨i, -, -, ho, -⟩ | ⟨-, ha⟩
    · cases ht
    · exact .inl (ho.aborted ht)
    · exact .inr ⟨l, hr, ha⟩

theorem State.hostWrite_aborted {a : PortIndex} {v : Word} (ht : (s.hostWrite a v).ecode = .aborted) :
    s.ecode = .aborted := by
  rcases s.hostWrite_cases a v with ⟨-, hw⟩ | ⟨-, hw⟩ <;> rw [hw] at ht
  · exact ht
  · by_cases hp : portWord s.nword a = .cmd
    · rw [hp] at ht
      cases ht
    · exact (s.writeWord_outcome v hp).1 ▸ ht

/-- The sequencer makes no request (R243). -/
theorem SequencerMove.abortRequested (h : SequencerMove s t) (ht : t.AbortRequested) : s.AbortRequested := by
  cases hr : s.running with
  | none => exact h.eq_of_idle ((s.busy_eq_false_iff).mpr hr) ▸ ht
  | some l =>
    obtain ⟨l', hl', ha⟩ := ht
    rcases h.running hr with ⟨hidle, -⟩ | hheld
    · simp [hidle] at hl'
    · obtain rfl : l = l' := by simpa [hheld] using hl'
      exact ⟨l, hr, ha⟩

/-- Of the writes only that of a 1 to bit 1 of CTRL makes a request, and only while busy (R37, R243). -/
theorem State.hostWrite_abortRequested {a : PortIndex} {v : Word} (ht : (s.hostWrite a v).AbortRequested) :
    s.AbortRequested ∨ s.busy = true ∧ a = 2#11 ∧ v.getLsbD 1 = true := by
  rcases s.hostWrite_cases a v with ⟨-, hw⟩ | ⟨-, hw⟩ <;> rw [hw] at ht
  · exact .inl ht
  · obtain ⟨l', hl', hreq⟩ := ht
    cases hp : portWord s.nword a with
    | cmd =>
      rw [hp] at hl'
      obtain rfl : s.latchOf v = l' := Option.some.inj hl'
      cases hreq
    | ctrl =>
      rw [hp] at hl'
      obtain ⟨l, hr, rfl⟩ := Option.map_eq_some_iff.mp hl'
      rcases Bool.or_eq_true_iff.mp hreq with hbefore | hbit
      · exact .inl ⟨l, hr, hbefore⟩
      · exact .inr ⟨by rw [State.busy, hr, Option.isSome_some], (index_of_portWord hp).1 rfl, hbit⟩
    | _ =>
      rw [hp] at hl'
      exact .inl ⟨l', hl', hreq⟩

/-- With a request the sequencer's turn ends the command, by the abort or by its own completion (R243, log entry 8). -/
theorem State.completeTurn_of_request {l : Latch} (hr : s.running = some l) (ha : l.abortReq = true) :
    ∃ t, s.completeTurn = .next t ∧ t.busy = false ∧ (t.ecode = .aborted ∨ s.runLatched = .next t) := by
  rcases s.completeTurn_cases with ⟨hidle, -⟩ | ⟨l', t, hr', hs, ht⟩
  · simp [hr] at hidle
  · obtain rfl : l = l' := by simpa [hr] using hr'
    rcases ht with ⟨e, hd, rfl⟩ | ⟨i, hd, hexec, -, hreq⟩ | ⟨rfl, -⟩
    · exact ⟨_, hs, rfl, .inr (State.runLatched_of_illegal hr (.inl ⟨e, hd⟩))⟩
    · refine ⟨t, hs, ?_, .inr ((State.runLatched_of_decode hr hd).trans hexec)⟩
      by_contra hb
      exact absurd (ha.symm.trans (hreq (Bool.not_eq_false _ ▸ hb))) (by decide)
    · exact ⟨_, hs, rfl, .inl rfl⟩

/-- An abort drops no more words than the command's own completion takes (R243). -/
theorem State.dropDraws_length_of_completes {u : State} (h : s.runLatched = .next u) (hu : u.busy = false)
    (hsuffix : u.rng <:+ s.rng) : u.rng.length ≤ s.dropDraws.rng.length := by
  have hahead : s.drawsAhead = s.rng.length - u.rng.length := by simp [State.drawsAhead, h, hu]
  have hle := hsuffix.length_le
  have hdropped := s.dropDraws_rng.2
  omega

end Abort

/-- Settles O45, by the moves of a step: only the sequencer acting on a request raises ABORTED, and only a write to CTRL
makes a request. -/
theorem abortedNeedsARequest : Obligations.AbortedNeedsARequest := by
  refine fun s t hstep => ⟨fun ht => ?_, fun l' hl' hreq => ?_⟩
  · obtain ⟨u, hu, hmove⟩ := step_cases hstep
    have haborted : u.ecode = .aborted ∨ u.AbortRequested := by
      rcases hmove with ⟨a, -, rfl⟩ | ⟨a, v, -, rfl⟩ | ⟨w, -, rfl⟩ | ⟨-, rfl⟩ | ⟨-, rfl⟩ | ⟨-, hturn⟩
      · exact .inl ht
      · exact .inl (State.hostWrite_aborted ht)
      · exact .inl ht
      · cases ht
      · exact State.abortTurn_aborted ht
      · exact State.completeTurn_aborted hturn ht
    subst hu
    exact haborted
  · have ht : t.AbortRequested := ⟨l', hl', hreq⟩
    cases step_move hstep with
    | environment agenda reply rng fresh next =>
      subst next
      exact .inl ht
    | reset rest event next =>
      subst next
      cases hl'
    | sequencer rest move => exact .inl (move.abortRequested ht)
    | write a v rest event next =>
      subst next
      refine (State.hostWrite_abortRequested ht).imp id ?_
      rintro ⟨hb, rfl, hbit⟩
      exact ⟨hb, v, rest, event, hbit⟩

/-- Settles O46: CTRL is not protected, an abort event drops words and raises ABORTED, and a turn of the sequencer with
a request ends the command. -/
theorem abortRequestEndsTheCommand : Obligations.AbortRequestEndsTheCommand := by
  refine ⟨fun s l v rest hr ha hbit => ?_, fun s v rest hr ha => ?_, fun s l rest hr hreq ha => ?_,
    fun s l hr hreq ha => ?_⟩
  · rw [step_write_csr ha (.inr rfl)]
    simp [csrAt, State.writeWord, State.writeCtrl, hr, hbit]
  · rw [step_write_csr ha (.inr rfl)]
    simp [csrAt, State.writeWord, State.writeCtrl, hr]
  · have hstep : step s = .next (State.abortNow { s with agenda := rest }) := by
      rw [step_of_event ha, State.handle, State.abortTurn_of_request (s := { s with agenda := rest }) hr hreq]
    refine ⟨_, hstep, rfl, rfl, rfl, rfl, rfl, rfl, rfl, (State.dropDraws_rng _).1, State.dropDraws_drawn _,
      fun i u hd hexec hu => ?_⟩
    obtain ⟨u', hu', ho⟩ := exec_cases i { s with agenda := rest }
    obtain rfl : u' = u := by simpa [hu'] using hexec
    have hlatched := State.runLatched_of_decode (s := { s with agenda := rest }) hr hd
    exact State.dropDraws_length_of_completes (hlatched.trans hexec) hu ho.rng
  · have hstep : step s = State.completeTurn { s with agenda := s.agenda.tail } := by
      rcases ha with ha | ⟨rest, ha⟩
      · rw [step_of_no_event ha, ha, List.tail_nil, ← ha]
      · rw [step_of_event ha, State.handle, ha, List.tail_cons]
    rw [hstep]
    exact State.completeTurn_of_request (s := { s with agenda := s.agenda.tail }) hr hreq

/-! ## BUSYWR -/

/-- The protected CSRs: CMD, SIGN and the parameter registers (R64, R270). -/
theorem csrAt_isProtected_iff (k : Nat) : (csrAt k).isProtected = true ↔ k = 4 ∨ (7 ≤ k ∧ k ≤ 11) := by
  by_cases hk : k < 12
  · interval_cases k <;> decide
  · obtain ⟨j, rfl⟩ : ∃ j, k = j + 12 := ⟨k - 12, by omega⟩
    exact iff_of_false Bool.false_ne_true (by omega)

/-- The protected words are the protected CSRs and the implemented magnitude words (R64, R270). -/
theorem portWord_isProtected_iff (n : Nat) (a : PortIndex) : (portWord n a).isProtected = true ↔
    a = 4#11 ∨ (7 ≤ a.toNat ∧ a.toNat ≤ 11) ∨ (0x400 ≤ a.toNat ∧ a.toNat % 0x80 < n) := by
  have hcmd : a = 4#11 ↔ a.toNat = 4 := ⟨fun h => h ▸ rfl, fun h => BitVec.eq_of_toNat_eq h⟩
  rw [hcmd]
  by_cases hcsr : a.toNat < 0x400
  · rw [portWord_csr n hcsr, csrAt_isProtected_iff]
    omega
  · rw [portWord, if_neg hcsr]
    split
    · exact iff_of_true rfl (by omega)
    · exact iff_of_false Bool.false_ne_true (by omega)

theorem State.writeWord_busywr (s : State) (v : Word) (p : PortWord) :
    (s.writeWord v p).busywr = if p = .status then s.busywr && !v.getLsbD 7 else s.busywr := by cases p <;> rfl

/-- A write to a protected word while busy sets BUSYWR, one to STATUS may clear it, no other changes it (R38, R270). -/
theorem State.hostWrite_busywr (s : State) (a : PortIndex) (v : Word) : (s.hostWrite a v).busywr =
    if s.busy && (portWord s.nword a).isProtected then true
    else if portWord s.nword a = .status then s.busywr && !v.getLsbD 7 else s.busywr := by
  unfold State.hostWrite
  split
  · rfl
  · exact s.writeWord_busywr v _

/-- The sequencer leaves BUSYWR (R232, R233, R243). -/
theorem SequencerMove.busywr {s t : State} (h : SequencerMove s t) : t.busywr = s.busywr := by
  rcases h with rfl | ⟨l, -, rfl | ⟨i, -, ho⟩ | rfl⟩
  · rfl
  · rfl
  · exact ho.sameSettings.busywr
  · rfl

/-- Only a host write or a reset changes BUSYWR (R270). -/
theorem step_busywr {s t : State} (hstep : step s = .next t) :
    t.busywr = s.busywr ∨ (∃ rest, s.agenda = .reset :: rest ∧ t.busywr = false) ∨
    ∃ a v rest, s.agenda = .write a v :: rest ∧ t.busywr = (s.hostWrite a v).busywr := by
  cases step_move hstep with
  | environment agenda reply rng fresh next =>
    subst next
    exact .inl rfl
  | sequencer rest move => exact .inl move.busywr
  | reset rest event next =>
    subst next
    exact .inr (.inl ⟨rest, event, rfl⟩)
  | write a v rest event next =>
    subst next
    exact .inr (.inr ⟨a, v, rest, event, by rw [State.hostWrite_busywr, State.hostWrite_busywr]; rfl⟩)

/-- Settles O49: the protected words by the address map, and what becomes of BUSYWR by the one write or reset that may
change it. -/
theorem busyProtectedWritesAreDropped : Obligations.BusyProtectedWritesAreDropped := by
  refine ⟨fun s a v rest event hb ha => ?_, fun s t hstep hclear hset => ?_, fun s t hstep hset hclear => ?_,
    fun s v rest => ⟨fun event => ?_, fun event => ?_⟩⟩
  · rw [step_of_event event, State.handle, State.hostWrite_of_protected (s := { s with agenda := rest }) v hb
      ((portWord_isProtected_iff _ _).mpr ha)]
  · rcases step_busywr hstep with hsame | ⟨rest, -, hreset⟩ | ⟨a, v, rest, event, hwrite⟩
    · exact absurd (hclear.symm.trans (hsame.symm.trans hset)) (by decide)
    · exact absurd (hreset.symm.trans hset) (by decide)
    · rw [hset, State.hostWrite_busywr, hclear] at hwrite
      have hdropped : (s.busy && (portWord s.nword a).isProtected) = true := by
        by_contra hperformed
        simp [hperformed] at hwrite
      obtain ⟨hb, hp⟩ := Bool.and_eq_true_iff.mp hdropped
      exact ⟨hb, a, v, rest, event, (portWord_isProtected_iff _ _).mp hp⟩
  · rcases step_busywr hstep with hsame | ⟨rest, event, -⟩ | ⟨a, v, rest, event, hwrite⟩
    · exact absurd (hset.symm.trans (hsame.symm.trans hclear)) (by decide)
    · exact .inr ⟨rest, event⟩
    · rw [hclear, State.hostWrite_busywr, hset] at hwrite
      have hstatus : portWord s.nword a = .status ∧ v.getLsbD 7 = true := by
        split_ifs at hwrite with hdropped hp
        exact ⟨hp, by simpa using hwrite⟩
      obtain ⟨hp, hbit⟩ := hstatus
      exact .inl ⟨v, rest, (index_of_registerWord hp).1 rfl ▸ event, hbit⟩
  · exact ⟨_, step_write_csr event (.inr rfl), rfl, rfl⟩
  · exact ⟨_, step_write_csr event (.inr rfl), rfl, rfl⟩

end Sys2Proof.Machine
